-- ==== Sys2Proof/Word.lean ====
section
/-! DEFINITION. The word types of HUFFCORE (00_scope.md R4, R7): every number is unsigned. -/

namespace Sys2Proof

/-- A byte (R7). -/
abbrev Byte := BitVec 8

/-- A symbol, "one possible byte value (0–255)" (R12): the index of `FREQ`, `LEN` and `CODE` (R61). -/
abbrev Sym := BitVec 8

/-- A host weight (`W_FREQ`, R4), a window word (`W_REG`, R4), an IMM field (R90). -/
abbrev Word32 := BitVec 32

/-- A tree-node weight (`W_NODE`, R4). -/
abbrev Weight := BitVec 40

/-- An arena index (`W_IDX`, R4). -/
abbrev Idx := BitVec 9

/-- A stored code or candidate (`W_CODE`, R4). -/
abbrev CodeWord := BitVec 256

/-- A command word (`W_CMD`, R4, R90). -/
abbrev CmdWord := BitVec 64

/-- A window word address (R39). -/
abbrev WinAddr := BitVec 14

end Sys2Proof
end

