-- ==== Sys2Proof/Config.lean ====
section
/-! DEFINITION. What an implementation fixes and what the spec leaves free. Nothing here has a value a proof could use. -/

namespace Sys2Proof

/-- One less than the IN queue's capacity at reset: R4's OPEN parameter `IN_DEPTH`, which is at least 1. -/
opaque Config.inDepthLess1 : Nat

/-- One less than the OUT queue's capacity at reset: R4's OPEN parameter `OUT_DEPTH`, which is at least 1. -/
opaque Config.outDepthLess1 : Nat

/-- `IN_DEPTH` of the machine `State.reset` stands for (R4, I8). -/
def Config.inDepth : Nat := Config.inDepthLess1 + 1

/-- `OUT_DEPTH` of the machine `State.reset` stands for (R4, I8). -/
def Config.outDepth : Nat := Config.outDepthLess1 + 1

/-- The free value of the n-th window read made while `BUSY = 1`: "Every bit except STATUS.BUSY then reads as
any value, and a model draws it freely" (R42, I7). -/
opaque Config.busyWord : Nat → Word32

end Sys2Proof
end

