-- ==== Sys2Proof/Syntax.lean ====
section
/-! DEFINITION. The sixteen commands (30_encoding.md R91 to R93) and the pseudo-instructions of R98. -/

namespace Sys2Proof

/-- One constructor per row of the opcode table, with the operands of its format (R91, R92). -/
inductive Instr where
  /-- format Z, R111 -/
  | nop
  /-- format Z, R112 -/
  | reset
  /-- format Z, R121 -/
  | clrw
  /-- format S: symbol `s` (field A), weight `w` (field IMM), R122 -/
  | setw (s : Sym) (w : Word32)
  /-- format Z, R123 -/
  | build
  /-- format Z, R141 -/
  | assign
  /-- format Z, R151 -/
  | wpre
  /-- format Z, R152 -/
  | wtab
  /-- format Z, R153 -/
  | enc
  /-- format N: bit count `n` (field B), value `v` (field IMM), R201 -/
  | push (n : BitVec 16) (v : Word32)
  /-- format Z, R202 -/
  | fin
  /-- format Z, R171 -/
  | rpre
  /-- format Z, R172 -/
  | rtab
  /-- format L: symbol limit (field IMM), R173 -/
  | dec (limit : Word32)
  /-- format C: bit count `n` (field B), R203 -/
  | rbits (n : BitVec 16)
  /-- format Z, R204 -/
  | ralign
  deriving DecidableEq, Repr

/-- The pseudo-instructions of R98. -/
inductive Pseudo where
  /-- `DEC` with no operand -/
  | dec
  /-- `LOADW s1:w1, ..., sk:wk` -/
  | loadw (weights : List (Sym × Word32))
  | compress
  | decompress (limit : Word32)
  deriving DecidableEq, Repr

/-- The exact expansions of R98. -/
def Pseudo.expand : Pseudo → List Instr
  | .dec => [.dec 0]
  | .loadw weights => .clrw :: weights.map fun (s, w) => .setw s w
  | .compress => [.build, .assign, .wpre, .wtab, .enc]
  | .decompress limit => [.rpre, .rtab, .dec limit]

end Sys2Proof
end

