-- ==== Sys2Proof/WellFormed.lean ====
section
/-! DEFINITION. Which commands have an encoding (30_encoding.md R92, R94): a bit count is at most 32. -/

namespace Sys2Proof

/-- "legal only for `n ≤ 32`" (R92). -/
def countLegal (n : BitVec 16) : Bool := n.toNat ≤ 32

/-- The extra condition of R94's table: `B ≤ 32` for PUSH and RBITS, none for the others (every other operand is
legal at every value of its field, R92). -/
def Instr.wellFormed : Instr → Bool
  | .nop | .reset | .clrw | .setw _ _ | .build | .assign | .wpre | .wtab | .enc | .fin | .rpre | .rtab
  | .dec _ | .ralign => true
  | .push n _ => countLegal n
  | .rbits n => countLegal n

end Sys2Proof
end

