-- ==== Sys2Proof/Decode.lean ====
section
/-! DEFINITION. The command encoding (30_encoding.md R90 to R96): the opcode map, decoding, encoding. -/

namespace Sys2Proof

/-- A listed opcode (R93). -/
inductive Opcode where
  | nop | reset | clrw | setw | build | assign | wpre | wtab | enc | push | fin | rpre | rtab | dec | rbits | ralign
  deriving DecidableEq, Repr

/-- The opcode map (R93). -/
def Opcode.code : Opcode → Byte
  | .nop => 0x00
  | .reset => 0x01
  | .clrw => 0x10
  | .setw => 0x11
  | .build => 0x12
  | .assign => 0x13
  | .wpre => 0x20
  | .wtab => 0x21
  | .enc => 0x22
  | .push => 0x23
  | .fin => 0x24
  | .rpre => 0x30
  | .rtab => 0x31
  | .dec => 0x32
  | .rbits => 0x33
  | .ralign => 0x34

/-- The opcodes in the order of R93's table. -/
def Opcode.all : List Opcode :=
  [.nop, .reset, .clrw, .setw, .build, .assign, .wpre, .wtab, .enc, .push, .fin, .rpre, .rtab, .dec, .rbits, .ralign]

/-- The listed opcode of an OP field; `none` for a reserved one (R95). -/
def Opcode.ofByte (op : Byte) : Option Opcode := Opcode.all.find? fun o => o.code = op

/-- The mask column of R94. -/
def Opcode.mask : Opcode → CmdWord
  | .setw => 0xFF00FFFF00000000
  | .push => 0xFFFF000000000000
  | .dec => 0xFFFFFFFF00000000
  | .rbits => 0xFFFF0000FFFFFFFF
  | .nop | .reset | .clrw | .build | .assign | .wpre | .wtab | .enc | .fin | .rpre | .rtab | .ralign =>
    0xFFFFFFFFFFFFFFFF

/-- The match column of R94: the opcode in OP, zeros elsewhere. -/
def Opcode.matchBits : Opcode → CmdWord
  | .nop => 0x0000000000000000
  | .reset => 0x0100000000000000
  | .clrw => 0x1000000000000000
  | .setw => 0x1100000000000000
  | .build => 0x1200000000000000
  | .assign => 0x1300000000000000
  | .wpre => 0x2000000000000000
  | .wtab => 0x2100000000000000
  | .enc => 0x2200000000000000
  | .push => 0x2300000000000000
  | .fin => 0x2400000000000000
  | .rpre => 0x3000000000000000
  | .rtab => 0x3100000000000000
  | .dec => 0x3200000000000000
  | .rbits => 0x3300000000000000
  | .ralign => 0x3400000000000000

/-- Formats N and C carry a bit count in B (R91). -/
def Opcode.takesCount : Opcode → Bool
  | .push | .rbits => true
  | .nop | .reset | .clrw | .setw | .build | .assign | .wpre | .wtab | .enc | .fin | .rpre | .rtab | .dec
  | .ralign => false

/-- OP, bits 63:56 (R90). -/
def opField (w : CmdWord) : Byte := w.extractLsb' 56 8

/-- A, bits 55:48 (R90). -/
def aField (w : CmdWord) : Byte := w.extractLsb' 48 8

/-- B, bits 47:32 (R90). -/
def bField (w : CmdWord) : BitVec 16 := w.extractLsb' 32 16

/-- IMM, bits 31:0 (R90). -/
def immField (w : CmdWord) : Word32 := w.extractLsb' 0 32

/-- The command an opcode names, with the operands its format takes from the fields (R91, R92). -/
def Opcode.instr (a : Byte) (b : BitVec 16) (imm : Word32) : Opcode → Instr
  | .nop => .nop
  | .reset => .reset
  | .clrw => .clrw
  | .setw => .setw a imm
  | .build => .build
  | .assign => .assign
  | .wpre => .wpre
  | .wtab => .wtab
  | .enc => .enc
  | .push => .push b imm
  | .fin => .fin
  | .rpre => .rpre
  | .rtab => .rtab
  | .dec => .dec imm
  | .rbits => .rbits b
  | .ralign => .ralign

/-- What decoding a command word gives: a command, or the error R96 raises, with its ERRINFO. -/
inductive Decoded where
  | command (i : Instr)
  | illegalOpcode
  | illegalOperand (info : Word32)
  deriving DecidableEq, Repr

/-- `Decode(w)` of R96 after its ERR test (which Machine/Accept.lean makes), in R96's order: the opcode, the mask,
the bit count. -/
def decode (w : CmdWord) : Decoded :=
  match Opcode.ofByte (opField w) with
  | none => .illegalOpcode
  | some o =>
    if w &&& o.mask ≠ o.matchBits then .illegalOperand 0
    else if o.takesCount && !countLegal (bField w) then .illegalOperand ((bField w).setWidth 32)
    else .command (o.instr (aField w) (bField w) (immField w))

/-- The opcode of a command (R93). -/
def Instr.opcode : Instr → Opcode
  | .nop => .nop
  | .reset => .reset
  | .clrw => .clrw
  | .setw _ _ => .setw
  | .build => .build
  | .assign => .assign
  | .wpre => .wpre
  | .wtab => .wtab
  | .enc => .enc
  | .push _ _ => .push
  | .fin => .fin
  | .rpre => .rpre
  | .rtab => .rtab
  | .dec _ => .dec
  | .rbits _ => .rbits
  | .ralign => .ralign

/-- "The word's value is `OP·2^56 + A·2^48 + B·2^32 + IMM`" (R90). -/
def assembleWord (op a : Byte) (b : BitVec 16) (imm : Word32) : CmdWord := op ++ a ++ b ++ imm

/-- The word of a command: its opcode, its operands in the fields of its format, zeros elsewhere (R90, R91). -/
def encode (i : Instr) : CmdWord :=
  match i with
  | .setw s w => assembleWord i.opcode.code s 0 w
  | .push n v => assembleWord i.opcode.code 0 n v
  | .dec limit => assembleWord i.opcode.code 0 0 limit
  | .rbits n => assembleWord i.opcode.code 0 n 0
  | .nop | .reset | .clrw | .build | .assign | .wpre | .wtab | .enc | .fin | .rpre | .rtab | .ralign =>
    assembleWord i.opcode.code 0 0 0

/-- The word an opcode-table row's bits stand for: a command is one 64-bit word delivered whole (R63, R90), so the
table's bit 0 is the word's bit 0. Bits at and above `nbits` are 0. -/
def tableWord (nbits w : Nat) : CmdWord := BitVec.ofNat 64 (w % 2 ^ nbits)

/-- The command the decoder reads from a table word. -/
def decodeTableWord (nbits w : Nat) : Option Instr :=
  match decode (tableWord nbits w) with
  | .command i => some i
  | .illegalOpcode => none
  | .illegalOperand _ => none

end Sys2Proof
end

