-- ==== Sys2Proof/Machine/State.lean ====
section
/-! DEFINITION. The architectural state (10_state.md R20 to R43), the reasons a step stops, and the reset state. -/

namespace Sys2Proof.Machine

/-- `KIND` of an arena record (R23): bit 0 is Leaf, 1 is Internal. -/
inductive NodeKind where
  | leaf
  | internal
  deriving DecidableEq, Repr

/-- An arena record (R23). -/
structure Node where
  kind : NodeKind
  sym : Sym
  weight : Weight
  left : Idx
  right : Idx
  deriving DecidableEq, Repr

/-- The record reset leaves in every entry: every field 0 (R43). -/
def Node.zero : Node := { kind := .leaf, sym := 0, weight := 0, left := 0, right := 0 }

/-- What a running command does when it has pushed all the bits it is pushing. -/
inductive AfterPush where
  /-- PUSH: the command ends (R201). -/
  | stop
  /-- WTAB: go on with symbol `s` (R152). -/
  | wtab (s : Nat)
  /-- ENC: go on with the next input byte (R153). -/
  | enc
  deriving DecidableEq, Repr

/-- A running command's place in its pseudocode: the step it does next (R10). A command that holds in `InByte` or
`OutByte` is kept here until the host lets it go on (R72). -/
inductive Task where
  /-- WPRE: emit `LEN[s]` and the entries after it (R151). -/
  | wpre (s : Nat)
  /-- WTAB: push the codes of symbol `s` and those after it, then finish (R152). -/
  | wtab (s : Nat)
  /-- ENC: take the next input byte (R153). -/
  | enc
  /-- `PushBits(v, n)` with bits `v[n−1]` to `v[0]` still to push (R77). -/
  | push (v : CodeWord) (n : Nat) (after : AfterPush)
  /-- `Finish()`, then the end of the command (R78, R152, R153, R202). -/
  | finish
  /-- RPRE: read `LEN[s]` and the entries after it (R171). -/
  | rpre (s : Nat)
  /-- RTAB: read the codes of symbol `s` and those after it, then check them (R172). -/
  | rtab (s : Nat)
  /-- RTAB inside the code of symbol `s`: `n` bits still to read, `c` read so far (R172). -/
  | rtabCode (s : Sym) (n : Nat) (c : CodeWord)
  /-- DEC: the top of its loop (R173). -/
  | dec (limit : Word32)
  /-- DEC: emit the matched symbol (R173). -/
  | decEmit (limit : Word32) (sym : Sym)
  /-- RBITS: `j` of `n` bits read (R203). -/
  | rbits (n j : Nat)
  deriving DecidableEq, Repr

/-- The engine: idle (`BUSY = 0`), or executing the command with opcode `op` (`BUSY = 1`; R36). -/
inductive Engine where
  | idle
  | running (op : Byte) (t : Task)
  deriving DecidableEq, Repr

/-- The host's actions (R71). No other exists. -/
inductive HostAction where
  | issue (w : CmdWord)
  | feed (b : Byte)
  | endInput
  | reopen
  | drain
  | read (a : WinAddr)
  | powerOnReset
  deriving DecidableEq, Repr

/-- The host's side of the port: inputs to the model and what the host got, not HUFFCORE's state (R20). -/
structure HostSide where
  /-- the actions the host takes from here on, the next one first -/
  script : List HostAction
  /-- the bytes handed to the host by Drain, oldest first (R71) -/
  drained : List Byte
  /-- the words handed to the host by Read, oldest first (R71) -/
  reads : List (WinAddr × Word32)
  /-- how many free words have been drawn for reads while `BUSY = 1` (R42) -/
  draws : Nat
  deriving DecidableEq, Repr

/-- The OPEN parameters of R4. No step changes them. -/
structure Params where
  inDepth : Nat
  outDepth : Nat
  deriving DecidableEq, Repr

/-- HUFFCORE's state (R20), field by field in R20's order, then the model's own fields `params` and `host`. -/
@[ext]
structure State where
  /-- `FREQ[0..255]` (R22) -/
  freq : Vector Word32 256
  /-- `NODE[0..510]` (R23) -/
  node : Vector Node 511
  /-- `NLEAF` (R24) -/
  nleaf : Idx
  /-- `NNODES` (R24) -/
  nnodes : Idx
  /-- `ROOT` (R24) -/
  root : Idx
  /-- `PQ` (R25): a set of arena indices; its order in the list is not observable -/
  pq : List Nat
  /-- `LEN[0..255]` (R26) -/
  len : Vector Byte 256
  /-- `CODE[0..255]` (R27) -/
  code : Vector CodeWord 256
  /-- `MAXLEN` (R28) -/
  maxlen : Byte
  /-- `TREE_VALID` (R29) -/
  treeValid : Bool
  /-- `PRE_VALID` (R30) -/
  preValid : Bool
  /-- `DICT_VALID` (R31) -/
  dictValid : Bool
  /-- `WACC` (R32) -/
  wacc : Byte
  /-- `WCNT` (R32) -/
  wcnt : BitVec 4
  /-- `RBYTE` (R33) -/
  rbyte : Byte
  /-- `RMASK` (R33) -/
  rmask : Byte
  /-- `RDATA` (R33) -/
  rdata : Word32
  /-- `DCOUNT` (R34) -/
  dcount : Word32
  /-- `CLEN` (R34) -/
  clen : Byte
  /-- `CAND` (R34) -/
  cand : CodeWord
  /-- `INCNT` (R35) -/
  incnt : Word32
  /-- `OUTCNT` (R35) -/
  outcnt : Word32
  /-- `BUSY` (R36) and the running command's place -/
  engine : Engine
  /-- `ERR` (R37) -/
  err : Bool
  /-- `ERRCODE` (R37) -/
  errcode : Byte
  /-- `ERROP` (R37) -/
  errop : Byte
  /-- `ERRINFO` (R37) -/
  errinfo : Word32
  /-- the IN queue, oldest byte first (R38) -/
  inq : List Byte
  /-- `IN_EOS` (R38) -/
  ineos : Bool
  /-- the OUT queue, oldest byte first (R38) -/
  outq : List Byte
  /-- `IN_DEPTH` and `OUT_DEPTH` (R4) -/
  params : Params
  /-- the host's side of the port -/
  host : HostSide
  deriving DecidableEq, Repr

/-- `BUSY` (R36): 1 from the acceptance of a command to its end. -/
def State.busy (s : State) : Bool := s.engine ≠ .idle

/-- Why the machine stops. HUFFCORE itself never stops: its errors are states (R225) and its holds wait (R72). -/
inductive Fault where
  /-- Raised by ASSIGN alone, when `TREE_VALID = 1` but a path from `ROOT` passes through more than the 511 entries of
  the arena, so that the pseudocode of R143 would never end. No run reaches such a state (R125(b)). Safe: the model
  stops where the spec gives no end. -/
  | walkEndless
  deriving DecidableEq, Repr

/-- Why a step is refused. -/
inductive Refusal where
  /-- An instruction that has no meaning yet; raised by `exec`'s refused arms alone (there is none). Safe. -/
  | notModelled (mnemonic : String)
  /-- Raised by `step` alone: the host's next action is one R71 does not enable in this state ("the case cannot arise,
  because the host model does not allow it", I15). Safe: no run of the block contains such an action. -/
  | hostNotEnabled (a : HostAction)
  deriving DecidableEq, Repr

/-- Right after power-on reset: every piece of state at its value in R43, the queues empty, `IN_EOS = 0`, the engine
idle (R250, R252). The host's side is empty: nothing is placed. -/
def State.reset : State where
  freq := Vector.replicate 256 0
  node := Vector.replicate 511 Node.zero
  nleaf := 0
  nnodes := 0
  root := 0
  pq := []
  len := Vector.replicate 256 0
  code := Vector.replicate 256 0
  maxlen := 0
  treeValid := false
  preValid := false
  dictValid := false
  wacc := 0
  wcnt := 0
  rbyte := 0
  rmask := 0
  rdata := 0
  dcount := 0
  clen := 0
  cand := 0
  incnt := 0
  outcnt := 0
  engine := .idle
  err := false
  errcode := 0
  errop := 0
  errinfo := 0
  inq := []
  ineos := false
  outq := []
  params := { inDepth := Config.inDepth, outDepth := Config.outDepth }
  host := { script := [], drained := [], reads := [], draws := 0 }

end Sys2Proof.Machine
end

