-- ==== Sys2Proof/Machine/Operands.lean ====
section
/-! DEFINITION. Bit strings (00_scope.md R8) and the reads and writes of the arrays a command indexes by a symbol or an
arena index (20_memory.md R61). -/

namespace Sys2Proof.Machine

/-- `bits(v, n)`: `v[n−1], ..., v[0]`, the most significant bit first (R8). -/
def bits (v : Nat) : Nat → List Bool
  | 0 => []
  | n + 1 => v.testBit n :: bits v n

/-- `val(c)`: the number whose binary form, most significant bit first, is `c` (R8). -/
def val (c : List Bool) : Nat := c.foldl (fun acc b => 2 * acc + b.toNat) 0

/-- `v[n−1:0]` as a number (R7). -/
def lowBits (v n : Nat) : Nat := v % 2 ^ n

/-- `v[hi−1:lo]` as a number (R7). -/
def bitSlice (v hi lo : Nat) : Nat := lowBits (v / 2 ^ lo) (hi - lo)

/-- The symbols in ascending order: `0..255` (R9). -/
def allSyms : List Sym := (List.range 256).map (BitVec.ofNat 8)

namespace State

/-- `FREQ[s]` (R22). -/
def freqOf (s : State) (sym : Sym) : Word32 := s.freq[sym.toNat]'(sym.isLt)

/-- `FREQ[s] <- w` (R22). -/
def setFreq (s : State) (sym : Sym) (w : Word32) : State := { s with freq := s.freq.set sym.toNat w sym.isLt }

/-- `LEN[s]` (R26). -/
def lenOf (s : State) (sym : Sym) : Byte := s.len[sym.toNat]'(sym.isLt)

/-- `LEN[s] <- v` (R26). -/
def setLen (s : State) (sym : Sym) (v : Byte) : State := { s with len := s.len.set sym.toNat v sym.isLt }

/-- `CODE[s]` (R27). -/
def codeOf (s : State) (sym : Sym) : CodeWord := s.code[sym.toNat]'(sym.isLt)

/-- `CODE[s] <- v` (R27). -/
def setCode (s : State) (sym : Sym) (v : CodeWord) : State := { s with code := s.code.set sym.toNat v sym.isLt }

/-- `LEN[s] <- 0; CODE[s] <- 0` for every symbol (R141, R171). -/
def clearDict (s : State) : State := { s with len := Vector.replicate 256 0, code := Vector.replicate 256 0 }

/-- The code string of a symbol: `bits(CODE[s], LEN[s])` (R27). -/
def codeBits (s : State) (sym : Sym) : List Bool := bits (s.codeOf sym).toNat (s.lenOf sym).toNat

/-- Whether a symbol has a code: `LEN[s] > 0` (R26). -/
def coded (s : State) (sym : Sym) : Bool := s.lenOf sym ≠ 0

end State

/-- `NODE[i]` (R23). Every index a command reads is below 511 (R61). -/
def nodeAt (node : Vector Node 511) (i : Nat) : Node := (node[i]?).getD Node.zero

/-- The largest `LEN[s]` over all `s` (R28). -/
def largestLen (s : State) : Byte :=
  BitVec.ofNat 8 ((allSyms.map fun sym => (s.lenOf sym).toNat).foldl max 0)

/-- Whether one of two code strings is a prefix of the other, equal strings included (R8, R172). -/
def prefixConflict (c d : List Bool) : Bool := c.isPrefixOf d || d.isPrefixOf c

end Sys2Proof.Machine
end

