-- ==== Sys2Proof/Machine/Flags.lean ====
section
/-! DEFINITION. The error codes and their ERRINFO values (60_exceptions.md R221), and the status words the window shows
(10_state.md R40, R41). -/

namespace Sys2Proof.Machine

/-- The errors a command can raise (R221). -/
inductive ErrName where
  | illegalOpcode
  | illegalOperand
  | sequence
  | emptyInput
  | noCode
  | shortPreamble
  | emptyCodebook
  | shortTable
  | badTable
  | badPayload
  | shortPayload
  | readExhausted
  deriving DecidableEq, Repr

/-- `code(E)`: the ERRCODE column of R221. -/
def ErrName.code : ErrName → Byte
  | .illegalOpcode => 1
  | .illegalOperand => 2
  | .sequence => 3
  | .emptyInput => 4
  | .noCode => 5
  | .shortPreamble => 6
  | .emptyCodebook => 7
  | .shortTable => 8
  | .badTable => 9
  | .badPayload => 10
  | .shortPayload => 11
  | .readExhausted => 12

/-- The preconditions whose failure is SEQUENCE (R221, row 3). -/
inductive Precondition where
  | tree
  | dictionary
  | preamble
  | writerAligned
  | readerAligned
  deriving DecidableEq, Repr

/-- The ERRINFO of a failed precondition (R221, row 3). -/
def Precondition.info : Precondition → Word32
  | .tree => 1
  | .dictionary => 2
  | .preamble => 3
  | .writerAligned => 4
  | .readerAligned => 5

/-- Whether a precondition holds (R221, row 3). -/
def Precondition.holds (s : State) : Precondition → Bool
  | .tree => s.treeValid
  | .dictionary => s.dictValid
  | .preamble => s.preValid
  | .writerAligned => s.wcnt = 0
  | .readerAligned => s.rmask = 0

/-- One bit at position `k` of a window word. -/
def flagBit (b : Bool) (k : Nat) : Word32 := (BitVec.ofBool b).setWidth 32 <<< k

/-- STATUS (R41). -/
def statusWord (s : State) : Word32 :=
  flagBit s.busy 0 ||| flagBit s.err 1 ||| flagBit s.treeValid 2 ||| flagBit s.preValid 3 |||
    flagBit s.dictValid 4 ||| flagBit s.ineos 5

/-- ERRSTAT: ERRCODE in [7:0], ERROP in [15:8] (R40). -/
def errstatWord (s : State) : Word32 := s.errcode.setWidth 32 ||| s.errop.setWidth 32 <<< 8

/-- WSTATE: WACC in [7:0], WCNT in [11:8] (R40). -/
def wstateWord (s : State) : Word32 := s.wacc.setWidth 32 ||| s.wcnt.setWidth 32 <<< 8

/-- RSTATE: RBYTE in [7:0], RMASK in [15:8] (R40). -/
def rstateWord (s : State) : Word32 := s.rbyte.setWidth 32 ||| s.rmask.setWidth 32 <<< 8

end Sys2Proof.Machine
end

