-- ==== Sys2Proof/Machine/Ops.lean ====
section
/-! DEFINITION. The shared operations: the end of a command, error entry and the way out of it (60_exceptions.md R225,
R226; 40_control.md R112), and the stream primitives (20_memory.md R74 to R80). -/

namespace Sys2Proof.Machine

/-- What a meaning answers. -/
abbrev Result := Host.Outcome State Fault Refusal

namespace State

/-- The end of a command: `BUSY <- 0` (R36, R110). -/
def endCommand (s : State) : State := { s with engine := .idle }

/-- Error entry, `raise E(info)` in the command with opcode `op` (R225): the error registers are written and the command
ends. Nothing else changes and nothing is rolled back. -/
def raise (s : State) (op : Byte) (e : ErrName) (info : Word32) : State :=
  { s with err := true, errcode := e.code, errop := op, errinfo := info, engine := .idle }

/-- `raise SEQUENCE` for a failed precondition (R221). -/
def raiseSequence (s : State) (op : Byte) (p : Precondition) : State := s.raise op .sequence p.info

/-- Every state of R43 at its reset value, but the IN queue, `IN_EOS` and the OUT queue, which are unchanged (R112). It
is the way out of `ERR = 1` (R226). The parameters and the host's side are no state of the block (R20). -/
def resetInternal (s : State) : State :=
  { reset with inq := s.inq, ineos := s.ineos, outq := s.outq, params := s.params, host := s.host }

/-- Power-on reset: every piece of state at its power-on value (R43, R71, R250). -/
def powerOn (s : State) : State := { reset with params := s.params, host := s.host }

/-- The engine waits, or goes on later, at task `t` of the command with opcode `op`: `BUSY` stays 1 (R72). -/
def park (s : State) (op : Byte) (t : Task) : State := { s with engine := .running op t }

/-- Take the head of the IN queue: the second half of `InByte` (R74). -/
def takeIn (s : State) (rest : List Byte) : State := { s with inq := rest, incnt := s.incnt + 1 }

/-- Append a byte to the OUT queue: the second half of `OutByte` (R75). -/
def putOut (s : State) (v : Byte) : State := { s with outq := s.outq ++ [v], outcnt := s.outcnt + 1 }

/-- Write the writer's two registers (R32). -/
def setWriter (s : State) (acc : Byte) (cnt : BitVec 4) : State := { s with wacc := acc, wcnt := cnt }

/-- Write the reader's two registers (R33). -/
def setReader (s : State) (byte mask : Byte) : State := { s with rbyte := byte, rmask := mask }

end State

/-- What `InByte` does (R74): gives a byte, reports exhaustion with no state change, or holds. -/
inductive ByteRead where
  | byte (b : Byte) (s : State)
  | exhausted
  | hold

/-- `InByte()` (R74). -/
def State.inByte (s : State) : ByteRead :=
  match s.inq with
  | b :: rest => .byte b (s.takeIn rest)
  | [] => if s.ineos then .exhausted else .hold

/-- `OutByte(v)` (R75); `none` while it holds because the OUT queue is full. -/
def State.outByte (s : State) (v : Byte) : Option State :=
  if s.outq.length < s.params.outDepth then some (s.putOut v) else none

/-- `((WACC << 1) | b)[7:0]` (R76). -/
def shiftIn (acc : Byte) (b : Bool) : Byte := acc <<< 1 ||| (BitVec.ofBool b).setWidth 8

/-- `PushBit(b)` (R76), one step: `none` while its `OutByte` holds, with nothing written yet. -/
def State.pushBit (s : State) (b : Bool) : Option State :=
  let acc := shiftIn s.wacc b
  let cnt := s.wcnt + 1
  if cnt = 8 then (s.outByte acc).map fun t => t.setWriter 0 0
  else some (s.setWriter acc cnt)

/-- `(WACC << (8 − WCNT))[7:0]`: pending bits high, zero pad bits low (R78). -/
def paddedByte (s : State) : Byte := s.wacc <<< (8 - s.wcnt.toNat)

/-- `Finish()` (R78); `none` while its `OutByte` holds. -/
def State.finish (s : State) : Option State :=
  if s.wcnt = 0 then some s
  else (s.outByte (paddedByte s)).map fun t => t.setWriter 0 0

/-- What `NextBit` does (R79): gives a bit, reports exhaustion with nothing changed, or holds in `InByte`. -/
inductive BitRead where
  | bit (b : Bool) (s : State)
  | exhausted
  | hold

/-- The second half of `NextBit`: the bit under the mask, and the mask one place down (R79). -/
def State.readBit (s : State) : BitRead :=
  .bit (s.rbyte &&& s.rmask ≠ 0) (s.setReader s.rbyte (s.rmask >>> 1))

/-- `NextBit()` (R79): a byte is fetched only when the mask is 0. -/
def State.nextBit (s : State) : BitRead :=
  if s.rmask = 0 then
    match s.inByte with
    | .byte b t => (t.setReader b 0x80).readBit
    | .exhausted => .exhausted
    | .hold => .hold
  else s.readBit

/-- `RAlign()` (R80). -/
def State.rAlign (s : State) : State := s.setReader s.rbyte 0

/-- What one step of a running command does. -/
inductive Micro where
  /-- the command goes on at task `t` -/
  | go (t : Task) (s : State)
  /-- the command ends normally -/
  | done (s : State)
  /-- the command raises `e(info)` -/
  | raise (e : ErrName) (info : Word32) (s : State)
  /-- the step holds in `InByte` or `OutByte`, with nothing changed -/
  | hold

end Sys2Proof.Machine
end

