-- ==== Sys2Proof/Machine/Assign.lean ====
section
/-! DEFINITION. The code assigner: ASSIGN (42_code_assigner.md R141 to R143). -/

namespace Sys2Proof.Machine

/-- Record `(depth, path)` for a symbol: `LEN[s] <- d; CODE[s] <- zext_256(p)` (R143). -/
def recordCode (s : State) (sym : Sym) (d p : Nat) : State :=
  (s.setLen sym (BitVec.ofNat 8 d)).setCode sym (BitVec.ofNat 256 p)

/-- `Walk(i, d, p)` (R143), left subtree first. The first argument bounds how many nodes a path may pass through;
`none` when a path is longer. -/
def walk : Nat → Nat → Nat → Nat → State → Option State
  | 0, _, _, _, _ => none
  | steps + 1, i, d, p, s =>
    let n := nodeAt s.node i
    match n.kind with
    | .leaf => some (recordCode s n.sym d p)
    | .internal =>
      match walk steps n.left.toNat (d + 1) (2 * p) s with
      | none => none
      | some t => walk steps n.right.toNat (d + 1) (2 * p + 1) t

/-- The codes of the tree at `ROOT`: the code "1" for a one-leaf tree (R142), else the walk (R141). A path of a tree in
the arena passes through at most 511 nodes (R4). -/
def assignCodes (s : State) : Option State :=
  let n := nodeAt s.node s.root.toNat
  match n.kind with
  | .leaf => some (recordCode s n.sym 1 1)
  | .internal => walk 511 s.root.toNat 0 0 s

/-- ASSIGN (R141). -/
def execAssign (s : State) : Result :=
  if !Precondition.tree.holds s then .next (s.raiseSequence Opcode.assign.code .tree)
  else
    match assignCodes { s.clearDict with dictValid := false, preValid := false } with
    | none => .fault .walkEndless
    | some t => .next ({ t with maxlen := largestLen t, dictValid := true }.endCommand)

end Sys2Proof.Machine
end

