-- ==== Sys2Proof/Machine/ReadSteps.lean ====
section
/-! DEFINITION. The steps of the commands that take input: RPRE, RTAB, DEC (44_container_read.md), RBITS
(45_bitstream.md). -/

namespace Sys2Proof.Machine

/-- RPRE's loop body for symbol `k` (R171). -/
def stepRpre (k : Nat) (s : State) : Micro :=
  if k < 256 then
    match s.inByte with
    | .hold => .hold
    | .exhausted => .raise .shortPreamble (BitVec.ofNat 32 k) s
    | .byte b t => .go (.rpre (k + 1)) (t.setLen (BitVec.ofNat 8 k) b)
  else .done { s with preValid := true }

/-- `2·c + bit` in a 256-bit register (R172, R173). -/
def appendBit (c : CodeWord) (b : Bool) : CodeWord := c <<< 1 ||| (BitVec.ofBool b).setWidth 256

/-- Inside the code of symbol `sym`, with `n` bits still to read (R172). -/
def stepRtabCode (sym : Sym) (n : Nat) (c : CodeWord) (s : State) : Micro :=
  match n with
  | 0 => .go (.rtab (sym.toNat + 1)) (s.setCode sym c)
  | k + 1 =>
    match s.nextBit with
    | .hold => .hold
    | .exhausted => .raise .shortTable (sym.setWidth 32) s
    | .bit b t => .go (.rtabCode sym k (appendBit c b)) t

/-- The symbols that have a code, in ascending order. -/
def codedSyms (s : State) : List Sym := allSyms.filter s.coded

/-- The first pair in RTAB's loop order, among coded symbols in ascending order, whose codes are in prefix conflict
(R172). -/
def firstConflict (s : State) : List Sym → Option (Sym × Sym)
  | [] => none
  | a :: rest =>
    match rest.find? fun b => prefixConflict (s.codeBits a) (s.codeBits b) with
    | some b => some (a, b)
    | none => firstConflict s rest

/-- `ERRINFO` of BAD_TABLE: `s + 256·t` (R172). -/
def pairInfo (a b : Sym) : Word32 := BitVec.ofNat 32 (a.toNat + 256 * b.toNat)

/-- RTAB after its last code: realign, check, make the dictionary valid (R172). -/
def endRtab (s : State) : Micro :=
  let t := s.rAlign
  match firstConflict t (codedSyms t) with
  | some (a, b) => .raise .badTable (pairInfo a b) t
  | none => .done { t with maxlen := largestLen t, preValid := false, dictValid := true }

/-- RTAB's loop body for symbol `k`, then its end (R172). -/
def stepRtab (k : Nat) (s : State) : Micro :=
  if k < 256 then
    if s.coded (BitVec.ofNat 8 k) then
      .go (.rtabCode (BitVec.ofNat 8 k) (s.lenOf (BitVec.ofNat 8 k)).toNat 0) s
    else .go (.rtab (k + 1)) s
  else endRtab s

/-- Whether symbol `sym` has the candidate as its code (R174). -/
def matchesSym (s : State) (sym : Sym) : Bool :=
  s.coded sym && s.lenOf sym = s.clen &&
    lowBits (s.codeOf sym).toNat s.clen.toNat = lowBits s.cand.toNat s.clen.toNat

/-- `Match()` (R174). -/
def matchSym (s : State) : Option Sym := allSyms.find? (matchesSym s)

/-- Whether the candidate begins the longer code of symbol `sym` (R174). -/
def beginsSym (s : State) (sym : Sym) : Bool :=
  s.clen < s.lenOf sym &&
    bitSlice (s.codeOf sym).toNat (s.lenOf sym).toNat ((s.lenOf sym).toNat - s.clen.toNat) =
      lowBits s.cand.toNat s.clen.toNat

/-- `Viable()` (R174). -/
def viable (s : State) : Bool := allSyms.any (beginsSym s)

/-- `PadLike()` (R174). -/
def padLike (s : State) : Bool := s.clen.toNat ≤ 7 && s.cand = 0

/-- `CAND <- 2·CAND + bit; CLEN <- CLEN + 1` (R173). -/
def extendCand (s : State) (b : Bool) : State := { s with cand := appendBit s.cand b, clen := s.clen + 1 }

/-- DEC at exhaustion: the tail rule (R173, R175). -/
def decExhausted (limit : Word32) (s : State) : Micro :=
  if s.clen ≠ 0 && !padLike s then .raise .badPayload s.dcount s
  else if limit ≠ 0 then .raise .shortPayload s.dcount s
  else .done s

/-- DEC with the candidate just extended (R173). -/
def decCandidate (limit : Word32) (s : State) : Micro :=
  match matchSym s with
  | some sym => .go (.decEmit limit sym) s
  | none => if !viable s && !padLike s then .raise .badPayload s.dcount s else .go (.dec limit) s

/-- The top of DEC's loop (R173). -/
def stepDec (limit : Word32) (s : State) : Micro :=
  if limit ≠ 0 && s.dcount = limit then .done s
  else
    match s.nextBit with
    | .hold => .hold
    | .exhausted => decExhausted limit s
    | .bit b t => decCandidate limit (extendCand t b)

/-- DEC emits a matched symbol and resets the candidate to empty (R173). -/
def stepDecEmit (limit : Word32) (sym : Sym) (s : State) : Micro :=
  match s.outByte sym with
  | none => .hold
  | some t => .go (.dec limit) { t with dcount := t.dcount + 1, clen := 0, cand := 0 }

/-- `((RDATA << 1) | bit)[31:0]` (R203). -/
def shiftData (d : Word32) (b : Bool) : Word32 := d <<< 1 ||| (BitVec.ofBool b).setWidth 32

/-- RBITS's loop body with `j` bits read (R203). -/
def stepRbits (n j : Nat) (s : State) : Micro :=
  if j < n then
    match s.nextBit with
    | .hold => .hold
    | .exhausted => .raise .readExhausted (BitVec.ofNat 32 j) s
    | .bit b t => .go (.rbits n (j + 1)) { t with rdata := shiftData t.rdata b }
  else .done s

end Sys2Proof.Machine
end

