-- ==== Sys2Proof/Machine/WriteSteps.lean ====
section
/-! DEFINITION. The steps of the commands that emit bytes: WPRE, WTAB, ENC (43_container_write.md), PUSH, FIN
(45_bitstream.md). -/

namespace Sys2Proof.Machine

/-- WPRE's loop body for symbol `k`: `OutByte(LEN[s])` (R151). -/
def stepWpre (k : Nat) (s : State) : Micro :=
  if k < 256 then
    match s.outByte (s.lenOf (BitVec.ofNat 8 k)) with
    | none => .hold
    | some t => .go (.wpre (k + 1)) t
  else .done s

/-- `PushCode(s)` (R77): the task that pushes a symbol's code. -/
def pushCode (s : State) (sym : Sym) (after : AfterPush) : Task :=
  .push (s.codeOf sym) (s.lenOf sym).toNat after

/-- WTAB's loop body for symbol `k`, then `Finish()` (R152). -/
def stepWtab (k : Nat) (s : State) : Micro :=
  if k < 256 then
    if s.coded (BitVec.ofNat 8 k) then .go (pushCode s (BitVec.ofNat 8 k) (.wtab (k + 1))) s
    else .go (.wtab (k + 1)) s
  else .go .finish s

/-- ENC's loop body up to its `PushCode` (R153). -/
def stepEnc (s : State) : Micro :=
  match s.inByte with
  | .hold => .hold
  | .exhausted => .go .finish s
  | .byte b t =>
    if t.coded b then .go (pushCode t b .enc) t
    else .raise .noCode (b.setWidth 32) t

/-- Where a command goes on after its `PushBits`. -/
def AfterPush.next (s : State) : AfterPush → Micro
  | .stop => .done s
  | .wtab k => .go (.wtab k) s
  | .enc => .go .enc s

/-- `PushBits(v, n)` (R77): push `v[n−1]` and go on with `n − 1`. -/
def stepPush (v : CodeWord) (n : Nat) (after : AfterPush) (s : State) : Micro :=
  match n with
  | 0 => after.next s
  | k + 1 =>
    match s.pushBit (v.getLsbD k) with
    | none => .hold
    | some t => .go (.push v k after) t

/-- `Finish()` as a command's last step (R78). -/
def stepFinish (s : State) : Micro :=
  match s.finish with
  | none => .hold
  | some t => .done t

end Sys2Proof.Machine
end

