-- ==== Sys2Proof/Machine/Engine.lean ====
section
/-! DEFINITION. The engine: a running command's steps one after the other, up to its end or its first hold
(00_scope.md R10, 20_memory.md R72, R82). -/

namespace Sys2Proof.Machine

/-- One step of a running command. -/
def Task.step : Task → State → Micro
  | .wpre k, s => stepWpre k s
  | .wtab k, s => stepWtab k s
  | .enc, s => stepEnc s
  | .push v n after, s => stepPush v n after s
  | .finish, s => stepFinish s
  | .rpre k, s => stepRpre k s
  | .rtab k, s => stepRtab k s
  | .rtabCode sym n c, s => stepRtabCode sym n c s
  | .dec limit, s => stepDec limit s
  | .decEmit limit sym, s => stepDecEmit limit sym s
  | .rbits n j, s => stepRbits n j s

/-- Run a command from a task: to its end (R36), its `raise` (R225) or a hold (R72). After `turns` steps without one of
these the engine is left where it is, and `step` lets it go on. -/
def runTask (op : Byte) : Nat → Task → State → State
  | 0, t, s => s.park op t
  | turns + 1, t, s =>
    match t.step s with
    | .go t' s' => runTask op turns t' s'
    | .done s' => s'.endCommand
    | .raise e info s' => s'.raise op e info
    | .hold => s.park op t

/-- More steps than any command of the block takes before its end or a hold: at most `256 · 257` and a few for the
symbol loops, 257 for an input byte of ENC, 16 for an input byte of DEC (R262). -/
def turnsFor (s : State) : Nat := 131072 + 512 * s.inq.length

/-- Start the command with opcode `op` at a task. -/
def start (op : Opcode) (t : Task) (s : State) : State := runTask op.code (turnsFor s) t s

/-- Whether the running command can go on: it does not hold (R72). -/
def State.canAdvance (s : State) : Bool :=
  match s.engine with
  | .idle => false
  | .running _ t =>
    match t.step s with
    | .hold => false
    | .go _ _ => true
    | .done _ => true
    | .raise _ _ _ => true

/-- The running command goes on (R72). -/
def State.advance (s : State) : State :=
  match s.engine with
  | .idle => s
  | .running op t => runTask op (turnsFor s) t s

end Sys2Proof.Machine
end

