-- ==== Sys2Proof/Machine/BitStream.lean ====
section
/-! DEFINITION. The bit stream commands: PUSH, FIN, RBITS, RALIGN (45_bitstream.md R201 to R204). -/

namespace Sys2Proof.Machine

/-- PUSH (R201); a count above 32 raises ILLEGAL_OPERAND(n) (R92). -/
def execPush (n : BitVec 16) (v : Word32) (s : State) : Result :=
  if !countLegal n then .next (s.raise Opcode.push.code .illegalOperand (n.setWidth 32))
  else .next (start .push (.push (v.setWidth 256) n.toNat .stop) s)

/-- FIN (R202). -/
def execFin (s : State) : Result := .next (start .fin .finish s)

/-- RBITS (R203); a count above 32 raises ILLEGAL_OPERAND(n) (R92). -/
def execRbits (n : BitVec 16) (s : State) : Result :=
  if !countLegal n then .next (s.raise Opcode.rbits.code .illegalOperand (n.setWidth 32))
  else .next (start .rbits (.rbits n.toNat 0) { s with rdata := 0 })

/-- RALIGN (R204). -/
def execRalign (s : State) : Result := .next s.rAlign.endCommand

end Sys2Proof.Machine
end

