-- ==== Sys2Proof/Machine/Control.lean ====
section
/-! DEFINITION. NOP and RESET (40_control.md R111, R112). -/

namespace Sys2Proof.Machine

/-- NOP (R111): nothing. -/
def execNop (s : State) : Result := .next s.endCommand

/-- RESET (R112). The reset state's engine is idle, so the command has ended. -/
def execReset (s : State) : Result := .next s.resetInternal

end Sys2Proof.Machine
end

