-- ==== Sys2Proof/Machine/Read.lean ====
section
/-! DEFINITION. The container read path: RPRE, RTAB, DEC (44_container_read.md R171 to R173). -/

namespace Sys2Proof.Machine

/-- RPRE (R171). -/
def execRpre (s : State) : Result :=
  if !Precondition.readerAligned.holds s then .next (s.raiseSequence Opcode.rpre.code .readerAligned)
  else .next (start .rpre (.rpre 0) { s.clearDict with preValid := false, dictValid := false, maxlen := 0 })

/-- RTAB (R172). -/
def execRtab (s : State) : Result :=
  if !Precondition.preamble.holds s then .next (s.raiseSequence Opcode.rtab.code .preamble)
  else if allSyms.all fun sym => !s.coded sym then .next (s.raise Opcode.rtab.code .emptyCodebook 0)
  else .next (start .rtab (.rtab 0) s)

/-- DEC (R173). -/
def execDec (limit : Word32) (s : State) : Result :=
  if !Precondition.dictionary.holds s then .next (s.raiseSequence Opcode.dec.code .dictionary)
  else .next (start .dec (.dec limit) { s with dcount := 0, clen := 0, cand := 0 })

end Sys2Proof.Machine
end

