-- ==== Sys2Proof/Machine/Tree.lean ====
section
/-! DEFINITION. The Huffman tree builder: CLRW, SETW, BUILD (41_tree_builder.md R121 to R124). -/

namespace Sys2Proof.Machine

/-- CLRW (R121): every weight becomes 0. -/
def execClrw (s : State) : Result := .next ({ s with freq := Vector.replicate 256 0 }.endCommand)

/-- SETW (R122): the weight replaces the old one. -/
def execSetw (sym : Sym) (w : Word32) (s : State) : Result := .next (s.setFreq sym w).endCommand

/-- What BUILD works on: the arena, its first unused index (`k`, then `NNODES`), the priority queue (R123). -/
structure Arena where
  node : Vector Node 511
  next : Nat
  pq : List Nat
  deriving DecidableEq, Repr

/-- Append a record to the arena and put its index into the queue (R123). -/
def Arena.add (a : Arena) (n : Node) : Arena :=
  { node := a.node.setIfInBounds a.next n, next := a.next + 1, pq := a.pq ++ [a.next] }

/-- The record of a leaf (R123). -/
def leafNode (sym : Sym) (w : Word32) : Node :=
  { kind := .leaf, sym := sym, weight := w.setWidth 40, left := 0, right := 0 }

/-- The record of the internal node over `a` (LEFT) and `b` (RIGHT); its weight is their sum, in 40 bits (R123). -/
def joinNode (node : Vector Node 511) (a b : Nat) : Node :=
  { kind := .internal, sym := 0, weight := (nodeAt node a).weight + (nodeAt node b).weight,
    left := BitVec.ofNat 9 a, right := BitVec.ofNat 9 b }

/-- One leaf for a symbol that occurs, none for one that does not (R123). -/
def addLeaf (s : State) (a : Arena) (sym : Sym) : Arena :=
  if s.freqOf sym = 0 then a else a.add (leafNode sym (s.freqOf sym))

/-- The arena after BUILD's first loop: the leaves, in ascending symbol order (R123). -/
def leafArena (s : State) : Arena := allSyms.foldl (addLeaf s) { node := s.node, next := 0, pq := [] }

/-- Whether index `i` comes out of the queue before index `j`: the key `(NODE[i].WEIGHT, i)` is lexicographically
smaller (R124). -/
def lighter (node : Vector Node 511) (i j : Nat) : Bool :=
  (nodeAt node i).weight < (nodeAt node j).weight ||
    ((nodeAt node i).weight = (nodeAt node j).weight && i < j)

/-- The index with the least key among `m` and a list (R124). -/
def leastKey (node : Vector Node 511) : Nat → List Nat → Nat
  | m, [] => m
  | m, i :: rest => leastKey node (if lighter node i m then i else m) rest

/-- `PopMin()` (R124): the member with the least key, and the queue without it; `none` for an empty queue. -/
def popMin (node : Vector Node 511) : List Nat → Option (Nat × List Nat)
  | [] => none
  | i :: rest =>
    let m := leastKey node i rest
    some (m, (i :: rest).erase m)

/-- One turn of the merge loop (R123); `none` when fewer than two members are left. -/
def mergeStep (a : Arena) : Option Arena := do
  let (l, pq) ← popMin a.node a.pq
  let (r, pq) ← popMin a.node pq
  return { a with pq := pq }.add (joinNode a.node l r)

/-- The merge loop (R123). Each turn leaves one member fewer, so as many turns as there are members are enough. -/
def mergeLoop : Nat → Arena → Arena
  | 0, a => a
  | turns + 1, a =>
    match mergeStep a with
    | none => a
    | some b => mergeLoop turns b

/-- The end of BUILD: `ROOT <- PopMin()` (R123). -/
def takeRoot (s : State) (a : Arena) : State :=
  match popMin a.node a.pq with
  | none => { s with node := a.node, nnodes := BitVec.ofNat 9 a.next, pq := a.pq }
  | some (r, pq) => { s with node := a.node, nnodes := BitVec.ofNat 9 a.next, root := BitVec.ofNat 9 r, pq := pq }

/-- BUILD (R123). -/
def execBuild (s : State) : Result :=
  let a := leafArena s
  let s1 := { s with treeValid := false, node := a.node, nleaf := BitVec.ofNat 9 a.next, nnodes := BitVec.ofNat 9 a.next }
  if a.next = 0 then .next ({ s1 with root := 0, pq := [] }.raise Opcode.build.code .emptyInput 0)
  else .next ({ takeRoot s1 (mergeLoop a.pq.length a) with treeValid := true }.endCommand)

end Sys2Proof.Machine
end

