-- ==== Sys2Proof/Machine/Write.lean ====
section
/-! DEFINITION. The container write path: WPRE, WTAB, ENC (43_container_write.md R151 to R153). -/

namespace Sys2Proof.Machine

/-- WPRE (R151). -/
def execWpre (s : State) : Result :=
  if !Precondition.dictionary.holds s then .next (s.raiseSequence Opcode.wpre.code .dictionary)
  else if !Precondition.writerAligned.holds s then .next (s.raiseSequence Opcode.wpre.code .writerAligned)
  else .next (start .wpre (.wpre 0) s)

/-- WTAB (R152). -/
def execWtab (s : State) : Result :=
  if !Precondition.dictionary.holds s then .next (s.raiseSequence Opcode.wtab.code .dictionary)
  else .next (start .wtab (.wtab 0) s)

/-- ENC (R153). -/
def execEnc (s : State) : Result :=
  if !Precondition.dictionary.holds s then .next (s.raiseSequence Opcode.enc.code .dictionary)
  else .next (start .enc .enc s)

end Sys2Proof.Machine
end

