-- ==== Sys2Proof/Machine/Dispatch.lean ====
section
/-! DEFINITION. One arm per command. -/

namespace Sys2Proof.Machine

def exec (i : Instr) (s : State) : Host.Outcome State Fault Refusal :=
  match i with
  | .nop => Sys2Proof.Machine.execNop s
  | .reset => Sys2Proof.Machine.execReset s
  | .clrw => Sys2Proof.Machine.execClrw s
  | .setw sym w => Sys2Proof.Machine.execSetw sym w s
  | .build => Sys2Proof.Machine.execBuild s
  | .assign => Sys2Proof.Machine.execAssign s
  | .wpre => Sys2Proof.Machine.execWpre s
  | .wtab => Sys2Proof.Machine.execWtab s
  | .enc => Sys2Proof.Machine.execEnc s
  | .push n v => Sys2Proof.Machine.execPush n v s
  | .fin => Sys2Proof.Machine.execFin s
  | .rpre => Sys2Proof.Machine.execRpre s
  | .rtab => Sys2Proof.Machine.execRtab s
  | .dec limit => Sys2Proof.Machine.execDec limit s
  | .rbits n => Sys2Proof.Machine.execRbits n s
  | .ralign => Sys2Proof.Machine.execRalign s

end Sys2Proof.Machine
end

