-- ==== Sys2Proof/Machine/Accept.lean ====
section
/-! DEFINITION. The acceptance of a command word (30_encoding.md R96, 60_exceptions.md R222, R224). -/

namespace Sys2Proof.Machine

/-- "if ERR = 1 and op ≠ 0x01: discard w" (R96, R224). -/
def discarded (s : State) (w : CmdWord) : Bool := s.err && opField w ≠ Opcode.reset.code

/-- Accept a command word (R96): discard it, raise its decoding error, or execute its rule. -/
def accept (w : CmdWord) (s : State) : Result :=
  if discarded s w then .next s
  else
    match decode w with
    | .illegalOpcode => .next (s.raise (opField w) .illegalOpcode 0)
    | .illegalOperand info => .next (s.raise (opField w) .illegalOperand info)
    | .command i => exec i s

end Sys2Proof.Machine
end

