-- ==== Sys2Proof/Machine/Window.lean ====
section
/-! DEFINITION. The register window (10_state.md R39 to R42). -/

namespace Sys2Proof.Machine

/-- Word `k` of an arena record (R40). -/
def nodeWord (n : Node) (k : Nat) : Word32 :=
  match k with
  | 0 => flagBit (n.kind = .internal) 0 ||| n.sym.setWidth 32 <<< 8
  | 1 => n.weight.extractLsb' 0 32
  | 2 => (n.weight.extractLsb' 32 8).setWidth 32
  | 3 => n.left.setWidth 32 ||| n.right.setWidth 32 <<< 16
  | _ => 0

/-- The scalar words, 0x0000 to 0x000E (R40). -/
def scalarWord (s : State) (a : Nat) : Word32 :=
  match a with
  | 0x0000 => 0x48554646
  | 0x0001 => statusWord s
  | 0x0002 => errstatWord s
  | 0x0003 => s.errinfo
  | 0x0004 => s.nleaf.setWidth 32
  | 0x0005 => s.nnodes.setWidth 32
  | 0x0006 => s.root.setWidth 32
  | 0x0007 => s.maxlen.setWidth 32
  | 0x0008 => wstateWord s
  | 0x0009 => rstateWord s
  | 0x000A => s.rdata
  | 0x000B => s.dcount
  | 0x000C => s.clen.setWidth 32
  | 0x000D => s.incnt
  | 0x000E => s.outcnt
  | _ => 0

/-- The window word at an address while `BUSY = 0` (R40). An address the map does not name reads 0 (R39). -/
def windowWord (s : State) (addr : WinAddr) : Word32 :=
  let a := addr.toNat
  if a < 0x0100 then scalarWord s a
  else if a < 0x0200 then s.freqOf (BitVec.ofNat 8 (a - 0x0100))
  else if a < 0x0300 then (s.lenOf (BitVec.ofNat 8 (a - 0x0200))).setWidth 32
  else if a < 0x1000 then 0
  else if a < 0x17FC then nodeWord (nodeAt s.node ((a - 0x1000) / 4)) ((a - 0x1000) % 4)
  else if a < 0x2000 then 0
  else if a < 0x2800 then
    (s.codeOf (BitVec.ofNat 8 ((a - 0x2000) / 8))).extractLsb' (32 * ((a - 0x2000) % 8)) 32
  else if a < 0x3000 then 0
  else if a < 0x3008 then s.cand.extractLsb' (32 * (a - 0x3000)) 32
  else 0

/-- A read while `BUSY = 1`: a free word, but STATUS.BUSY reads 1 (R42). -/
def busyRead (s : State) (addr : WinAddr) : Word32 :=
  if addr = 0x0001 then Config.busyWord s.host.draws ||| 1 else Config.busyWord s.host.draws

/-- What `Read(a)` hands to the host (R39, R42). -/
def readWord (s : State) (addr : WinAddr) : Word32 := if s.busy then busyRead s addr else windowWord s addr

end Sys2Proof.Machine
end

