-- ==== Sys2Proof/Machine/HostPort.lean ====
section
/-! DEFINITION. The host's actions (20_memory.md R71). -/

namespace Sys2Proof.Machine

/-- The "enabled when" column of R71. -/
def HostAction.enabled (s : State) : HostAction → Bool
  | .issue _ => !s.busy
  | .feed _ => !s.ineos && s.inq.length < s.params.inDepth
  | .endInput => !s.ineos
  | .reopen => s.ineos && s.inq.isEmpty && !s.busy
  | .drain => !s.outq.isEmpty
  | .read _ => true
  | .powerOnReset => true

/-- Hand the oldest OUT byte to the host (R71). -/
def State.drainOne (s : State) : State :=
  match s.outq with
  | [] => s
  | b :: rest => { s with outq := rest, host := { s.host with drained := s.host.drained ++ [b] } }

/-- Hand a window word to the host; a read while `BUSY = 1` draws a free word (R42). -/
def State.hostRead (s : State) (a : WinAddr) : State :=
  { s with host := { s.host with
      reads := s.host.reads ++ [(a, readWord s a)]
      draws := if s.busy then s.host.draws + 1 else s.host.draws } }

/-- The "effect" column of R71. -/
def HostAction.perform (s : State) : HostAction → Result
  | .issue w => accept w s
  | .feed b => .next { s with inq := s.inq ++ [b] }
  | .endInput => .next { s with ineos := true }
  | .reopen => .next { s with ineos := false }
  | .drain => .next s.drainOne
  | .read a => .next (s.hostRead a)
  | .powerOnReset => .next s.powerOn

/-- The state once the host's next action is taken off its script. -/
def State.withScript (s : State) (script : List HostAction) : State :=
  { s with host := { s.host with script := script } }

/-- The host's turn: its next action, if R71 enables it; with no action to come everything keeps its value (R234). -/
def hostTurn (s : State) : Result :=
  match s.host.script with
  | [] => .next s
  | a :: rest => if a.enabled s then a.perform (s.withScript rest) else .refused (.hostNotEnabled a)

end Sys2Proof.Machine
end

