-- ==== Sys2Proof/Machine/Step.lean ====
section
/-! DEFINITION. One step of the block and its host (20_memory.md R70, R73). -/

namespace Sys2Proof.Machine

/-- A running command that can go on does; else the host takes its next action (R70, R73). -/
def step (s : State) : Host.Outcome State Fault Refusal :=
  if s.canAdvance then .next s.advance else hostTurn s

/-- `s` with the command word of an opcode-table row as the host's next action and the engine idle, so that the next
step accepts it (R71). -/
def State.withFetchWord (s : State) (nbits w : Nat) : State :=
  { s.endCommand with host := { s.host with script := .issue (tableWord nbits w) :: s.host.script } }

end Sys2Proof.Machine
end

