-- ==== Sys2Proof/Machine/Assembler.lean ====
section
/-! DEFINITION. The assembly text of 30_encoding.md R97 and R98: one line gives the commands it stands for. -/

namespace Sys2Proof.Machine

/-- An operand as written: a number, or the `s:w` of LOADW (R97, R98). -/
inductive AsmOperand where
  | num (n : Nat)
  | pair (s w : Nat)
  deriving DecidableEq, Repr

/-- The value of a digit. -/
def digitValue (c : Char) : Option Nat :=
  if '0' ≤ c ∧ c ≤ '9' then some (c.toNat - '0'.toNat)
  else if 'a' ≤ c ∧ c ≤ 'f' then some (c.toNat - 'a'.toNat + 10)
  else if 'A' ≤ c ∧ c ≤ 'F' then some (c.toNat - 'A'.toNat + 10)
  else none

/-- Digits of a base, the most significant first, after the value `acc`. -/
def digitsFrom (base : Nat) : Nat → List Char → Option Nat
  | acc, [] => some acc
  | acc, c :: rest =>
    match digitValue c with
    | none => none
    | some d => if d < base then digitsFrom base (base * acc + d) rest else none

/-- A non-empty digit string. -/
def parseDigits (base : Nat) : List Char → Option Nat
  | [] => none
  | c :: rest => digitsFrom base 0 (c :: rest)

/-- "A number is written in decimal, `0x` hexadecimal or `0b` binary" (R97). -/
def parseNumber : List Char → Option Nat
  | '0' :: 'x' :: rest => parseDigits 16 rest
  | '0' :: 'b' :: rest => parseDigits 2 rest
  | text => parseDigits 10 text

/-- Blanks between the parts of a line. -/
def isBlank (c : Char) : Bool := c = ' ' || c = '\t'

/-- A text without the blanks around it. -/
def trimBlanks (text : List Char) : List Char :=
  ((text.dropWhile isBlank).reverse.dropWhile isBlank).reverse

/-- The parts of a text between separators. -/
def splitAtChar (sep : Char) : List Char → List (List Char)
  | [] => [[]]
  | c :: rest =>
    if c = sep then [] :: splitAtChar sep rest
    else
      match splitAtChar sep rest with
      | [] => [[c]]
      | part :: parts => (c :: part) :: parts

/-- One operand (R97, R98). -/
def parseOperand (text : List Char) : Option AsmOperand :=
  match splitAtChar ':' text with
  | [n] => (parseNumber (trimBlanks n)).map .num
  | [s, w] => do return .pair (← parseNumber (trimBlanks s)) (← parseNumber (trimBlanks w))
  | _ => none

/-- The operands of a line: none, or a list separated by commas (R97). -/
def parseOperands (text : List Char) : Option (List AsmOperand) :=
  if text.isEmpty then some [] else (splitAtChar ',' text).mapM fun part => parseOperand (trimBlanks part)

/-- A number in the range of a field of `width` bits; out of it is an assembly error (R97). -/
def fieldOf (width n : Nat) : Option (BitVec width) := if n < 2 ^ width then some (BitVec.ofNat width n) else none

/-- One `s:w` of LOADW (R98). -/
def weightOf : AsmOperand → Option (Sym × Word32)
  | .pair s w => do return (← fieldOf 8 s, ← fieldOf 32 w)
  | .num _ => none

/-- The opcode a mnemonic of R93 names. -/
def opcodeOfName (name : List Char) : Option Opcode :=
  if name = ['N', 'O', 'P'] then some .nop
  else if name = ['R', 'E', 'S', 'E', 'T'] then some .reset
  else if name = ['C', 'L', 'R', 'W'] then some .clrw
  else if name = ['S', 'E', 'T', 'W'] then some .setw
  else if name = ['B', 'U', 'I', 'L', 'D'] then some .build
  else if name = ['A', 'S', 'S', 'I', 'G', 'N'] then some .assign
  else if name = ['W', 'P', 'R', 'E'] then some .wpre
  else if name = ['W', 'T', 'A', 'B'] then some .wtab
  else if name = ['E', 'N', 'C'] then some .enc
  else if name = ['P', 'U', 'S', 'H'] then some .push
  else if name = ['F', 'I', 'N'] then some .fin
  else if name = ['R', 'P', 'R', 'E'] then some .rpre
  else if name = ['R', 'T', 'A', 'B'] then some .rtab
  else if name = ['D', 'E', 'C'] then some .dec
  else if name = ['R', 'B', 'I', 'T', 'S'] then some .rbits
  else if name = ['R', 'A', 'L', 'I', 'G', 'N'] then some .ralign
  else none

/-- A command from its mnemonic and operands, in the operand order of its format (R97). -/
def commandOf (o : Opcode) (operands : List AsmOperand) : Option Instr :=
  match o, operands with
  | .setw, [.num s, .num w] => do return .setw (← fieldOf 8 s) (← fieldOf 32 w)
  | .push, [.num n, .num v] => do return .push (← fieldOf 16 n) (← fieldOf 32 v)
  | .dec, [.num limit] => do return .dec (← fieldOf 32 limit)
  | .rbits, [.num n] => do return .rbits (← fieldOf 16 n)
  | .setw, _ => none
  | .push, _ => none
  | .dec, _ => none
  | .rbits, _ => none
  | o, [] => some (o.instr 0 0 0)
  | _, _ => none

/-- A pseudo-instruction (R98). -/
def pseudoOf (name : List Char) (operands : List AsmOperand) : Option Pseudo :=
  if name = ['D', 'E', 'C'] ∧ operands = [] then some .dec
  else if name = ['C', 'O', 'M', 'P', 'R', 'E', 'S', 'S'] ∧ operands = [] then some .compress
  else if name = ['L', 'O', 'A', 'D', 'W'] then (operands.mapM weightOf).map .loadw
  else if name = ['D', 'E', 'C', 'O', 'M', 'P', 'R', 'E', 'S', 'S'] then
    match operands with
    | [.num limit] => (fieldOf 32 limit).map .decompress
    | _ => none
  else none

/-- The commands a line stands for: `MNEMONIC [operand {, operand}]` with an optional comment after `;` (R97), a
pseudo-instruction being its expansion (R98); `none` for an assembly error. A line with no mnemonic stands for nothing. -/
def assembleLine (line : List Char) : Option (List Instr) :=
  let text := trimBlanks (line.takeWhile (· ≠ ';'))
  let name := text.takeWhile fun c => !isBlank c
  if name.isEmpty then some []
  else do
    let operands ← parseOperands (trimBlanks (text.dropWhile fun c => !isBlank c))
    match pseudoOf name operands with
    | some p => return p.expand
    | none => return [← commandOf (← opcodeOfName name) operands]

end Sys2Proof.Machine
end

