-- ==== Sys2Proof/Safety.lean ====
section
/-! DEFINITION. The words claims are made in: bit strings and containers (43_container_write.md R150), trees
(41_tree_builder.md R125), what a stream command leaves behind, and what holds of the block between steps
(10_state.md R44). -/

namespace Sys2Proof.Machine

/-! ### Bit strings packed into bytes (R62) -/

/-- The eight bits of a byte in transmission order (R62). -/
def byteBits (b : Byte) : List Bool := bits b.toNat 8

/-- The byte a string of eight bits packs into (R62). -/
def byteOf (c : List Bool) : Byte := BitVec.ofNat 8 (val c)

/-- The complete bytes of a bit string, packed MSB first (R62). -/
def packBytes : List Bool → List Byte
  | b7 :: b6 :: b5 :: b4 :: b3 :: b2 :: b1 :: b0 :: rest => byteOf [b7, b6, b5, b4, b3, b2, b1, b0] :: packBytes rest
  | _ => []

/-- The bits of a bit string after its complete bytes. -/
def leftBits : List Bool → List Bool
  | _ :: _ :: _ :: _ :: _ :: _ :: _ :: _ :: rest => leftBits rest
  | rest => rest

/-- `zeros(k)` (R8). -/
def zeros (k : Nat) : List Bool := List.replicate k false

/-- How many pad bits end a section of `n` bits: "final byte zero-padded", none when `n` is a multiple of 8 (R150). -/
def padCount (n : Nat) : Nat := (8 - n % 8) % 8

/-- A section's bits with its pad (R150). -/
def padToByte (c : List Bool) : List Bool := c ++ zeros (padCount c.length)

/-! ### The writer and the reader -/

/-- The writer's pending bits, `bits(WACC, WCNT)`, oldest first (R32). -/
def pendingBits (s : State) : List Bool := bits s.wacc.toNat s.wcnt.toNat

/-- How many bits the reader still holds: the mask is at the next one (R33). -/
def unreadCount (s : State) : Nat := if s.rmask = 0 then 0 else s.rmask.toNat.log2 + 1

/-- The bits still to be read: the reader's, then those of the queued bytes (R62, R79). -/
def inputBits (s : State) : List Bool := bits s.rbyte.toNat (unreadCount s) ++ s.inq.flatMap byteBits

/-- Appending bytes to OUT (R75). -/
def emitBytes (s : State) (bytes : List Byte) : State :=
  { s with outq := s.outq ++ bytes, outcnt := s.outcnt + BitVec.ofNat 32 bytes.length }

/-- What pushing a bit string leaves: its complete bytes on OUT, the rest pending (R76, R77). -/
def writeBits (s : State) (c : List Bool) : State :=
  let all := pendingBits s ++ c
  { emitBytes s (packBytes all) with
    wacc := BitVec.ofNat 8 (val (leftBits all)), wcnt := BitVec.ofNat 4 (leftBits all).length }

/-- What pushing a bit string and then `Finish()` leave (R77, R78). -/
def flushBits (s : State) (c : List Bool) : State :=
  { emitBytes s (packBytes (padToByte (pendingBits s ++ c))) with wacc := 0, wcnt := 0 }

/-- Room on OUT for `k` more bytes: no `OutByte` of theirs holds (R75). -/
def roomFor (s : State) (k : Nat) : Prop := s.outq.length + k ≤ s.params.outDepth

/-- What taking `n` bytes with `InByte` leaves (R74). -/
def takeBytes (s : State) (n : Nat) : State := { s with inq := s.inq.drop n, incnt := s.incnt + BitVec.ofNat 32 n }

/-- What reading `n` bits with `NextBit` leaves: bytes are fetched only as their bits are needed (R79). -/
def afterBits (s : State) (n : Nat) : State :=
  let u := unreadCount s
  if n ≤ u then { s with rmask := s.rmask >>> n }
  else
    let f := (n - u + 7) / 8
    { takeBytes s f with rbyte := s.inq.getD (f - 1) 0, rmask := 0x80#8 >>> (n - u - 8 * (f - 1)) }

/-! ### The dictionary and the container (R150) -/

/-- The preamble (R150, R151). -/
def preambleBytes (s : State) : List Byte := allSyms.map s.lenOf

/-- The codeword table's bits (R150, R152). -/
def tableBits (s : State) : List Bool := (codedSyms s).flatMap s.codeBits

/-- The payload's bits for an input (R150, R153). -/
def payloadBits (s : State) (input : List Byte) : List Bool := input.flatMap s.codeBits

/-- The container of an input under the dictionary of `s` (R150). -/
def containerOf (s : State) (input : List Byte) : List Byte :=
  preambleBytes s ++ packBytes (padToByte (tableBits s)) ++ packBytes (padToByte (payloadBits s input))

/-- The sum of the code lengths of the symbols below `k`: where symbol `k`'s code begins in the table (R152). -/
def tableOffset (s : State) (k : Nat) : Nat := ((allSyms.take k).map fun sym => (s.lenOf sym).toNat).sum

/-- The code the table on the input holds for a symbol (R172). -/
def tableCode (s : State) (sym : Sym) : List Bool :=
  ((inputBits s).drop (tableOffset s sym.toNat)).take (s.lenOf sym).toNat

/-- No code is a prefix of another, equal codes included (R144(b), R172). -/
def PrefixFree (s : State) : Prop :=
  ∀ a b, a ≠ b → s.coded a = true → s.coded b = true → prefixConflict (s.codeBits a) (s.codeBits b) = false

/-! ### Trees (R125) -/

/-- A full binary tree over symbols. -/
inductive Tree where
  | leaf (sym : Sym)
  | node (l r : Tree)
  deriving DecidableEq, Repr

/-- The symbols of a tree's leaves, from left to right. -/
def Tree.leaves : Tree → List Sym
  | .leaf sym => [sym]
  | .node l r => l.leaves ++ r.leaves

/-- Every leaf's symbol with its path from the root, 0 for LEFT and 1 for RIGHT (R144(f)). -/
def Tree.paths : Tree → List (Sym × List Bool)
  | .leaf sym => [(sym, [])]
  | .node l r => l.paths.map (fun p => (p.1, false :: p.2)) ++ r.paths.map (fun p => (p.1, true :: p.2))

/-- The code strings ASSIGN gives a tree: the paths, and "1" for a one-leaf tree (R141, R142). -/
def Tree.codes : Tree → List (Sym × List Bool)
  | .leaf sym => [(sym, [true])]
  | .node l r => (Tree.node l r).paths

/-- The sum of a weight over the leaves of a tree (R125(c)). -/
def Tree.total (w : Sym → Nat) (t : Tree) : Nat := (t.leaves.map w).sum

/-- The arena holds the tree `t` at index `i` (R23, R125(b)). -/
inductive Spells (node : Vector Node 511) : Nat → Tree → Prop where
  | leaf (i : Nat) (h : i < 511) (k : (nodeAt node i).kind = .leaf) : Spells node i (.leaf (nodeAt node i).sym)
  | node (i : Nat) (h : i < 511) (k : (nodeAt node i).kind = .internal) (l r : Tree)
      (hl : Spells node (nodeAt node i).left.toNat l) (hr : Spells node (nodeAt node i).right.toNat r) :
      Spells node i (.node l r)

/-- The symbols that occur: those with a weight (R22). -/
def occurring (s : State) : List Sym := allSyms.filter fun sym => s.freqOf sym ≠ 0

/-! ### What holds between steps -/

/-- R44(a). -/
def WriterOk (s : State) : Prop := s.wcnt.toNat ≤ 7 ∧ s.wacc.toNat < 2 ^ s.wcnt.toNat

/-- R44(b). -/
def ReaderOk (s : State) : Prop :=
  s.rmask ∈ ([0x00, 0x01, 0x02, 0x04, 0x08, 0x10, 0x20, 0x40, 0x80] : List Byte)

/-- R44(d). -/
def CandOk (s : State) : Prop := s.cand.toNat < 2 ^ s.clen.toNat

/-- R44(e). -/
def CodesOk (s : State) : Prop := ∀ sym, (s.codeOf sym).toNat < 2 ^ (s.lenOf sym).toNat

/-- The queues hold at most their depths, which are at least 1 (R4, R38). -/
def PortsOk (s : State) : Prop :=
  1 ≤ s.params.inDepth ∧ 1 ≤ s.params.outDepth ∧ s.inq.length ≤ s.params.inDepth ∧
    s.outq.length ≤ s.params.outDepth

/-- The error registers agree (R37, R221), and no command runs while `ERR = 1` (R224). -/
def ErrorsOk (s : State) : Prop :=
  (s.err = false → s.errcode = 0 ∧ s.errop = 0 ∧ s.errinfo = 0) ∧
  (s.err = true → 1 ≤ s.errcode.toNat ∧ s.errcode.toNat ≤ 12 ∧ s.engine = .idle)

/-- With `TREE_VALID = 1` the arena holds a complete tree (R24, R29, R125). -/
def TreeOk (s : State) : Prop :=
  s.treeValid = true → ∃ t, Spells s.node s.root.toNat t ∧ t.leaves.Nodup ∧
    s.nleaf.toNat = t.leaves.length ∧ s.nnodes.toNat + 1 = 2 * s.nleaf.toNat ∧ s.root.toNat + 1 = s.nnodes.toNat

/-- With `DICT_VALID = 1` the dictionary is usable and prefix-free (R28, R31); a preamble waiting for RTAB and a
dictionary exclude each other (R30, R31). -/
def DictOk (s : State) : Prop :=
  (s.dictValid = true → s.preValid = false ∧ (∃ sym, s.coded sym = true) ∧ PrefixFree s ∧ s.maxlen = largestLen s) ∧
  (s.dictValid = false → s.maxlen = 0)

/-- What holds of a command that has been left at a task. -/
def TaskOk (s : State) : Task → Prop
  | .wpre k => s.dictValid = true ∧ k ≤ 256
  | .wtab k => s.dictValid = true ∧ k ≤ 256
  | .enc => s.dictValid = true
  | .push _ n after =>
    n ≤ 255 ∧
      match after with
      | .stop => True
      | .wtab k => s.dictValid = true ∧ k ≤ 256
      | .enc => s.dictValid = true
  | .finish => True
  | .rpre k => s.preValid = false ∧ s.dictValid = false ∧ (∀ sym, s.codeOf sym = 0) ∧ k ≤ 256
  | .rtab k => s.preValid = true ∧ (∃ sym, s.coded sym = true) ∧ k ≤ 256
  | .rtabCode sym n c =>
    s.preValid = true ∧ s.coded sym = true ∧ n ≤ (s.lenOf sym).toNat ∧ c.toNat < 2 ^ ((s.lenOf sym).toNat - n)
  | .dec _ => s.dictValid = true ∧ s.clen.toNat ≤ 254
  | .decEmit _ _ => s.dictValid = true
  | .rbits n j => n ≤ 32 ∧ j ≤ n

/-- What holds of the engine. -/
def EngineOk (s : State) : Prop :=
  match s.engine with
  | .idle => True
  | .running _ t => TaskOk s t

/-- The block's invariant: every part of R44, the ports, the errors, the tree, the dictionary, the engine. -/
structure BlockInv (s : State) : Prop where
  writer : WriterOk s
  reader : ReaderOk s
  queue : s.pq = []
  cand : CandOk s
  codes : CodesOk s
  ports : PortsOk s
  errors : ErrorsOk s
  tree : TreeOk s
  dict : DictOk s
  engine : EngineOk s

/-- Commands one after the other, each from the state the one before it left (R82). -/
def execAll : List Instr → State → Result
  | [], s => .next s
  | i :: rest, s =>
    match exec i s with
    | .next t => execAll rest t
    | .fault f => .fault f
    | .refused r => .refused r

/-! ### The words of the statements -/

/-- Every internal register at its value in R43 (R43's rows down to ERRINFO). -/
structure InternalAtReset (s : State) : Prop where
  freq : ∀ sym, s.freqOf sym = 0
  node : ∀ i, nodeAt s.node i = { kind := .leaf, sym := 0, weight := 0, left := 0, right := 0 }
  arena : s.nleaf = 0 ∧ s.nnodes = 0 ∧ s.root = 0
  pq : s.pq = []
  dictionary : ∀ sym, s.lenOf sym = 0 ∧ s.codeOf sym = 0
  maxlen : s.maxlen = 0
  flags : s.treeValid = false ∧ s.preValid = false ∧ s.dictValid = false
  writer : s.wacc = 0 ∧ s.wcnt = 0
  reader : s.rbyte = 0 ∧ s.rmask = 0
  rdata : s.rdata = 0
  decoder : s.dcount = 0 ∧ s.clen = 0 ∧ s.cand = 0
  counters : s.incnt = 0 ∧ s.outcnt = 0
  busy : s.busy = false
  errors : s.err = false ∧ s.errcode = 0 ∧ s.errop = 0 ∧ s.errinfo = 0

/-- A word with a listed opcode but a non-zero must-be-zero field raises ILLEGAL_OPERAND(0) when it is accepted and not
discarded (R95, R96). -/
def BadFieldsRaise (o : Opcode) : Prop :=
  ∀ s w, (s.err = false ∨ o = .reset) → opField w = o.code → w &&& o.mask ≠ o.matchBits →
    accept w s = .next (s.raise o.code .illegalOperand 0)

/-- `s` with the engine and the error registers of `t`: what every command may write (R45). -/
def withErrors (s t : State) : State :=
  { s with engine := t.engine, err := t.err, errcode := t.errcode, errop := t.errop, errinfo := t.errinfo }

/-- The key of a queue member: `(NODE[i].WEIGHT, i)`, lexicographic (R124). -/
def keyBefore (node : Vector Node 511) (i j : Nat) : Prop :=
  (nodeAt node i).weight.toNat < (nodeAt node j).weight.toNat ∨
    ((nodeAt node i).weight.toNat = (nodeAt node j).weight.toNat ∧ i < j)

/-- Index `j` is a child of the internal node `i` (R23). -/
def isChild (node : Vector Node 511) (i j : Nat) : Prop :=
  (nodeAt node i).kind = .internal ∧ ((nodeAt node i).left.toNat = j ∨ (nodeAt node i).right.toNat = j)

/-- `LEN` after RPRE has taken the first `n` bytes of IN: those bytes, then zeros (R171). -/
def lengthsRead (s : State) (n : Nat) : Vector Byte 256 := Vector.ofFn fun i => (s.inq.take n).getD i.val 0

/-- The state RPRE works in: the first `n` bytes of IN taken into `LEN`, no codes, no valid dictionary (R171). -/
def preambleTaken (s : State) (n : Nat) : State :=
  { takeBytes s n with
    len := lengthsRead s n, code := Vector.replicate 256 0, maxlen := 0, preValid := false, dictValid := false }

/-- `CODE` after RTAB has read the codes of the symbols below `k` from the input (R172). -/
def codesRead (s : State) (k : Nat) : Vector CodeWord 256 :=
  Vector.ofFn fun i =>
    let sym : Sym := BitVec.ofNat 8 i.val
    if i.val < k ∧ s.coded sym = true then BitVec.ofNat 256 (val (tableCode s sym)) else s.codeOf sym

/-- The codes RTAB reads for two symbols are in prefix conflict (R172). -/
def tableConflict (s : State) (a b : Sym) : Prop :=
  s.coded a = true ∧ s.coded b = true ∧ prefixConflict (tableCode s a) (tableCode s b) = true

/-- The state RTAB has made when all codes are read and the reader is realigned (R172). -/
def tableRead (s : State) : State :=
  { afterBits s (tableOffset s 256) with code := codesRead s 256, rmask := 0 }

/-- No code begins the bit string `c`. -/
def noCodeBegins (s : State) (c : List Bool) : Prop :=
  ∀ sym, s.coded sym = true → (s.codeBits sym).isPrefixOf c = false

/-- Some longer code begins with the bit string `c` (R174). -/
def someCodeExtends (s : State) (c : List Bool) : Prop :=
  ∃ sym, s.coded sym = true ∧ c.length < (s.codeBits sym).length ∧ c.isPrefixOf (s.codeBits sym) = true

/-- A bit string that could be the writer's zero pad (R174, R175). -/
def couldBePad (c : List Bool) : Prop := c.length ≤ 7 ∧ c = zeros c.length

/-- What DEC has done after decoding the symbols `xs` and keeping the candidate `c` (R173). -/
def decoded (s : State) (xs : List Sym) (c : List Bool) : State :=
  { afterBits (emitBytes s xs) ((payloadBits s xs).length + c.length) with
    dcount := BitVec.ofNat 32 xs.length, clen := BitVec.ofNat 8 c.length, cand := BitVec.ofNat 256 (val c) }

/-- The input splits into the codes of `xs`, the candidate `c` and what DEC does not read (R173). -/
def inputSplits (s : State) (xs : List Sym) (c rest : List Bool) : Prop :=
  (∀ x ∈ xs, s.coded x = true) ∧ inputBits s = payloadBits s xs ++ c ++ rest

/-- Two states that differ only in their depths and in how many of the emitted bytes the host has drained (R73). -/
def sameButPorts (s s' : State) : Prop :=
  s' = { s with outq := s'.outq, params := s'.params, host := s'.host } ∧
    s.host.drained ++ s.outq = s'.host.drained ++ s'.outq

/-- `s` with what the rest of a command left at task `t` may write taken from `u`: the command's row of R45, with R75's
`OUTCNT` and R74's `INCNT`. Of RPRE's row `CODE`, `MAXLEN` and `DICT_VALID` are not there: it writes them before its first
byte (R171). -/
def restWrites (t : Task) (s u : State) : State :=
  let writer := { s with wacc := u.wacc, wcnt := u.wcnt, outq := u.outq, outcnt := u.outcnt }
  match t with
  | .wpre _ => { s with outq := u.outq, outcnt := u.outcnt }
  | .wtab _ | .finish | .push _ _ .stop | .push _ _ (.wtab _) => writer
  | .enc | .push _ _ .enc => { writer with inq := u.inq, incnt := u.incnt }
  | .rpre _ => { s with len := u.len, preValid := u.preValid, inq := u.inq, incnt := u.incnt }
  | .rtab _ | .rtabCode _ _ _ =>
    { s with
      code := u.code, maxlen := u.maxlen, rbyte := u.rbyte, rmask := u.rmask, preValid := u.preValid,
      dictValid := u.dictValid, inq := u.inq, incnt := u.incnt }
  | .dec _ | .decEmit _ _ =>
    { s with
      dcount := u.dcount, clen := u.clen, cand := u.cand, rbyte := u.rbyte, rmask := u.rmask, outq := u.outq,
      outcnt := u.outcnt, inq := u.inq, incnt := u.incnt }
  | .rbits _ _ => { s with rdata := u.rdata, rbyte := u.rbyte, rmask := u.rmask, inq := u.inq, incnt := u.incnt }

/-- The indices BUILD's `PopMin` calls returned, in their order: LEFT and RIGHT of each internal node, as it was made, then
`ROOT` (R123). -/
def popOrder (t : State) : List Nat :=
  (List.range' t.nleaf.toNat (t.nnodes.toNat - t.nleaf.toNat)).flatMap
    (fun i => [(nodeAt t.node i).left.toNat, (nodeAt t.node i).right.toNat]) ++ [t.root.toNat]

/-- `s'` is `s` with `more` bytes fed behind its input and its own end-of-input flag, but for how the emitted bytes are
shared between OUT and the host, the depths and the host's side (R73). -/
def fedWith (s : State) (more : List Byte) (s' : State) : Prop :=
  sameButPorts { s with inq := s.inq ++ more, ineos := s'.ineos } s'

/-- The bits a list of PUSH operands pushes (R77, R201). -/
def pushedBits (pushes : List (BitVec 16 × Word32)) : List Bool := pushes.flatMap fun p => bits p.2.toNat p.1.toNat

/-- The sum of a list of bit counts. -/
def countSum (counts : List (BitVec 16)) : Nat := (counts.map BitVec.toNat).sum

/-- Two steps that do the same, unless one of them holds (R73). -/
def microAgrees : Micro → Micro → Prop
  | .hold, _ => True
  | _, .hold => True
  | .go t s, .go t' s' => t = t' ∧ sameButPorts s s'
  | .done s, .done s' => sameButPorts s s'
  | .raise e i s, .raise e' i' s' => e = e' ∧ i = i' ∧ sameButPorts s s'
  | .go _ _, _ => False
  | .done _, _ => False
  | .raise _ _ _, _ => False

/-- Right before COMPRESS on the input `input`: the weights are its counts and the whole input is queued (R154, R253). -/
structure ReadyToCompress (s : State) (input : List Byte) : Prop where
  idle : s.engine = .idle
  someInput : input ≠ []
  counted : ∀ b, (s.freqOf b).toNat = input.count b
  aligned : s.wcnt = 0 ∧ s.wacc = 0
  queued : s.inq = input
  ended : s.ineos = true

/-- Right before DECOMPRESS on the bytes `bytes` (R176, R254). -/
structure ReadyToDecompress (s : State) (bytes : List Byte) : Prop where
  idle : s.engine = .idle
  aligned : s.rmask = 0
  queued : s.inq = bytes
  ended : s.ineos = true

end Sys2Proof.Machine
end

