-- ==== Sys2Proof/Certificates/Slice0/Obligations.lean ====
section
/-! DEFINITION. The statements for the provers. Each docstring names the rules of spec/ it comes from; a clause that rests
on a choice of the model says so and names the log entry. -/

open Sys2Proof Sys2Proof.Machine

/-! ### Encoding (30_encoding.md) -/

/-- R90, R91, R94: decoding the word of any well-formed command, with every operand at every value its field admits, gives
the command back. -/
def Obligations.DecodeOfEncode : Prop :=
  ∀ i : Instr, i.wellFormed = true → decode (encode i) = .command i

/-- R90, R94: a word that decodes to a command is that command's word, and the command is well formed. -/
def Obligations.EncodeOfDecode : Prop :=
  ∀ (w : CmdWord) (i : Instr), decode w = .command i → i.wellFormed = true ∧ encode i = w

/-- R95, R96: the reserved opcodes are the four ranges of R95 and decode to ILLEGAL_OPCODE; a listed opcode whose word
fails its mask decodes to ILLEGAL_OPERAND(0); one that passes it with a count above 32 decodes to ILLEGAL_OPERAND(B); every
other word decodes to a command with its opcode. -/
def Obligations.IllegalWordsByName : Prop :=
  ∀ w : CmdWord,
    ((∀ o : Opcode, opField w ≠ o.code) ↔
      ((0x02 ≤ opField w ∧ opField w ≤ 0x0F) ∨ (0x14 ≤ opField w ∧ opField w ≤ 0x1F) ∨
        (0x25 ≤ opField w ∧ opField w ≤ 0x2F) ∨ 0x35 ≤ opField w)) ∧
    ((∀ o : Opcode, opField w ≠ o.code) → decode w = .illegalOpcode) ∧
    ∀ o : Opcode, opField w = o.code →
      (w &&& o.mask ≠ o.matchBits → decode w = .illegalOperand 0) ∧
      (w &&& o.mask = o.matchBits → o.takesCount = true → 32 < (bField w).toNat →
        decode w = .illegalOperand ((bField w).setWidth 32)) ∧
      (w &&& o.mask = o.matchBits → (o.takesCount = true → (bField w).toNat ≤ 32) →
        ∃ i, decode w = .command i ∧ i.opcode = o)

/-- R99: its eight examples, in both directions. -/
def Obligations.ExampleWordsDecode : Prop :=
  encode (.setw 0x41 5) = 0x1141000000000005 ∧ encode (.push 3 0b101) = 0x2300000300000005 ∧
  encode (.rbits 4) = 0x3300000400000000 ∧ encode (.dec 11) = 0x320000000000000B ∧
  encode .build = 0x1200000000000000 ∧
  decode 0x1141000000000005 = .command (.setw 0x41 5) ∧
  decode 0x2300000300000005 = .command (.push 3 0b101) ∧
  decode 0x3300000400000000 = .command (.rbits 4) ∧
  decode 0x320000000000000B = .command (.dec 11) ∧
  decode 0x1200000000000000 = .command .build ∧
  decode 0x0500000000000000 = .illegalOpcode ∧
  decode 0x1200000000000001 = .illegalOperand 0 ∧
  decode 0x2300002100000000 = .illegalOperand 33 ∧
  ∀ s : State, s.err = false →
    accept 0x0500000000000000 s = .next (s.raise 0x05 .illegalOpcode 0) ∧
    accept 0x1200000000000001 s = .next (s.raise 0x12 .illegalOperand 0) ∧
    accept 0x2300002100000000 s = .next (s.raise 0x23 .illegalOperand 33)

/-! ### Reset (10_state.md R43, 70_reset_and_hazards.md) -/

/-- R43, R250: after power-on reset and after the RESET command every register is at its value in R43; power-on empties
the queues and clears `IN_EOS`, RESET leaves all three unchanged. -/
def Obligations.ResetValues : Prop :=
  (InternalAtReset State.reset ∧ State.reset.inq = [] ∧ State.reset.outq = [] ∧ State.reset.ineos = false) ∧
  (∀ s : State, InternalAtReset s.powerOn ∧ s.powerOn.inq = [] ∧ s.powerOn.outq = [] ∧ s.powerOn.ineos = false) ∧
  ∀ s : State, ∃ t, exec .reset s = .next t ∧
    InternalAtReset t ∧ t.inq = s.inq ∧ t.outq = s.outq ∧ t.ineos = s.ineos

/-- R112, R251: RESET gives the state of power-on reset but for the IN queue, `IN_EOS` and the OUT queue; it alone is
accepted while `ERR = 1`; a RESET word with a non-zero field raises ILLEGAL_OPERAND, with `ERR = 1` too; no word is issued
while `BUSY = 1`, and of the host's actions only power-on reset, always enabled, ends a held command. That the parameters
and the host's side are kept is the model's (log 10). -/
def Obligations.ResetCommand : Prop :=
  encode .reset = 0x0100000000000000 ∧
  (∀ s, exec .reset s = .next { s.powerOn with inq := s.inq, ineos := s.ineos, outq := s.outq }) ∧
  (∀ s, accept (encode .reset) s = exec .reset s) ∧
  BadFieldsRaise .reset ∧
  (∀ s w, s.err = true → opField w ≠ 0x01 → accept w s = .next s) ∧
  (∀ s w, s.busy = true → HostAction.enabled s (.issue w) = false) ∧
  (∀ (s t : State) (a : HostAction), s.busy = true → a.enabled s = true → a.perform s = .next t → t.busy = false →
    a = .powerOnReset) ∧
  (∀ s, HostAction.enabled s .powerOnReset = true ∧ HostAction.perform s .powerOnReset = .next s.powerOn ∧
    s.powerOn.busy = false) ∧
  ∀ s t, exec .reset s = .next t → t.err = false ∧ t.treeValid = false ∧ t.preValid = false ∧ t.dictValid = false ∧
    (∀ sym, t.freqOf sym = 0) ∧ statusWord t = if s.ineos then 0x20 else 0x00

/-! ### Errors and the acceptance of words (60_exceptions.md, 30_encoding.md R96) -/

/-- R224: while `ERR = 1`, every accepted word but one with OP 0x01 is discarded: no state changes, nothing is raised, the
command has ended. In a step that is R71's Issue; that the issued word stands at the head of the host's script and leaves
it is the model's (log 1). -/
def Obligations.DiscardedWhileErr : Prop :=
  (∀ s w, s.err = true → opField w ≠ 0x01 → accept w s = .next s) ∧
  ∀ s w rest, s.engine = .idle → s.err = true → opField w ≠ 0x01 → s.host.script = .issue w :: rest →
    step s = .next (s.withScript rest)

/-- R96, R222 items 1 to 3, R225: a word that is not discarded and does not decode raises its error; the error registers
are written, the engine is idle, nothing else changes. -/
def Obligations.DecodeErrorsRaise : Prop :=
  ∀ s w, discarded s w = false →
    (decode w = .illegalOpcode →
      accept w s = .next { s with err := true, errcode := 1, errop := opField w, errinfo := 0, engine := .idle }) ∧
    ∀ info, decode w = .illegalOperand info →
      accept w s = .next { s with err := true, errcode := 2, errop := opField w, errinfo := info, engine := .idle }

/-- R96, R71: a step whose host issues a word that decodes, to an idle block that does not discard it, is `exec` of the
command at the state with that action taken off the host's script; the word stored by `withFetchWord` is issued so.
That the host's actions stand in a script is the model's (log 1). -/
def Obligations.StepRunsDecoded : Prop :=
  (∀ s w rest i, s.engine = .idle → s.host.script = .issue w :: rest → discarded s w = false →
    decode w = .command i → step s = exec i (s.withScript rest)) ∧
  ∀ (s : State) (i : Instr), s.engine = .idle → s.err = false → i.wellFormed = true →
    step (s.withFetchWord 64 (encode i).toNat) = exec i s

/-- R221 row 3, R222 item 4, R225: a command whose precondition fails raises SEQUENCE with that precondition's ERRINFO and
writes nothing else; WPRE asks for the dictionary before the writer's alignment. -/
def Obligations.SequenceErrors : Prop :=
  ∀ s, s.engine = .idle →
    (s.treeValid = false → exec .assign s = .next (s.raise 0x13 .sequence 1)) ∧
    (s.dictValid = false → exec .wpre s = .next (s.raise 0x20 .sequence 2) ∧
      exec .wtab s = .next (s.raise 0x21 .sequence 2) ∧ exec .enc s = .next (s.raise 0x22 .sequence 2) ∧
      ∀ limit, exec (.dec limit) s = .next (s.raise 0x32 .sequence 2)) ∧
    (s.preValid = false → exec .rtab s = .next (s.raise 0x31 .sequence 3)) ∧
    (s.dictValid = true → s.wcnt ≠ 0 → exec .wpre s = .next (s.raise 0x20 .sequence 4)) ∧
    (s.rmask ≠ 0 → exec .rpre s = .next (s.raise 0x30 .sequence 5))

/-- R226: the only ways out of `ERR = 1` are a well-formed RESET and power-on reset, and both put every internal register
at its reset value; a discarded command cannot raise; a RESET word with a non-zero field raises ILLEGAL_OPERAND again. That
the host's next action is the head of a script is the model's (log 1). -/
def Obligations.ErrIsSticky : Prop :=
  (∀ s t, s.err = true → step s = .next t → t.err = false →
    InternalAtReset t ∧
      ∃ rest, s.host.script = .issue 0x0100000000000000 :: rest ∨ s.host.script = .powerOnReset :: rest) ∧
  (∀ s w, s.err = true → opField w ≠ 0x01 → accept w s = .next s) ∧
  ∀ s w, s.err = true → opField w = 0x01 → w ≠ 0x0100000000000000 →
    accept w s = .next { s with errcode := 2, errop := 0x01, errinfo := 0, engine := .idle }

/-- R220, R225: an error is a next state with the error registers written, so no command is refused and none but ASSIGN
faults. That ASSIGN faults, on an arena with an endless path from `ROOT` and `TREE_VALID = 1`, is the model's (log 7). A step
is refused exactly when the engine waits and the host's next action is not enabled by R71: I15 and D27 say that this cannot
arise; that it is a refusal by name, of the head of a script, is the model's (log 9, log 1). -/
def Obligations.StopsAreTheHosts : Prop :=
  (∀ i s r, exec i s ≠ .refused r) ∧
  (∀ i s f, exec i s = .fault f → i = .assign) ∧
  ∀ s r, step s = .refused r ↔
    s.canAdvance = false ∧ ∃ a rest, s.host.script = a :: rest ∧ a.enabled s = false ∧ r = .hostNotEnabled a

/-! ### The host (20_memory.md R70 to R73) -/

/-- R71: each action's condition and effect. Issue's effect is `accept`. That the drained bytes and the read words are
appended to records in State is the model's (log 11), and so is that power-on reset keeps these, the script and the depths
(log 10). -/
def Obligations.HostActionTable : Prop :=
  ∀ s : State,
    (∀ w, (HostAction.enabled s (.issue w) = true ↔ s.busy = false) ∧
      HostAction.perform s (.issue w) = accept w s) ∧
    (∀ b, (HostAction.enabled s (.feed b) = true ↔ s.ineos = false ∧ s.inq.length < s.params.inDepth) ∧
      HostAction.perform s (.feed b) = .next { s with inq := s.inq ++ [b] }) ∧
    ((HostAction.enabled s .endInput = true ↔ s.ineos = false) ∧
      HostAction.perform s .endInput = .next { s with ineos := true }) ∧
    ((HostAction.enabled s .reopen = true ↔ s.ineos = true ∧ s.inq = [] ∧ s.busy = false) ∧
      HostAction.perform s .reopen = .next { s with ineos := false }) ∧
    ((HostAction.enabled s .drain = true ↔ s.outq ≠ []) ∧
      ∀ b rest, s.outq = b :: rest → HostAction.perform s .drain =
        .next { s with outq := rest, host := { s.host with drained := s.host.drained ++ [b] } }) ∧
    (∀ a, HostAction.enabled s (.read a) = true ∧ ∃ draws, HostAction.perform s (.read a) =
      .next { s with host := { s.host with reads := s.host.reads ++ [(a, readWord s a)], draws := draws } }) ∧
    HostAction.enabled s .powerOnReset = true ∧ HostAction.perform s .powerOnReset = .next s.powerOn

/-- R72, R234: with no host action to come, an idle block and a held command keep all their state. R71: an enabled action
of a waiting block's host is taken; that it is the head of a script and leaves it is the model's (log 1). -/
def Obligations.WaitingKeepsState : Prop :=
  (∀ s, s.canAdvance = false → s.host.script = [] → step s = .next s) ∧
  (∀ s : State, s.engine = .idle → s.canAdvance = false) ∧
  ∀ s a rest, s.canAdvance = false → s.host.script = a :: rest → a.enabled s = true →
    step s = a.perform (s.withScript rest)

/-- R10, R72: a command accepted by an idle block runs to its end or to a hold, whatever its operands and the state (the
bound of log 16 is never what stops it). -/
def Obligations.CommandRunsToEndOrHold : Prop :=
  (∀ i s t, s.engine = .idle → exec i s = .next t → t.canAdvance = false) ∧
  ∀ s, EngineOk s → s.advance.canAdvance = false

/-- R73: the host's timing and the depths change when a command holds, never what it does. Step by step: two states that
differ only in the depths and in what the host has drained do the same step, unless one of them holds. For a whole command,
any of the sixteen: left at a hold (R72) and gone on after the host has fed bytes, ended the input or drained (R71), it ends
as if all the input had been there and the room on OUT sufficient when it was accepted. The last clause says the same of a
command left at a later hold. (A held command is kept in `engine`, log 4.) -/
def Obligations.HostTimingOnlyHolds : Prop :=
  (∀ (t : Task) (s s' : State), sameButPorts s s' → microAgrees (t.step s) (t.step s')) ∧
  (∀ i s t u s' t' more, s.engine = .idle → (s.ineos = true → more = [] ∧ s'.ineos = true) →
    fedWith s more s' → exec i s = .next t → t.busy = true → fedWith t more u → u.ineos = s'.ineos →
    exec i s' = .next t' → t'.busy = false → u.advance.busy = false → sameButPorts u.advance t') ∧
  ∀ (s u s' : State) more, s.busy = true → (s.ineos = true → more = [] ∧ s'.ineos = true) →
    fedWith s more s' → s.advance.busy = true → fedWith s.advance more u → u.ineos = s'.ineos →
    s'.advance.busy = false → u.advance.busy = false → sameButPorts u.advance s'.advance

/-! ### The register window (10_state.md R39 to R42) -/

/-- R40, R41: the window while `BUSY = 0`, field by field, and 0 at the addresses the map does not name. -/
def Obligations.WindowMap : Prop :=
  ∀ s : State, s.busy = false →
    (readWord s 0x0000 = 0x48554646) ∧
    ((readWord s 0x0001).toNat = 2 * s.err.toNat + 4 * s.treeValid.toNat + 8 * s.preValid.toNat +
      16 * s.dictValid.toNat + 32 * s.ineos.toNat) ∧
    ((readWord s 0x0002).toNat = s.errcode.toNat + 256 * s.errop.toNat) ∧
    (readWord s 0x0003 = s.errinfo) ∧
    ((readWord s 0x0004).toNat = s.nleaf.toNat ∧ (readWord s 0x0005).toNat = s.nnodes.toNat ∧
      (readWord s 0x0006).toNat = s.root.toNat ∧ (readWord s 0x0007).toNat = s.maxlen.toNat) ∧
    ((readWord s 0x0008).toNat = s.wacc.toNat + 256 * s.wcnt.toNat) ∧
    ((readWord s 0x0009).toNat = s.rbyte.toNat + 256 * s.rmask.toNat) ∧
    (readWord s 0x000A = s.rdata ∧ readWord s 0x000B = s.dcount ∧ (readWord s 0x000C).toNat = s.clen.toNat ∧
      readWord s 0x000D = s.incnt ∧ readWord s 0x000E = s.outcnt) ∧
    (∀ sym : Sym, readWord s (BitVec.ofNat 14 (0x0100 + sym.toNat)) = s.freqOf sym ∧
      (readWord s (BitVec.ofNat 14 (0x0200 + sym.toNat))).toNat = (s.lenOf sym).toNat) ∧
    (∀ i, i < 511 →
      (readWord s (BitVec.ofNat 14 (0x1000 + 4 * i))).toNat =
        (if (nodeAt s.node i).kind = .internal then 1 else 0) + 256 * (nodeAt s.node i).sym.toNat ∧
      (readWord s (BitVec.ofNat 14 (0x1000 + 4 * i + 1))).toNat = (nodeAt s.node i).weight.toNat % 2 ^ 32 ∧
      (readWord s (BitVec.ofNat 14 (0x1000 + 4 * i + 2))).toNat = (nodeAt s.node i).weight.toNat / 2 ^ 32 ∧
      (readWord s (BitVec.ofNat 14 (0x1000 + 4 * i + 3))).toNat =
        (nodeAt s.node i).left.toNat + 65536 * (nodeAt s.node i).right.toNat) ∧
    (∀ (sym : Sym) k, k < 8 → (readWord s (BitVec.ofNat 14 (0x2000 + 8 * sym.toNat + k))).toNat =
      (s.codeOf sym).toNat / 2 ^ (32 * k) % 2 ^ 32) ∧
    (∀ k, k < 8 → (readWord s (BitVec.ofNat 14 (0x3000 + k))).toNat = s.cand.toNat / 2 ^ (32 * k) % 2 ^ 32) ∧
    ∀ a : WinAddr, (0x000F ≤ a.toNat ∧ a.toNat ≤ 0x00FF) ∨ (0x0300 ≤ a.toNat ∧ a.toNat ≤ 0x0FFF) ∨
      (0x17FC ≤ a.toNat ∧ a.toNat ≤ 0x1FFF) ∨ (0x2800 ≤ a.toNat ∧ a.toNat ≤ 0x2FFF) ∨ 0x3008 ≤ a.toNat →
      readWord s a = 0

/-- R42: a read while `BUSY = 1`, which is enabled, gives STATUS.BUSY as 1, and every other bit is the free word of this
read (log 6). Each such read draws its own word, and no read changes the block. -/
def Obligations.BusyReadsAreFree : Prop :=
  ∀ s : State, s.busy = true →
    (∀ a, HostAction.enabled s (.read a) = true ∧ (s.hostRead a).engine = s.engine ∧
      s.hostRead a = { s with host := (s.hostRead a).host }) ∧
    (readWord s 0x0001).getLsbD 0 = true ∧
    (∀ k, 1 ≤ k → (readWord s 0x0001).getLsbD k = (Config.busyWord s.host.draws).getLsbD k) ∧
    (∀ a, a ≠ 0x0001 → readWord s a = Config.busyWord s.host.draws) ∧
    ∀ a, (s.hostRead a).host.draws = s.host.draws + 1

/-! ### The frames (10_state.md R45) -/

/-- R45, rows NOP to ASSIGN: whatever path the command takes, it writes only its row's state, the engine and the error
registers. -/
def Obligations.FramesOfTreeAndCode : Prop :=
  ∀ s t,
    (exec .nop s = .next t → t = withErrors s t) ∧
    (exec .clrw s = .next t → t = withErrors { s with freq := t.freq } t) ∧
    (∀ sym w, exec (.setw sym w) s = .next t → t = withErrors { s with freq := t.freq } t ∧
      ∀ other, other ≠ sym → t.freqOf other = s.freqOf other) ∧
    (exec .build s = .next t → t = withErrors { s with
      node := t.node, nleaf := t.nleaf, nnodes := t.nnodes, root := t.root, pq := t.pq, treeValid := t.treeValid } t) ∧
    (exec .assign s = .next t → t = withErrors { s with
      len := t.len, code := t.code, maxlen := t.maxlen, dictValid := t.dictValid, preValid := t.preValid } t)

/-- R45, rows WPRE, WTAB, ENC, PUSH, FIN, with R75's OUTCNT and R74's INCNT. -/
def Obligations.FramesOfWriters : Prop :=
  ∀ s t,
    (exec .wpre s = .next t → t = withErrors { s with outq := t.outq, outcnt := t.outcnt } t) ∧
    (exec .wtab s = .next t →
      t = withErrors { s with wacc := t.wacc, wcnt := t.wcnt, outq := t.outq, outcnt := t.outcnt } t) ∧
    (exec .enc s = .next t → t = withErrors { s with
      wacc := t.wacc, wcnt := t.wcnt, outq := t.outq, outcnt := t.outcnt, inq := t.inq, incnt := t.incnt } t) ∧
    (∀ n v, exec (.push n v) s = .next t →
      t = withErrors { s with wacc := t.wacc, wcnt := t.wcnt, outq := t.outq, outcnt := t.outcnt } t) ∧
    (exec .fin s = .next t →
      t = withErrors { s with wacc := t.wacc, wcnt := t.wcnt, outq := t.outq, outcnt := t.outcnt } t)

/-- R45, rows RPRE, RTAB, DEC, RBITS, RALIGN, with R75's OUTCNT and R74's INCNT. -/
def Obligations.FramesOfReaders : Prop :=
  ∀ s t,
    (exec .rpre s = .next t → t = withErrors { s with
      len := t.len, code := t.code, maxlen := t.maxlen, preValid := t.preValid, dictValid := t.dictValid,
      inq := t.inq, incnt := t.incnt } t) ∧
    (exec .rtab s = .next t → t = withErrors { s with
      code := t.code, maxlen := t.maxlen, rbyte := t.rbyte, rmask := t.rmask, preValid := t.preValid,
      dictValid := t.dictValid, inq := t.inq, incnt := t.incnt } t) ∧
    (∀ limit, exec (.dec limit) s = .next t → t = withErrors { s with
      dcount := t.dcount, clen := t.clen, cand := t.cand, rbyte := t.rbyte, rmask := t.rmask,
      outq := t.outq, outcnt := t.outcnt, inq := t.inq, incnt := t.incnt } t) ∧
    (∀ n, exec (.rbits n) s = .next t → t = withErrors { s with
      rdata := t.rdata, rbyte := t.rbyte, rmask := t.rmask, inq := t.inq, incnt := t.incnt } t) ∧
    (exec .ralign s = .next t → t = withErrors { s with rmask := t.rmask } t)

/-- R35, R66: every command but RESET takes bytes off the front of IN and puts bytes on the end of OUT, and the two
counters count exactly these. -/
def Obligations.StreamsMoveForward : Prop :=
  ∀ i s t, i ≠ .reset → exec i s = .next t →
    ∃ taken emitted, s.inq = taken ++ t.inq ∧ t.outq = s.outq ++ emitted ∧
      t.incnt = s.incnt + BitVec.ofNat 32 taken.length ∧ t.outcnt = s.outcnt + BitVec.ofNat 32 emitted.length

/-- R45, R70, R72: a command that goes on after a hold writes only what is left of its own row of R45, the engine and the
error registers; an idle engine does not step. -/
def Obligations.AdvanceFrame : Prop :=
  (∀ (s : State) op t, s.engine = .running op t → s.advance = withErrors (restWrites t s s.advance) s.advance) ∧
  ∀ s : State, s.engine = .idle → s.advance = s

/-! ### Control and the weights (40_control.md, 41_tree_builder.md) -/

/-- R111: NOP changes nothing; its word is all zeros, any other word with OP 0x00 raises ILLEGAL_OPERAND(0), and while
`ERR = 1` its word, discarded, has no effect either. -/
def Obligations.NopDoesNothing : Prop :=
  encode .nop = 0x0000000000000000 ∧
  (∀ s, s.engine = .idle → exec .nop s = .next s ∧ accept (encode .nop) s = .next s) ∧
  BadFieldsRaise .nop

/-- R121: CLRW makes every weight 0 and writes nothing else, so it leaves `TREE_VALID`; a word with a non-zero field
raises. -/
def Obligations.ClrwClears : Prop :=
  encode .clrw = 0x1000000000000000 ∧
  (∀ s, s.engine = .idle → ∃ t, exec .clrw s = .next t ∧ (∀ sym, t.freqOf sym = 0) ∧ t = { s with freq := t.freq }) ∧
  (∀ s, s.engine = .idle → (∀ sym, s.freqOf sym = 0) → exec .clrw s = .next s) ∧
  BadFieldsRaise .clrw

/-- R122: SETW replaces one weight, at every symbol and every weight, and writes nothing else; a second SETW of the symbol
overwrites the first; a non-zero B raises. -/
def Obligations.SetwSets : Prop :=
  (∀ s sym w, s.engine = .idle → ∃ t, exec (.setw sym w) s = .next t ∧ t.freqOf sym = w ∧
    (∀ other, other ≠ sym → t.freqOf other = s.freqOf other) ∧ t = { s with freq := t.freq }) ∧
  (∀ s sym w w', s.engine = .idle → execAll [.setw sym w, .setw sym w'] s = exec (.setw sym w') s) ∧
  decode 0x1141000000000005 = .command (.setw 0x41 5) ∧
  Opcode.setw.matchBits = 0x1100000000000000 ∧ Opcode.setw.mask = 0xFF00FFFF00000000 ∧
  BadFieldsRaise .setw

/-! ### BUILD (41_tree_builder.md R123 to R125) -/

/-- R123: with every weight 0, BUILD raises EMPTY_INPUT(0) and leaves no tree. -/
def Obligations.BuildEmptyInput : Prop :=
  ∀ s, s.engine = .idle → (∀ sym, s.freqOf sym = 0) →
    exec .build s = .next ({ s with treeValid := false, pq := [], nleaf := 0, nnodes := 0, root := 0 }.raise
      0x12 .emptyInput 0)

/-- R124: `PopMin` on a non-empty set takes the member with the least key and leaves the others. -/
def Obligations.PopMinTakesLeast : Prop :=
  ∀ node pq, pq ≠ [] → pq.Nodup → ∃ m rest, popMin node pq = some (m, rest) ∧ pq.Perm (m :: rest) ∧
    ∀ j ∈ rest, keyBefore node m j

/-- R123, R125(a), R125(b), R24: with a weight that is not 0, BUILD completes; the arena holds one full binary tree at
`ROOT` whose leaves are exactly the symbols that occur, each once; `NLEAF`, `NNODES = 2·NLEAF − 1`, `ROOT = NNODES − 1`;
`TREE_VALID` is set, `PQ` empty, and nothing but R45's row is written. -/
def Obligations.BuildMakesTheTree : Prop :=
  ∀ s, s.engine = .idle → (∃ sym, s.freqOf sym ≠ 0) →
    ∃ t tree, exec .build s = .next t ∧ Spells t.node t.root.toNat tree ∧ tree.leaves.Perm (occurring s) ∧
      t.nleaf.toNat = (occurring s).length ∧ t.nnodes.toNat + 1 = 2 * t.nleaf.toNat ∧
      t.root.toNat + 1 = t.nnodes.toNat ∧
      t = { s with node := t.node, nleaf := t.nleaf, nnodes := t.nnodes, root := t.root, pq := [], treeValid := true }

/-- R123, R124, R125(a), R125(b), R23: after BUILD the leaves stand at the indices from 0 in ascending symbol order, each
with its weight; every later entry below `NNODES` is an internal node over two earlier ones, with their summed weight;
every entry below `NNODES` but the root is the child of exactly one internal node; the entries from `NNODES` on keep what
they held. -/
def Obligations.BuildLaysOutTheArena : Prop :=
  ∀ s t, s.engine = .idle → exec .build s = .next t → t.treeValid = true →
    (∀ k (h : k < (occurring s).length), nodeAt t.node k =
      { kind := .leaf, sym := (occurring s)[k], weight := (s.freqOf (occurring s)[k]).setWidth 40, left := 0, right := 0 }) ∧
    (∀ i, t.nleaf.toNat ≤ i → i < t.nnodes.toNat →
      (nodeAt t.node i).kind = .internal ∧ (nodeAt t.node i).sym = 0 ∧
      (nodeAt t.node i).left.toNat < i ∧ (nodeAt t.node i).right.toNat < i ∧
      (nodeAt t.node i).left ≠ (nodeAt t.node i).right ∧
      (nodeAt t.node i).weight.toNat = (nodeAt t.node (nodeAt t.node i).left.toNat).weight.toNat +
        (nodeAt t.node (nodeAt t.node i).right.toNat).weight.toNat) ∧
    (∀ j, j < t.nnodes.toNat → j ≠ t.root.toNat → ∃ i, i < t.nnodes.toNat ∧ isChild t.node i j ∧
      ∀ i', i' < t.nnodes.toNat → isChild t.node i' j → i' = i) ∧
    ∀ i, t.nnodes.toNat ≤ i → nodeAt t.node i = nodeAt s.node i

/-- R123, R124: the merge loop joins the two lightest. For every internal node, LEFT comes before every other node then in
the queue (an earlier index that is no child of an earlier internal node), and RIGHT before every one but LEFT. -/
def Obligations.BuildMergesTheLightest : Prop :=
  ∀ s t, s.engine = .idle → exec .build s = .next t → t.treeValid = true →
    ∀ i, t.nleaf.toNat ≤ i → i < t.nnodes.toNat →
    ∀ j, j < i → (∀ i', t.nleaf.toNat ≤ i' → i' < i → ¬ isChild t.node i' j) →
      (j ≠ (nodeAt t.node i).left.toNat → keyBefore t.node (nodeAt t.node i).left.toNat j) ∧
      (j ≠ (nodeAt t.node i).left.toNat → j ≠ (nodeAt t.node i).right.toNat →
        keyBefore t.node (nodeAt t.node i).right.toNat j)

/-- R125(c), R125(d): the weight of every node is the sum of the weights of the leaves below it (so the 40-bit sums never
overflow); the weights of the internal nodes are non-decreasing in index order, and so are those of the nodes `PopMin`
returned, in the order it returned them. -/
def Obligations.BuildWeights : Prop :=
  ∀ s t, s.engine = .idle → exec .build s = .next t → t.treeValid = true →
    (∀ i tree, i < t.nnodes.toNat → Spells t.node i tree →
      (nodeAt t.node i).weight.toNat = tree.total fun sym => (s.freqOf sym).toNat) ∧
    ((nodeAt t.node t.root.toNat).weight.toNat = (allSyms.map fun sym => (s.freqOf sym).toNat).sum) ∧
    (∀ i j, t.nleaf.toNat ≤ i → i ≤ j → j < t.nnodes.toNat →
      (nodeAt t.node i).weight.toNat ≤ (nodeAt t.node j).weight.toNat) ∧
    (popOrder t).Pairwise fun a b => (nodeAt t.node a).weight.toNat ≤ (nodeAt t.node b).weight.toNat

/-- R125(e): the tree is a function of `FREQ` alone. -/
def Obligations.BuildDependsOnFreqOnly : Prop :=
  ∀ s s' t t', s.freq = s'.freq → exec .build s = .next t → exec .build s' = .next t' →
    t.nleaf = t'.nleaf ∧ t.nnodes = t'.nnodes ∧ t.root = t'.root ∧ t.treeValid = t'.treeValid ∧
      ∀ i, i < t.nnodes.toNat → nodeAt t.node i = nodeAt t'.node i

/-! ### ASSIGN (42_code_assigner.md R141 to R144) -/

/-- R141, R142, R143, R144(f): on a tree, ASSIGN completes; the code string of each leaf's symbol is its path, 0 for LEFT
and 1 for RIGHT, and "1" for a one-leaf tree; every other symbol has length 0 and code 0; `MAXLEN` is the largest length,
`DICT_VALID` set, `PRE_VALID` clear; nothing else is written. -/
def Obligations.AssignWritesThePaths : Prop :=
  ∀ s tree, s.engine = .idle → s.treeValid = true → Spells s.node s.root.toNat tree → tree.leaves.Nodup →
    ∃ t, exec .assign s = .next t ∧
      (∀ p ∈ tree.codes, t.codeBits p.1 = p.2) ∧
      (∀ sym, sym ∉ tree.leaves → t.lenOf sym = 0 ∧ t.codeOf sym = 0) ∧
      CodesOk t ∧ t.maxlen = largestLen t ∧ (∀ sym, (t.lenOf sym).toNat ≤ t.maxlen.toNat) ∧
      t = { s with len := t.len, code := t.code, maxlen := t.maxlen, dictValid := true, preValid := false }

/-- R144(a) to (d): after BUILD and ASSIGN exactly the symbols that occur have a code, no code is a prefix of another, the
Kraft sum is 1 (1/2 for one leaf), and every length is at most `NLEAF − 1` (1 for one leaf). -/
def Obligations.DictionaryOfTheTree : Prop :=
  ∀ s, s.engine = .idle → (∃ sym, s.freqOf sym ≠ 0) →
    ∃ t, execAll [.build, .assign] s = .next t ∧
      (∀ sym, t.coded sym = true ↔ s.freqOf sym ≠ 0) ∧ PrefixFree t ∧
      (((codedSyms t).map fun sym => 2 ^ (255 - (t.lenOf sym).toNat)).sum =
        if t.nleaf = 1 then 2 ^ 254 else 2 ^ 255) ∧
      ∀ sym, t.coded sym = true →
        (t.nleaf = 1 → t.lenOf sym = 1) ∧ (2 ≤ t.nleaf.toNat → (t.lenOf sym).toNat + 1 ≤ t.nleaf.toNat)

/-- R144(e): after BUILD and ASSIGN, of two symbols that occur the strictly lighter one has a code at least as long. -/
def Obligations.LighterIsAtLeastAsDeep : Prop :=
  ∀ s t, s.engine = .idle → execAll [.build, .assign] s = .next t →
    ∀ a b, s.freqOf a ≠ 0 → (s.freqOf a).toNat < (s.freqOf b).toNat → (t.lenOf b).toNat ≤ (t.lenOf a).toNat

/-! ### The writers (43_container_write.md, 45_bitstream.md) -/

/-- R151: with a dictionary, the writer on a byte boundary and room on OUT, WPRE emits `LEN[0]` to `LEN[255]` and nothing
else changes; without a dictionary it raises SEQUENCE(2), with pending bits SEQUENCE(4), and nothing is emitted; a word with
a non-zero field raises. -/
def Obligations.WpreEmitsThePreamble : Prop :=
  encode .wpre = 0x2000000000000000 ∧
  (∀ s, s.engine = .idle → s.dictValid = true → s.wcnt = 0 → roomFor s 256 →
    exec .wpre s = .next (emitBytes s (preambleBytes s)) ∧ (preambleBytes s).length = 256) ∧
  (∀ s, s.dictValid = false → exec .wpre s = .next (s.raise 0x20 .sequence 2)) ∧
  (∀ s, s.dictValid = true → s.wcnt ≠ 0 → exec .wpre s = .next (s.raise 0x20 .sequence 4)) ∧
  BadFieldsRaise .wpre

/-- R75, R72, R234: WPRE with room for only `r` of its 256 bytes emits `r` bytes and holds with `BUSY = 1`; left at its
`k`-th byte with room for the rest, it goes on to emit exactly the rest and ends. -/
def Obligations.WpreHoldsAndGoesOn : Prop :=
  (∀ s r, s.engine = .idle → s.dictValid = true → s.wcnt = 0 → s.outq.length + r = s.params.outDepth → r < 256 →
    exec .wpre s = .next ((emitBytes s ((preambleBytes s).take r)).park 0x20 (.wpre r))) ∧
  ∀ s k, s.engine = .running 0x20 (.wpre k) → k ≤ 256 → roomFor s (256 - k) →
    s.advance = { emitBytes s ((preambleBytes s).drop k) with engine := .idle }

/-- R152, R77, R78: with a dictionary and room on OUT, WTAB emits the pending bits, the codes of the coded symbols in
ascending order and the zero pad, packed MSB first, and leaves the writer empty; nothing else changes. The table has
`T = Σ LEN[s]` bits, and from an empty writer it takes `⌈T/8⌉` bytes. Without a dictionary WTAB raises SEQUENCE(2). -/
def Obligations.WtabEmitsTheTable : Prop :=
  encode .wtab = 0x2100000000000000 ∧
  (∀ s, s.engine = .idle → s.dictValid = true → WriterOk s →
    roomFor s ((s.wcnt.toNat + (tableBits s).length + 7) / 8) →
    exec .wtab s = .next (flushBits s (tableBits s)) ∧
    (s.wcnt = 0 → (flushBits s (tableBits s)).outq.length = s.outq.length + ((tableBits s).length + 7) / 8)) ∧
  (∀ s, (tableBits s).length = (allSyms.map fun sym => (s.lenOf sym).toNat).sum) ∧
  (∀ s, s.dictValid = false → exec .wtab s = .next (s.raise 0x21 .sequence 2)) ∧
  BadFieldsRaise .wtab

/-- R153: with a dictionary, every queued byte coded, end of input signalled and room on OUT, ENC takes all of IN and
emits the pending bits, the codes of the bytes in stream order and the zero pad; nothing else changes. -/
def Obligations.EncEmitsThePayload : Prop :=
  ∀ s, s.engine = .idle → s.dictValid = true → WriterOk s → s.ineos = true → (∀ b ∈ s.inq, s.coded b = true) →
    roomFor s ((s.wcnt.toNat + (payloadBits s s.inq).length + 7) / 8) →
    exec .enc s = .next { flushBits s (payloadBits s s.inq) with
      inq := [], incnt := s.incnt + BitVec.ofNat 32 s.inq.length }

/-- R153: at the first byte with no code ENC raises NO_CODE with that byte; the byte is taken, the bits before it are
pushed and not finished. -/
def Obligations.EncNoCode : Prop :=
  ∀ s good b rest, s.engine = .idle → s.dictValid = true → WriterOk s → s.inq = good ++ b :: rest →
    (∀ x ∈ good, s.coded x = true) → s.coded b = false →
    roomFor s ((s.wcnt.toNat + (payloadBits s good).length) / 8) →
    exec .enc s = .next
      ((takeBytes (writeBits s (payloadBits s good)) (good.length + 1)).raise 0x22 .noCode (b.setWidth 32))

/-- R201, R76, R77: PUSH of a legal count pushes `v[n−1]` to `v[0]` behind the pending bits: complete bytes go to OUT, the
rest stay pending, nothing else changes; it emits `(c + n) / 8` bytes and leaves `WCNT = (c + n) mod 8`. R72, R75: with room
for only `r` of these bytes it emits `r` and holds at the bit that completes the next; the bits before that one are pushed
and the rest are kept, and with room it goes on to push exactly these. That the bit it holds at is not yet in `WACC` and
`WCNT` is the model's (log 5). R92: a word with a count above 32 raises ILLEGAL_OPERAND(n), and a non-zero A
ILLEGAL_OPERAND(0); that `exec` of such a count, which decoding never gives, raises the same is the model's (log 12). -/
def Obligations.PushWrites : Prop :=
  (∀ s n v, s.engine = .idle → WriterOk s → n.toNat ≤ 32 → roomFor s ((s.wcnt.toNat + n.toNat) / 8) →
    exec (.push n v) s = .next (writeBits s (bits v.toNat n.toNat)) ∧
    (writeBits s (bits v.toNat n.toNat)).outq.length = s.outq.length + (s.wcnt.toNat + n.toNat) / 8 ∧
    (writeBits s (bits v.toNat n.toNat)).wcnt.toNat = (s.wcnt.toNat + n.toNat) % 8) ∧
  (∀ s n v r, s.engine = .idle → WriterOk s → n.toNat ≤ 32 → s.outq.length + r = s.params.outDepth →
    r < (s.wcnt.toNat + n.toNat) / 8 →
    exec (.push n v) s = .next ((writeBits s ((bits v.toNat n.toNat).take (8 * r + 7 - s.wcnt.toNat))).park 0x23
      (.push (v.setWidth 256) (n.toNat - (8 * r + 7 - s.wcnt.toNat)) .stop))) ∧
  (∀ (s : State) w k, s.engine = .running 0x23 (.push w k .stop) → WriterOk s → k ≤ 32 →
    roomFor s ((s.wcnt.toNat + k) / 8) → s.advance = { writeBits s (bits w.toNat k) with engine := .idle }) ∧
  (∀ s n v, s.engine = .idle → 32 < n.toNat →
    exec (.push n v) s = .next (s.raise 0x23 .illegalOperand (n.setWidth 32))) ∧
  (∀ s w, s.err = false → opField w = 0x23 → aField w = 0 → 32 < (bField w).toNat →
    accept w s = .next (s.raise 0x23 .illegalOperand ((bField w).setWidth 32))) ∧
  Opcode.push.matchBits = 0x2300000000000000 ∧ Opcode.push.mask = 0xFFFF000000000000 ∧
  BadFieldsRaise .push

/-- R202, R78: with room for its byte, FIN emits the pending bits with a zero pad and empties the writer; with no pending
bit it emits nothing. -/
def Obligations.FinFlushes : Prop :=
  encode .fin = 0x2400000000000000 ∧
  (∀ s, s.engine = .idle → WriterOk s → roomFor s 1 → exec .fin s = .next (flushBits s [])) ∧
  (∀ s, s.engine = .idle → s.wcnt = 0 → exec .fin s = .next s) ∧
  (∀ s, s.engine = .idle → WriterOk s → s.wcnt ≠ 0 → roomFor s 1 →
    exec .fin s = .next { s with
      outq := s.outq ++ [byteOf (pendingBits s ++ zeros (8 - s.wcnt.toNat))], outcnt := s.outcnt + 1,
      wacc := 0, wcnt := 0 }) ∧
  BadFieldsRaise .fin

/-- R62, R76, R79: bits are packed most significant first in both directions. Of the bits pushed from a byte boundary, bit
`8·j + m` is bit `7 − m` of the `j`-th byte put on OUT. `NextBit` returns bit 7 of a byte it fetches, and bit `7 − m` of the
byte it holds when `m` bits of it are read; so from a byte boundary the bit read `8·j + m`-th is bit `7 − m` of the `j`-th
byte taken from IN, and no later byte has been taken. -/
def Obligations.BitsArePackedMsbFirst : Prop :=
  (∀ (s : State) (pushes : List (BitVec 16 × Word32)), s.engine = .idle → s.wcnt = 0 → s.wacc = 0 →
    (∀ p ∈ pushes, p.1.toNat ≤ 32) → roomFor s (countSum (pushes.map Prod.fst) / 8) →
    ∃ t bytes, execAll (pushes.map fun p => .push p.1 p.2) s = .next t ∧ t.outq = s.outq ++ bytes ∧
      bytes.length = countSum (pushes.map Prod.fst) / 8 ∧
      ∀ j m, j < bytes.length → m < 8 →
        (bytes.getD j 0).getLsbD (7 - m) = (pushedBits pushes).getD (8 * j + m) false) ∧
  (∀ (s : State) b rest, s.rmask = 0 → s.inq = b :: rest →
    s.nextBit = .bit (b.getLsbD 7) { s.takeIn rest with rbyte := b, rmask := 0x40 }) ∧
  (∀ (s : State) m, m < 8 → s.rmask = 0x80#8 >>> m →
    s.nextBit = .bit (s.rbyte.getLsbD (7 - m)) { s with rmask := s.rmask >>> 1 }) ∧
  ∀ (u : State) j m, u.engine = .idle → u.rmask = 0 → j < u.inq.length → m < 8 →
    ∃ v, execAll (List.replicate (8 * j + m + 1) (.rbits 1)) u = .next v ∧
      v.rdata = (if (u.inq.getD j 0).getLsbD (7 - m) then 1 else 0) ∧ v.inq = u.inq.drop (j + 1)

/-! ### The readers (44_container_read.md, 45_bitstream.md) -/

/-- R171: with the reader on a byte boundary, RPRE takes the first 256 bytes of IN as the lengths, clears every code and
makes the preamble valid; with fewer bytes and end of input it raises SHORT_PREAMBLE with their number; with fewer bytes
and no end of input it holds (R74). With a bit of a byte unread it raises SEQUENCE(5) before any write. -/
def Obligations.RpreReadsThePreamble : Prop :=
  encode .rpre = 0x3000000000000000 ∧ BadFieldsRaise .rpre ∧
  (∀ s, s.rmask ≠ 0 → exec .rpre s = .next (s.raise 0x30 .sequence 5)) ∧
  ∀ s, s.engine = .idle → s.rmask = 0 →
    (256 ≤ s.inq.length → exec .rpre s = .next { preambleTaken s 256 with preValid := true }) ∧
    (s.inq.length < 256 → s.ineos = true → exec .rpre s = .next
      ((preambleTaken s s.inq.length).raise 0x30 .shortPreamble (BitVec.ofNat 32 s.inq.length))) ∧
    (s.inq.length < 256 → s.ineos = false → exec .rpre s = .next
      ((preambleTaken s s.inq.length).park 0x30 (.rpre s.inq.length)))

/-- R172: with a preamble, at least one code, the whole table on the input and no prefix conflict in it, RTAB reads each
code in symbol order, first bit highest, realigns the reader, and makes the dictionary valid with its `MAXLEN`. -/
def Obligations.RtabReadsTheTable : Prop :=
  ∀ s, s.engine = .idle → s.preValid = true → ReaderOk s → (∃ sym, s.coded sym = true) →
    tableOffset s 256 ≤ (inputBits s).length → (∀ a b, a ≠ b → ¬ tableConflict s a b) →
    exec .rtab s = .next { tableRead s with maxlen := largestLen s, preValid := false, dictValid := true }

/-- R172: RTAB's data errors. No code at all is EMPTY_CODEBOOK with nothing read; the input ending inside the code of
symbol `k` is SHORT_TABLE(k), the codes below it written; a table with a prefix conflict is BAD_TABLE of its first pair. -/
def Obligations.RtabErrors : Prop :=
  ∀ s, s.engine = .idle → s.preValid = true →
    ((∀ sym, s.coded sym = false) → exec .rtab s = .next (s.raise 0x31 .emptyCodebook 0)) ∧
    (∀ k, ReaderOk s → s.ineos = true → k < 256 → tableOffset s k ≤ (inputBits s).length →
      (inputBits s).length < tableOffset s (k + 1) →
      exec .rtab s = .next ({ afterBits s (inputBits s).length with code := codesRead s k }.raise
        0x31 .shortTable (BitVec.ofNat 32 k))) ∧
    ∀ a b : Sym, ReaderOk s → tableOffset s 256 ≤ (inputBits s).length → a.toNat < b.toNat → tableConflict s a b →
      (∀ a' b', a'.toNat < b'.toNat → tableConflict s a' b' →
        a.toNat < a'.toNat ∨ (a = a' ∧ b.toNat ≤ b'.toNat)) →
      exec .rtab s = .next ((tableRead s).raise 0x31 .badTable (BitVec.ofNat 32 (a.toNat + 256 * b.toNat)))

/-- R173, R174: with a usable dictionary, `DEC limit` on the codes of `limit` symbols emits exactly these symbols, reads no
bit after them, and ends with `DCOUNT = limit` and an empty candidate. -/
def Obligations.DecStopsAtItsLimit : Prop :=
  ∀ s limit xs rest, s.engine = .idle → s.dictValid = true → CodesOk s → PrefixFree s → ReaderOk s →
    limit ≠ 0 → xs.length = limit.toNat → inputSplits s xs [] rest → roomFor s xs.length →
    exec (.dec limit) s = .next (decoded s xs [])

/-- R173, R175(a), R175(d): `DEC 0` at exhaustion, with a tail of at most 7 zero bits that completes no code, emits the
symbols before the tail and discards it, the candidate keeping it. -/
def Obligations.DecDiscardsThePad : Prop :=
  ∀ s xs k, s.engine = .idle → s.dictValid = true → CodesOk s → PrefixFree s → ReaderOk s → s.ineos = true →
    inputSplits s xs (zeros k) [] → k ≤ 7 → noCodeBegins s (zeros k) → roomFor s xs.length →
    exec (.dec 0) s = .next (decoded s xs (zeros k))

/-- R173, R175(b), R175(c), R222: DEC's errors, after the symbols `xs` (fewer than a non-zero limit): a candidate that no
code continues and no pad explains is BAD_PAYLOAD at once; an incomplete tail at exhaustion that is not pad-like is
BAD_PAYLOAD; a pad-like tail at exhaustion under a limit is SHORT_PAYLOAD. What was decoded stays on OUT. -/
def Obligations.DecErrors : Prop :=
  ∀ s limit xs c rest, s.engine = .idle → s.dictValid = true → CodesOk s → PrefixFree s → ReaderOk s →
    (limit ≠ 0 → xs.length < limit.toNat) → inputSplits s xs c rest → noCodeBegins s c → roomFor s xs.length →
    (∀ k, k < c.length → k ≠ 0 → someCodeExtends s (c.take k) ∨ couldBePad (c.take k)) →
    (c ≠ [] → ¬ someCodeExtends s c → ¬ couldBePad c →
      exec (.dec limit) s = .next ((decoded s xs c).raise 0x32 .badPayload (BitVec.ofNat 32 xs.length))) ∧
    (rest = [] → s.ineos = true → someCodeExtends s c → ¬ couldBePad c →
      exec (.dec limit) s = .next ((decoded s xs c).raise 0x32 .badPayload (BitVec.ofNat 32 xs.length))) ∧
    (rest = [] → s.ineos = true → limit ≠ 0 → couldBePad c →
      exec (.dec limit) s = .next ((decoded s xs c).raise 0x32 .shortPayload (BitVec.ofNat 32 xs.length)))

/-- R203, R79: RBITS of a legal count with enough input reads `n` bits into `RDATA`, first bit highest, fetching bytes only
as they are needed; with too little input and end of input it raises READ_EXHAUSTED with the number read, `RDATA` holding
them. R72, R74: with too little input and no end of input it holds with the bits read so far in `RDATA`; when the host has
fed or ended the input it goes on with the bits still missing, to its end, to READ_EXHAUSTED with the number read in all,
or to a further hold. R92: a word with a count above 32 raises ILLEGAL_OPERAND(n); that `exec` of such a count, which
decoding never gives, raises the same is the model's (log 12). -/
def Obligations.RbitsReads : Prop :=
  (∀ s n, s.engine = .idle → ReaderOk s → n.toNat ≤ 32 →
    (n.toNat ≤ (inputBits s).length → exec (.rbits n) s = .next { afterBits s n.toNat with
      rdata := BitVec.ofNat 32 (val ((inputBits s).take n.toNat)) }) ∧
    ((inputBits s).length < n.toNat → s.ineos = true → exec (.rbits n) s = .next
      ({ afterBits s (inputBits s).length with rdata := BitVec.ofNat 32 (val (inputBits s)) }.raise
        0x33 .readExhausted (BitVec.ofNat 32 (inputBits s).length))) ∧
    ((inputBits s).length < n.toNat → s.ineos = false → exec (.rbits n) s = .next
      ({ afterBits s (inputBits s).length with rdata := BitVec.ofNat 32 (val (inputBits s)) }.park
        0x33 (.rbits n.toNat (inputBits s).length)))) ∧
  (∀ (s : State) n j, s.engine = .running 0x33 (.rbits n j) → ReaderOk s → j ≤ n → n ≤ 32 →
    (n - j ≤ (inputBits s).length → s.advance = { afterBits s (n - j) with
      rdata := BitVec.ofNat 32 (s.rdata.toNat * 2 ^ (n - j) + val ((inputBits s).take (n - j))), engine := .idle }) ∧
    ((inputBits s).length < n - j → s.ineos = true → s.advance =
      { afterBits s (inputBits s).length with
        rdata := BitVec.ofNat 32 (s.rdata.toNat * 2 ^ (inputBits s).length + val (inputBits s)) }.raise
        0x33 .readExhausted (BitVec.ofNat 32 (j + (inputBits s).length))) ∧
    ((inputBits s).length < n - j → s.ineos = false → s.advance =
      { afterBits s (inputBits s).length with
        rdata := BitVec.ofNat 32 (s.rdata.toNat * 2 ^ (inputBits s).length + val (inputBits s)) }.park
        0x33 (.rbits n (j + (inputBits s).length)))) ∧
  (∀ s w, s.err = false → opField w = 0x33 → w &&& Opcode.rbits.mask = Opcode.rbits.matchBits →
    32 < (bField w).toNat → accept w s = .next (s.raise 0x33 .illegalOperand ((bField w).setWidth 32))) ∧
  (∀ s n, s.engine = .idle → 32 < n.toNat →
    exec (.rbits n) s = .next (s.raise 0x33 .illegalOperand (n.setWidth 32))) ∧
  Opcode.rbits.matchBits = 0x3300000000000000 ∧ Opcode.rbits.mask = 0xFFFF0000FFFFFFFF ∧
  BadFieldsRaise .rbits

/-- R204, R80: RALIGN clears `RMASK` and writes nothing else, so with `RMASK = 0` it does nothing and it takes no byte. -/
def Obligations.RalignDrops : Prop :=
  encode .ralign = 0x3400000000000000 ∧
  (∀ s, s.engine = .idle → exec .ralign s = .next { s with rmask := 0 }) ∧
  BadFieldsRaise .ralign

/-! ### The container, whole (R154, R176, R205) -/

/-- R154: on an input whose byte counts are the weights, COMPRESS emits exactly the container of the input under the
dictionary it leaves, of length `256 + ⌈T/8⌉ + ⌈P/8⌉` with `P = Σ FREQ[s]·LEN[s]`, and raises nothing. -/
def Obligations.CompressEmitsTheContainer : Prop :=
  ∀ s input, ReadyToCompress s input → roomFor s (256 + 8160 + 32 * input.length) →
    ∃ t, execAll Pseudo.compress.expand s = .next t ∧ t.outq = s.outq ++ containerOf t input ∧ t.err = s.err ∧
      t.inq = [] ∧ t.wcnt = 0 ∧
      (containerOf t input).length = 256 + ((tableBits t).length + 7) / 8 +
        ((allSyms.map fun sym => (s.freqOf sym).toNat * (t.lenOf sym).toNat).sum + 7) / 8

/-- R176(a), and R154's last paragraph: the container of any non-empty input of fewer than 2^32 coded bytes, under any
dictionary with a prefix-free code for each of them, is decompressed with its symbol count to exactly the input, and
nothing is raised. -/
def Obligations.DecompressGivesTheInput : Prop :=
  ∀ d input u, CodesOk d → PrefixFree d → input ≠ [] → input.length < 2 ^ 32 → (∀ b ∈ input, d.coded b = true) →
    ReadyToDecompress u (containerOf d input) → roomFor u input.length →
    ∃ v, execAll (Pseudo.decompress (BitVec.ofNat 32 input.length)).expand u = .next v ∧
      v.outq = u.outq ++ input ∧ v.err = u.err ∧ v.dcount = BitVec.ofNat 32 input.length

/-- R176(a), the round trip: what COMPRESS emits for an input of fewer than 2^32 bytes, DECOMPRESS with the input's length
turns back into the input, in any block that is ready for it, and neither raises. -/
def Obligations.RoundTrip : Prop :=
  ∀ s input t u, ReadyToCompress s input → input.length < 2 ^ 32 →
    roomFor s (256 + 8160 + 32 * input.length) → execAll Pseudo.compress.expand s = .next t →
    ReadyToDecompress u (t.outq.drop s.outq.length) → roomFor u input.length →
    t.err = s.err ∧
    ∃ v, execAll (Pseudo.decompress (BitVec.ofNat 32 input.length)).expand u = .next v ∧
      v.outq = u.outq ++ input ∧ v.err = u.err

/-- R176(b), R176(c), R175: decompressing without the count emits the input followed by `⌊k / LEN[z]⌋` copies of the symbol
`z` whose code is all zeros (none if there is no such symbol), `k` being the number of pad bits, and raises nothing. So it
gives the input exactly when there is no such symbol, or `k = 0`, or `k < LEN[z]`; and under the dictionary BUILD and ASSIGN
make there is none exactly when `NLEAF = 1`. -/
def Obligations.DecompressWithoutTheCount : Prop :=
  (∀ d input u k, CodesOk d → PrefixFree d → input ≠ [] → (∀ b ∈ input, d.coded b = true) →
    ReadyToDecompress u (containerOf d input) → roomFor u (input.length + 7) →
    k = padCount (payloadBits d input).length →
    ∃ v, execAll (Pseudo.decompress 0).expand u = .next v ∧ v.err = u.err ∧
      (∀ z, d.coded z = true → d.codeOf z = 0 →
        v.outq = u.outq ++ input ++ List.replicate (k / (d.lenOf z).toNat) z) ∧
      ((∀ z, d.coded z = true → d.codeOf z ≠ 0) → v.outq = u.outq ++ input) ∧
      (v.outq = u.outq ++ input ↔ (∀ z, d.coded z = true → d.codeOf z ≠ 0) ∨ k = 0 ∨
        ∃ z, d.coded z = true ∧ d.codeOf z = 0 ∧ k < (d.lenOf z).toNat)) ∧
  ∀ s, s.engine = .idle → (∃ sym, s.freqOf sym ≠ 0) →
    ∃ t, execAll [.build, .assign] s = .next t ∧
      ((∀ z, t.coded z = true → t.codeOf z ≠ 0) ↔ t.nleaf = 1)

/-- R205: bits pushed from a byte boundary and finished are read back in order. The emitted bytes hold the pushed bits and
then `(8 − m mod 8) mod 8` zeros; RBITS commands of any counts, from a reader on a byte boundary fed with these bytes, read
this string piece by piece; and when end of input is signalled the read that runs past its end raises READ_EXHAUSTED with
the number of bits it still got, which is 0 for the read after the last bit. -/
def Obligations.WriterAndReaderAgree : Prop :=
  ∀ (s : State) (pushes : List (BitVec 16 × Word32)) p, s.engine = .idle → s.wcnt = 0 → s.wacc = 0 →
    (∀ q ∈ pushes, q.1.toNat ≤ 32) → roomFor s ((countSum (pushes.map Prod.fst) + 7) / 8) →
    p = pushedBits pushes ++ zeros ((8 - (pushedBits pushes).length % 8) % 8) →
    ∃ t bytes, execAll (pushes.map (fun q => Instr.push q.1 q.2) ++ [.fin]) s = .next t ∧
      t.outq = s.outq ++ bytes ∧ t.err = s.err ∧ bytes.flatMap byteBits = p ∧
      ∀ (u : State) (before : List (BitVec 16)) (n : BitVec 16), u.engine = .idle → u.rmask = 0 → u.inq = bytes →
        (∀ c ∈ before, c.toNat ≤ 32) → n.toNat ≤ 32 → countSum before ≤ p.length →
        (countSum before + n.toNat ≤ p.length →
          ∃ v, execAll ((before ++ [n]).map Instr.rbits) u = .next v ∧ v.err = u.err ∧
            v.rdata = BitVec.ofNat 32 (val ((p.drop (countSum before)).take n.toNat)) ∧
            inputBits v = p.drop (countSum before + n.toNat)) ∧
        (p.length < countSum before + n.toNat → u.ineos = true →
          ∃ v, execAll ((before ++ [n]).map Instr.rbits) u = .next v ∧
            v.err = true ∧ v.errcode = 12 ∧ v.errop = 0x33 ∧
            v.errinfo = BitVec.ofNat 32 (p.length - countSum before) ∧
            v.rdata = BitVec.ofNat 32 (val (p.drop (countSum before))))

/-! ### Invariants -/

/-- R44 and the parts of `BlockInv` hold at reset. -/
def Obligations.ResetMeetsInv : Prop := BlockInv State.reset

/-- R44, R24, R28, R29 to R31, R37, R38, R125, R144(b): every step keeps the invariant: writer and reader aligned as R44
says, `PQ` empty, candidate and codes zero above their lengths, the queues within their depths, the error registers
consistent, a valid tree a tree, a valid dictionary prefix-free with its `MAXLEN`. -/
def Obligations.StepKeepsInv : Prop := ∀ s t, BlockInv s → step s = .next t → BlockInv t

/-- R125(b), R143: no step from a state that meets the invariant stops with a fault: ASSIGN's walk ends. -/
def Obligations.StepNeverFaults : Prop := ∀ s f, BlockInv s → step s ≠ .fault f
end

