-- ==== Sys2Proof/Laws/Bits.lean ====
section
/-! SUPPORT. Bit strings: lengths, values, packing into bytes (00_scope.md R8, 20_memory.md R62). -/

namespace Sys2Proof.Machine

@[simp] theorem bits_zero (v : Nat) : bits v 0 = [] := rfl

theorem bits_succ (v n : Nat) : bits v (n + 1) = v.testBit n :: bits v n := rfl

@[simp] theorem bits_length (v n : Nat) : (bits v n).length = n := by
  induction n with
  | zero => rfl
  | succ n ih => simp [bits_succ, ih]

@[simp] theorem val_nil : val [] = 0 := rfl

/-- `val` of a string with one bit more at its end (R8). -/
@[simp] theorem val_concat (c : List Bool) (b : Bool) : val (c ++ [b]) = 2 * val c + b.toNat := by
  simp [val, List.foldl_append]

/-- `val(c ++ d) = val(c)·2^|d| + val(d)` (R8). -/
theorem val_append (c d : List Bool) : val (c ++ d) = val c * 2 ^ d.length + val d := by
  induction d using List.reverseRecOn with
  | nil => simp
  | append_singleton d b ih =>
    rw [← List.append_assoc, val_concat, ih, val_concat]
    simp [Nat.pow_succ]
    ring

theorem val_cons (b : Bool) (c : List Bool) : val (b :: c) = b.toNat * 2 ^ c.length + val c := by
  have h := val_append [b] c
  simpa [val] using h

theorem val_lt (c : List Bool) : val c < 2 ^ c.length := by
  induction c with
  | nil => simp
  | cons b c ih =>
    rw [val_cons, List.length_cons, Nat.pow_succ]
    cases b <;> simp <;> omega

/-- `val(bits(v, n)) = v[n−1:0]` (R8). -/
theorem val_bits (v n : Nat) : val (bits v n) = v % 2 ^ n := by
  induction n with
  | zero => simp [Nat.mod_one]
  | succ n ih =>
    rw [bits_succ, val_cons, bits_length, ih, Nat.testBit_eq_decide_div_mod_eq, Nat.pow_succ, Nat.mod_mul]
    rcases Nat.mod_two_eq_zero_or_one (v / 2 ^ n) with h | h <;> simp [h] ; ring

theorem bits_val (c : List Bool) : bits (val c) c.length = c := by
  induction c with
  | nil => rfl
  | cons b c ih =>
    have hv : val (b :: c) = b.toNat * 2 ^ c.length + val c := val_cons b c
    have hlt := val_lt c
    have low : ∀ m, m ≤ c.length → bits (val (b :: c)) m = bits (val c) m := by
      intro m hm
      induction m with
      | zero => rfl
      | succ m ihm =>
        rw [bits_succ, bits_succ, ihm (by omega), hv]
        congr 1
        rw [Nat.mul_comm, Nat.testBit_two_pow_mul_add _ hlt]
        simp [show m < c.length by omega]
    rw [List.length_cons, bits_succ, low _ (le_refl _), ih, hv, Nat.mul_comm,
      Nat.testBit_two_pow_mul_add _ hlt]
    cases b <;> simp

/-- The `n` lowest bits do not see what lies above. -/
theorem bits_mod (v n m : Nat) (h : m ≤ n) : bits (v % 2 ^ n) m = bits v m := by
  induction m with
  | zero => rfl
  | succ m ih => rw [bits_succ, bits_succ, ih (by omega), Nat.testBit_mod_two_pow]; simp [show m < n by omega]

/-- A string read from a value one place up, with a bit appended (R173). -/
theorem bits_double (v n : Nat) (b : Bool) : bits (2 * v + b.toNat) (n + 1) = bits v n ++ [b] := by
  have h1 : (bits v n ++ [b]).length = n + 1 := by simp
  have h2 := bits_val (bits v n ++ [b])
  rw [h1, val_concat, val_bits] at h2
  rw [← h2, ← bits_mod (2 * v + b.toNat) (n + 1) (n + 1) (le_refl _)]
  congr 1
  rw [Nat.pow_succ, Nat.mul_comm (2 ^ n) 2]
  have hb : b.toNat < 2 := by cases b <;> simp
  rw [Nat.mod_mul, show (2 * v + b.toNat) % 2 = b.toNat by omega, show (2 * v + b.toNat) / 2 = v by omega]
  ring

@[simp] theorem byteBits_length (b : Byte) : (byteBits b).length = 8 := by simp [byteBits]

/-- The byte of a byte's bits is the byte (R62). -/
@[simp] theorem byteOf_byteBits (b : Byte) : byteOf (byteBits b) = b := by
  unfold byteOf byteBits
  rw [val_bits]
  have := b.isLt
  rw [Nat.mod_eq_of_lt this]
  simp

/-- The bits of the byte of eight bits are these bits (R62). -/
theorem byteBits_byteOf (c : List Bool) (h : c.length = 8) : byteBits (byteOf c) = c := by
  unfold byteOf byteBits
  have hlt := val_lt c
  rw [h] at hlt
  rw [BitVec.toNat_ofNat, Nat.mod_eq_of_lt hlt, ← h]
  exact bits_val c

/-- Packing one whole byte's bits and then a string (R62). -/
theorem packBytes_eight (c d : List Bool) (h : c.length = 8) : packBytes (c ++ d) = byteOf c :: packBytes d := by
  match c, h with
  | [_, _, _, _, _, _, _, _], _ => rfl

theorem leftBits_eight (c d : List Bool) (h : c.length = 8) : leftBits (c ++ d) = leftBits d := by
  match c, h with
  | [_, _, _, _, _, _, _, _], _ => rfl

theorem packBytes_short (c : List Bool) (h : c.length < 8) : packBytes c = [] := by
  match c, h with
  | [], _ | [_], _ | [_, _], _ | [_, _, _], _ | [_, _, _, _], _ | [_, _, _, _, _], _ | [_, _, _, _, _, _], _
  | [_, _, _, _, _, _, _], _ => rfl

theorem leftBits_short (c : List Bool) (h : c.length < 8) : leftBits c = c := by
  match c, h with
  | [], _ | [_], _ | [_, _], _ | [_, _, _], _ | [_, _, _, _], _ | [_, _, _, _, _], _ | [_, _, _, _, _, _], _
  | [_, _, _, _, _, _, _], _ => rfl

/-- Induction on a bit string eight bits at a time. -/
theorem eight_induction {P : List Bool → Prop} (short : ∀ c, c.length < 8 → P c)
    (eight : ∀ c d, c.length = 8 → P d → P (c ++ d)) : ∀ c, P c := by
  intro c
  induction hn : c.length using Nat.strong_induction_on generalizing c with
  | _ n ih =>
    by_cases hc : c.length < 8
    · exact short c hc
    · rw [← List.take_append_drop 8 c]
      exact eight _ _ (by simp; omega) (ih (c.drop 8).length (by simp; omega) _ rfl)

theorem leftBits_length (c : List Bool) : (leftBits c).length = c.length % 8 := by
  refine eight_induction (P := fun c => (leftBits c).length = c.length % 8) ?_ ?_ c
  · intro c h; rw [leftBits_short c h, Nat.mod_eq_of_lt h]
  · intro c d h ih; rw [leftBits_eight c d h, ih, List.length_append, h]; omega

theorem packBytes_length (c : List Bool) : (packBytes c).length = c.length / 8 := by
  refine eight_induction (P := fun c => (packBytes c).length = c.length / 8) ?_ ?_ c
  · intro c h; rw [packBytes_short c h, Nat.div_eq_of_lt h]; rfl
  · intro c d h ih; rw [packBytes_eight c d h, List.length_cons, ih, List.length_append, h]; omega

/-- Packing a string in two parts: the bits left over from the first go before the second (R76). -/
theorem packBytes_append (c d : List Bool) :
    packBytes (c ++ d) = packBytes c ++ packBytes (leftBits c ++ d) ∧
      leftBits (c ++ d) = leftBits (leftBits c ++ d) := by
  refine eight_induction (P := fun c => packBytes (c ++ d) = packBytes c ++ packBytes (leftBits c ++ d) ∧
      leftBits (c ++ d) = leftBits (leftBits c ++ d)) ?_ ?_ c
  · intro c h; rw [packBytes_short c h, leftBits_short c h]; simp
  · intro a c h ih
    rw [List.append_assoc, packBytes_eight a _ h, leftBits_eight a _ h, packBytes_eight a _ h,
      leftBits_eight a _ h, ih.1, ih.2]
    simp

/-- The bytes' bits and the bits left over are the string (R62). -/
theorem packBytes_bits (c : List Bool) : (packBytes c).flatMap byteBits ++ leftBits c = c := by
  refine eight_induction (P := fun c => (packBytes c).flatMap byteBits ++ leftBits c = c) ?_ ?_ c
  · intro c h; rw [packBytes_short c h, leftBits_short c h]; simp
  · intro c d h ih
    rw [packBytes_eight c d h, leftBits_eight c d h, List.flatMap_cons, byteBits_byteOf c h, List.append_assoc, ih]

theorem flatMap_byteBits_length (l : List Byte) : (l.flatMap byteBits).length = 8 * l.length := by
  induction l with
  | nil => rfl
  | cons b l ih => rw [List.flatMap_cons, List.length_append, ih, byteBits_length, List.length_cons]; ring

@[simp] theorem zeros_length (k : Nat) : (zeros k).length = k := by simp [zeros]

theorem val_zeros (k : Nat) : val (zeros k) = 0 := by
  induction k with
  | zero => rfl
  | succ k ih => unfold zeros at *; rw [List.replicate_succ, val_cons, ih]; simp

theorem padToByte_length (c : List Bool) : (padToByte c).length = 8 * ((c.length + 7) / 8) := by
  simp [padToByte, padCount]; omega

/-! ### Lists of counts and of pushes -/

@[simp] theorem countSum_nil : countSum [] = 0 := rfl

@[simp] theorem countSum_cons (n : BitVec 16) (l : List (BitVec 16)) : countSum (n :: l) = n.toNat + countSum l := by
  simp [countSum]

@[simp] theorem pushedBits_nil : pushedBits [] = [] := rfl

@[simp] theorem pushedBits_cons (p : BitVec 16 × Word32) (l : List (BitVec 16 × Word32)) :
    pushedBits (p :: l) = bits p.2.toNat p.1.toNat ++ pushedBits l := by
  simp [pushedBits]

@[simp] theorem pushedBits_length (l : List (BitVec 16 × Word32)) :
    (pushedBits l).length = countSum (l.map Prod.fst) := by
  induction l with
  | nil => rfl
  | cons p l ih => simp [ih]

end Sys2Proof.Machine
end

