-- ==== Sys2Proof/Laws/State.lean ====
section
/-! SUPPORT. What each named update does to each field of State: one lemma per field per update, so that no later proof
unfolds a record update. -/

namespace Sys2Proof.Machine.State

/-! ### `endCommand` -/

@[simp] theorem endCommand_freq (s : State) : (s.endCommand).freq = s.freq := rfl
@[simp] theorem endCommand_node (s : State) : (s.endCommand).node = s.node := rfl
@[simp] theorem endCommand_nleaf (s : State) : (s.endCommand).nleaf = s.nleaf := rfl
@[simp] theorem endCommand_nnodes (s : State) : (s.endCommand).nnodes = s.nnodes := rfl
@[simp] theorem endCommand_root (s : State) : (s.endCommand).root = s.root := rfl
@[simp] theorem endCommand_pq (s : State) : (s.endCommand).pq = s.pq := rfl
@[simp] theorem endCommand_len (s : State) : (s.endCommand).len = s.len := rfl
@[simp] theorem endCommand_code (s : State) : (s.endCommand).code = s.code := rfl
@[simp] theorem endCommand_maxlen (s : State) : (s.endCommand).maxlen = s.maxlen := rfl
@[simp] theorem endCommand_treeValid (s : State) : (s.endCommand).treeValid = s.treeValid := rfl
@[simp] theorem endCommand_preValid (s : State) : (s.endCommand).preValid = s.preValid := rfl
@[simp] theorem endCommand_dictValid (s : State) : (s.endCommand).dictValid = s.dictValid := rfl
@[simp] theorem endCommand_wacc (s : State) : (s.endCommand).wacc = s.wacc := rfl
@[simp] theorem endCommand_wcnt (s : State) : (s.endCommand).wcnt = s.wcnt := rfl
@[simp] theorem endCommand_rbyte (s : State) : (s.endCommand).rbyte = s.rbyte := rfl
@[simp] theorem endCommand_rmask (s : State) : (s.endCommand).rmask = s.rmask := rfl
@[simp] theorem endCommand_rdata (s : State) : (s.endCommand).rdata = s.rdata := rfl
@[simp] theorem endCommand_dcount (s : State) : (s.endCommand).dcount = s.dcount := rfl
@[simp] theorem endCommand_clen (s : State) : (s.endCommand).clen = s.clen := rfl
@[simp] theorem endCommand_cand (s : State) : (s.endCommand).cand = s.cand := rfl
@[simp] theorem endCommand_incnt (s : State) : (s.endCommand).incnt = s.incnt := rfl
@[simp] theorem endCommand_outcnt (s : State) : (s.endCommand).outcnt = s.outcnt := rfl
@[simp] theorem endCommand_engine (s : State) : (s.endCommand).engine = .idle := rfl
@[simp] theorem endCommand_err (s : State) : (s.endCommand).err = s.err := rfl
@[simp] theorem endCommand_errcode (s : State) : (s.endCommand).errcode = s.errcode := rfl
@[simp] theorem endCommand_errop (s : State) : (s.endCommand).errop = s.errop := rfl
@[simp] theorem endCommand_errinfo (s : State) : (s.endCommand).errinfo = s.errinfo := rfl
@[simp] theorem endCommand_inq (s : State) : (s.endCommand).inq = s.inq := rfl
@[simp] theorem endCommand_ineos (s : State) : (s.endCommand).ineos = s.ineos := rfl
@[simp] theorem endCommand_outq (s : State) : (s.endCommand).outq = s.outq := rfl
@[simp] theorem endCommand_params (s : State) : (s.endCommand).params = s.params := rfl
@[simp] theorem endCommand_host (s : State) : (s.endCommand).host = s.host := rfl

/-! ### `raise` -/

@[simp] theorem raise_freq (s : State) (op : Byte) (e : ErrName) (info : Word32) : (s.raise op e info).freq = s.freq := rfl
@[simp] theorem raise_node (s : State) (op : Byte) (e : ErrName) (info : Word32) : (s.raise op e info).node = s.node := rfl
@[simp] theorem raise_nleaf (s : State) (op : Byte) (e : ErrName) (info : Word32) : (s.raise op e info).nleaf = s.nleaf := rfl
@[simp] theorem raise_nnodes (s : State) (op : Byte) (e : ErrName) (info : Word32) : (s.raise op e info).nnodes = s.nnodes := rfl
@[simp] theorem raise_root (s : State) (op : Byte) (e : ErrName) (info : Word32) : (s.raise op e info).root = s.root := rfl
@[simp] theorem raise_pq (s : State) (op : Byte) (e : ErrName) (info : Word32) : (s.raise op e info).pq = s.pq := rfl
@[simp] theorem raise_len (s : State) (op : Byte) (e : ErrName) (info : Word32) : (s.raise op e info).len = s.len := rfl
@[simp] theorem raise_code (s : State) (op : Byte) (e : ErrName) (info : Word32) : (s.raise op e info).code = s.code := rfl
@[simp] theorem raise_maxlen (s : State) (op : Byte) (e : ErrName) (info : Word32) : (s.raise op e info).maxlen = s.maxlen := rfl
@[simp] theorem raise_treeValid (s : State) (op : Byte) (e : ErrName) (info : Word32) : (s.raise op e info).treeValid = s.treeValid := rfl
@[simp] theorem raise_preValid (s : State) (op : Byte) (e : ErrName) (info : Word32) : (s.raise op e info).preValid = s.preValid := rfl
@[simp] theorem raise_dictValid (s : State) (op : Byte) (e : ErrName) (info : Word32) : (s.raise op e info).dictValid = s.dictValid := rfl
@[simp] theorem raise_wacc (s : State) (op : Byte) (e : ErrName) (info : Word32) : (s.raise op e info).wacc = s.wacc := rfl
@[simp] theorem raise_wcnt (s : State) (op : Byte) (e : ErrName) (info : Word32) : (s.raise op e info).wcnt = s.wcnt := rfl
@[simp] theorem raise_rbyte (s : State) (op : Byte) (e : ErrName) (info : Word32) : (s.raise op e info).rbyte = s.rbyte := rfl
@[simp] theorem raise_rmask (s : State) (op : Byte) (e : ErrName) (info : Word32) : (s.raise op e info).rmask = s.rmask := rfl
@[simp] theorem raise_rdata (s : State) (op : Byte) (e : ErrName) (info : Word32) : (s.raise op e info).rdata = s.rdata := rfl
@[simp] theorem raise_dcount (s : State) (op : Byte) (e : ErrName) (info : Word32) : (s.raise op e info).dcount = s.dcount := rfl
@[simp] theorem raise_clen (s : State) (op : Byte) (e : ErrName) (info : Word32) : (s.raise op e info).clen = s.clen := rfl
@[simp] theorem raise_cand (s : State) (op : Byte) (e : ErrName) (info : Word32) : (s.raise op e info).cand = s.cand := rfl
@[simp] theorem raise_incnt (s : State) (op : Byte) (e : ErrName) (info : Word32) : (s.raise op e info).incnt = s.incnt := rfl
@[simp] theorem raise_outcnt (s : State) (op : Byte) (e : ErrName) (info : Word32) : (s.raise op e info).outcnt = s.outcnt := rfl
@[simp] theorem raise_engine (s : State) (op : Byte) (e : ErrName) (info : Word32) : (s.raise op e info).engine = .idle := rfl
@[simp] theorem raise_err (s : State) (op : Byte) (e : ErrName) (info : Word32) : (s.raise op e info).err = true := rfl
@[simp] theorem raise_errcode (s : State) (op : Byte) (e : ErrName) (info : Word32) : (s.raise op e info).errcode = e.code := rfl
@[simp] theorem raise_errop (s : State) (op : Byte) (e : ErrName) (info : Word32) : (s.raise op e info).errop = op := rfl
@[simp] theorem raise_errinfo (s : State) (op : Byte) (e : ErrName) (info : Word32) : (s.raise op e info).errinfo = info := rfl
@[simp] theorem raise_inq (s : State) (op : Byte) (e : ErrName) (info : Word32) : (s.raise op e info).inq = s.inq := rfl
@[simp] theorem raise_ineos (s : State) (op : Byte) (e : ErrName) (info : Word32) : (s.raise op e info).ineos = s.ineos := rfl
@[simp] theorem raise_outq (s : State) (op : Byte) (e : ErrName) (info : Word32) : (s.raise op e info).outq = s.outq := rfl
@[simp] theorem raise_params (s : State) (op : Byte) (e : ErrName) (info : Word32) : (s.raise op e info).params = s.params := rfl
@[simp] theorem raise_host (s : State) (op : Byte) (e : ErrName) (info : Word32) : (s.raise op e info).host = s.host := rfl

/-! ### `park` -/

@[simp] theorem park_freq (s : State) (op : Byte) (t : Task) : (s.park op t).freq = s.freq := rfl
@[simp] theorem park_node (s : State) (op : Byte) (t : Task) : (s.park op t).node = s.node := rfl
@[simp] theorem park_nleaf (s : State) (op : Byte) (t : Task) : (s.park op t).nleaf = s.nleaf := rfl
@[simp] theorem park_nnodes (s : State) (op : Byte) (t : Task) : (s.park op t).nnodes = s.nnodes := rfl
@[simp] theorem park_root (s : State) (op : Byte) (t : Task) : (s.park op t).root = s.root := rfl
@[simp] theorem park_pq (s : State) (op : Byte) (t : Task) : (s.park op t).pq = s.pq := rfl
@[simp] theorem park_len (s : State) (op : Byte) (t : Task) : (s.park op t).len = s.len := rfl
@[simp] theorem park_code (s : State) (op : Byte) (t : Task) : (s.park op t).code = s.code := rfl
@[simp] theorem park_maxlen (s : State) (op : Byte) (t : Task) : (s.park op t).maxlen = s.maxlen := rfl
@[simp] theorem park_treeValid (s : State) (op : Byte) (t : Task) : (s.park op t).treeValid = s.treeValid := rfl
@[simp] theorem park_preValid (s : State) (op : Byte) (t : Task) : (s.park op t).preValid = s.preValid := rfl
@[simp] theorem park_dictValid (s : State) (op : Byte) (t : Task) : (s.park op t).dictValid = s.dictValid := rfl
@[simp] theorem park_wacc (s : State) (op : Byte) (t : Task) : (s.park op t).wacc = s.wacc := rfl
@[simp] theorem park_wcnt (s : State) (op : Byte) (t : Task) : (s.park op t).wcnt = s.wcnt := rfl
@[simp] theorem park_rbyte (s : State) (op : Byte) (t : Task) : (s.park op t).rbyte = s.rbyte := rfl
@[simp] theorem park_rmask (s : State) (op : Byte) (t : Task) : (s.park op t).rmask = s.rmask := rfl
@[simp] theorem park_rdata (s : State) (op : Byte) (t : Task) : (s.park op t).rdata = s.rdata := rfl
@[simp] theorem park_dcount (s : State) (op : Byte) (t : Task) : (s.park op t).dcount = s.dcount := rfl
@[simp] theorem park_clen (s : State) (op : Byte) (t : Task) : (s.park op t).clen = s.clen := rfl
@[simp] theorem park_cand (s : State) (op : Byte) (t : Task) : (s.park op t).cand = s.cand := rfl
@[simp] theorem park_incnt (s : State) (op : Byte) (t : Task) : (s.park op t).incnt = s.incnt := rfl
@[simp] theorem park_outcnt (s : State) (op : Byte) (t : Task) : (s.park op t).outcnt = s.outcnt := rfl
@[simp] theorem park_engine (s : State) (op : Byte) (t : Task) : (s.park op t).engine = .running op t := rfl
@[simp] theorem park_err (s : State) (op : Byte) (t : Task) : (s.park op t).err = s.err := rfl
@[simp] theorem park_errcode (s : State) (op : Byte) (t : Task) : (s.park op t).errcode = s.errcode := rfl
@[simp] theorem park_errop (s : State) (op : Byte) (t : Task) : (s.park op t).errop = s.errop := rfl
@[simp] theorem park_errinfo (s : State) (op : Byte) (t : Task) : (s.park op t).errinfo = s.errinfo := rfl
@[simp] theorem park_inq (s : State) (op : Byte) (t : Task) : (s.park op t).inq = s.inq := rfl
@[simp] theorem park_ineos (s : State) (op : Byte) (t : Task) : (s.park op t).ineos = s.ineos := rfl
@[simp] theorem park_outq (s : State) (op : Byte) (t : Task) : (s.park op t).outq = s.outq := rfl
@[simp] theorem park_params (s : State) (op : Byte) (t : Task) : (s.park op t).params = s.params := rfl
@[simp] theorem park_host (s : State) (op : Byte) (t : Task) : (s.park op t).host = s.host := rfl

/-! ### `takeIn` -/

@[simp] theorem takeIn_freq (s : State) (rest : List Byte) : (s.takeIn rest).freq = s.freq := rfl
@[simp] theorem takeIn_node (s : State) (rest : List Byte) : (s.takeIn rest).node = s.node := rfl
@[simp] theorem takeIn_nleaf (s : State) (rest : List Byte) : (s.takeIn rest).nleaf = s.nleaf := rfl
@[simp] theorem takeIn_nnodes (s : State) (rest : List Byte) : (s.takeIn rest).nnodes = s.nnodes := rfl
@[simp] theorem takeIn_root (s : State) (rest : List Byte) : (s.takeIn rest).root = s.root := rfl
@[simp] theorem takeIn_pq (s : State) (rest : List Byte) : (s.takeIn rest).pq = s.pq := rfl
@[simp] theorem takeIn_len (s : State) (rest : List Byte) : (s.takeIn rest).len = s.len := rfl
@[simp] theorem takeIn_code (s : State) (rest : List Byte) : (s.takeIn rest).code = s.code := rfl
@[simp] theorem takeIn_maxlen (s : State) (rest : List Byte) : (s.takeIn rest).maxlen = s.maxlen := rfl
@[simp] theorem takeIn_treeValid (s : State) (rest : List Byte) : (s.takeIn rest).treeValid = s.treeValid := rfl
@[simp] theorem takeIn_preValid (s : State) (rest : List Byte) : (s.takeIn rest).preValid = s.preValid := rfl
@[simp] theorem takeIn_dictValid (s : State) (rest : List Byte) : (s.takeIn rest).dictValid = s.dictValid := rfl
@[simp] theorem takeIn_wacc (s : State) (rest : List Byte) : (s.takeIn rest).wacc = s.wacc := rfl
@[simp] theorem takeIn_wcnt (s : State) (rest : List Byte) : (s.takeIn rest).wcnt = s.wcnt := rfl
@[simp] theorem takeIn_rbyte (s : State) (rest : List Byte) : (s.takeIn rest).rbyte = s.rbyte := rfl
@[simp] theorem takeIn_rmask (s : State) (rest : List Byte) : (s.takeIn rest).rmask = s.rmask := rfl
@[simp] theorem takeIn_rdata (s : State) (rest : List Byte) : (s.takeIn rest).rdata = s.rdata := rfl
@[simp] theorem takeIn_dcount (s : State) (rest : List Byte) : (s.takeIn rest).dcount = s.dcount := rfl
@[simp] theorem takeIn_clen (s : State) (rest : List Byte) : (s.takeIn rest).clen = s.clen := rfl
@[simp] theorem takeIn_cand (s : State) (rest : List Byte) : (s.takeIn rest).cand = s.cand := rfl
@[simp] theorem takeIn_incnt (s : State) (rest : List Byte) : (s.takeIn rest).incnt = s.incnt + 1 := rfl
@[simp] theorem takeIn_outcnt (s : State) (rest : List Byte) : (s.takeIn rest).outcnt = s.outcnt := rfl
@[simp] theorem takeIn_engine (s : State) (rest : List Byte) : (s.takeIn rest).engine = s.engine := rfl
@[simp] theorem takeIn_err (s : State) (rest : List Byte) : (s.takeIn rest).err = s.err := rfl
@[simp] theorem takeIn_errcode (s : State) (rest : List Byte) : (s.takeIn rest).errcode = s.errcode := rfl
@[simp] theorem takeIn_errop (s : State) (rest : List Byte) : (s.takeIn rest).errop = s.errop := rfl
@[simp] theorem takeIn_errinfo (s : State) (rest : List Byte) : (s.takeIn rest).errinfo = s.errinfo := rfl
@[simp] theorem takeIn_inq (s : State) (rest : List Byte) : (s.takeIn rest).inq = rest := rfl
@[simp] theorem takeIn_ineos (s : State) (rest : List Byte) : (s.takeIn rest).ineos = s.ineos := rfl
@[simp] theorem takeIn_outq (s : State) (rest : List Byte) : (s.takeIn rest).outq = s.outq := rfl
@[simp] theorem takeIn_params (s : State) (rest : List Byte) : (s.takeIn rest).params = s.params := rfl
@[simp] theorem takeIn_host (s : State) (rest : List Byte) : (s.takeIn rest).host = s.host := rfl

/-! ### `putOut` -/

@[simp] theorem putOut_freq (s : State) (v : Byte) : (s.putOut v).freq = s.freq := rfl
@[simp] theorem putOut_node (s : State) (v : Byte) : (s.putOut v).node = s.node := rfl
@[simp] theorem putOut_nleaf (s : State) (v : Byte) : (s.putOut v).nleaf = s.nleaf := rfl
@[simp] theorem putOut_nnodes (s : State) (v : Byte) : (s.putOut v).nnodes = s.nnodes := rfl
@[simp] theorem putOut_root (s : State) (v : Byte) : (s.putOut v).root = s.root := rfl
@[simp] theorem putOut_pq (s : State) (v : Byte) : (s.putOut v).pq = s.pq := rfl
@[simp] theorem putOut_len (s : State) (v : Byte) : (s.putOut v).len = s.len := rfl
@[simp] theorem putOut_code (s : State) (v : Byte) : (s.putOut v).code = s.code := rfl
@[simp] theorem putOut_maxlen (s : State) (v : Byte) : (s.putOut v).maxlen = s.maxlen := rfl
@[simp] theorem putOut_treeValid (s : State) (v : Byte) : (s.putOut v).treeValid = s.treeValid := rfl
@[simp] theorem putOut_preValid (s : State) (v : Byte) : (s.putOut v).preValid = s.preValid := rfl
@[simp] theorem putOut_dictValid (s : State) (v : Byte) : (s.putOut v).dictValid = s.dictValid := rfl
@[simp] theorem putOut_wacc (s : State) (v : Byte) : (s.putOut v).wacc = s.wacc := rfl
@[simp] theorem putOut_wcnt (s : State) (v : Byte) : (s.putOut v).wcnt = s.wcnt := rfl
@[simp] theorem putOut_rbyte (s : State) (v : Byte) : (s.putOut v).rbyte = s.rbyte := rfl
@[simp] theorem putOut_rmask (s : State) (v : Byte) : (s.putOut v).rmask = s.rmask := rfl
@[simp] theorem putOut_rdata (s : State) (v : Byte) : (s.putOut v).rdata = s.rdata := rfl
@[simp] theorem putOut_dcount (s : State) (v : Byte) : (s.putOut v).dcount = s.dcount := rfl
@[simp] theorem putOut_clen (s : State) (v : Byte) : (s.putOut v).clen = s.clen := rfl
@[simp] theorem putOut_cand (s : State) (v : Byte) : (s.putOut v).cand = s.cand := rfl
@[simp] theorem putOut_incnt (s : State) (v : Byte) : (s.putOut v).incnt = s.incnt := rfl
@[simp] theorem putOut_outcnt (s : State) (v : Byte) : (s.putOut v).outcnt = s.outcnt + 1 := rfl
@[simp] theorem putOut_engine (s : State) (v : Byte) : (s.putOut v).engine = s.engine := rfl
@[simp] theorem putOut_err (s : State) (v : Byte) : (s.putOut v).err = s.err := rfl
@[simp] theorem putOut_errcode (s : State) (v : Byte) : (s.putOut v).errcode = s.errcode := rfl
@[simp] theorem putOut_errop (s : State) (v : Byte) : (s.putOut v).errop = s.errop := rfl
@[simp] theorem putOut_errinfo (s : State) (v : Byte) : (s.putOut v).errinfo = s.errinfo := rfl
@[simp] theorem putOut_inq (s : State) (v : Byte) : (s.putOut v).inq = s.inq := rfl
@[simp] theorem putOut_ineos (s : State) (v : Byte) : (s.putOut v).ineos = s.ineos := rfl
@[simp] theorem putOut_outq (s : State) (v : Byte) : (s.putOut v).outq = s.outq ++ [v] := rfl
@[simp] theorem putOut_params (s : State) (v : Byte) : (s.putOut v).params = s.params := rfl
@[simp] theorem putOut_host (s : State) (v : Byte) : (s.putOut v).host = s.host := rfl

/-! ### `setWriter` -/

@[simp] theorem setWriter_freq (s : State) (acc : Byte) (cnt : BitVec 4) : (s.setWriter acc cnt).freq = s.freq := rfl
@[simp] theorem setWriter_node (s : State) (acc : Byte) (cnt : BitVec 4) : (s.setWriter acc cnt).node = s.node := rfl
@[simp] theorem setWriter_nleaf (s : State) (acc : Byte) (cnt : BitVec 4) : (s.setWriter acc cnt).nleaf = s.nleaf := rfl
@[simp] theorem setWriter_nnodes (s : State) (acc : Byte) (cnt : BitVec 4) : (s.setWriter acc cnt).nnodes = s.nnodes := rfl
@[simp] theorem setWriter_root (s : State) (acc : Byte) (cnt : BitVec 4) : (s.setWriter acc cnt).root = s.root := rfl
@[simp] theorem setWriter_pq (s : State) (acc : Byte) (cnt : BitVec 4) : (s.setWriter acc cnt).pq = s.pq := rfl
@[simp] theorem setWriter_len (s : State) (acc : Byte) (cnt : BitVec 4) : (s.setWriter acc cnt).len = s.len := rfl
@[simp] theorem setWriter_code (s : State) (acc : Byte) (cnt : BitVec 4) : (s.setWriter acc cnt).code = s.code := rfl
@[simp] theorem setWriter_maxlen (s : State) (acc : Byte) (cnt : BitVec 4) : (s.setWriter acc cnt).maxlen = s.maxlen := rfl
@[simp] theorem setWriter_treeValid (s : State) (acc : Byte) (cnt : BitVec 4) : (s.setWriter acc cnt).treeValid = s.treeValid := rfl
@[simp] theorem setWriter_preValid (s : State) (acc : Byte) (cnt : BitVec 4) : (s.setWriter acc cnt).preValid = s.preValid := rfl
@[simp] theorem setWriter_dictValid (s : State) (acc : Byte) (cnt : BitVec 4) : (s.setWriter acc cnt).dictValid = s.dictValid := rfl
@[simp] theorem setWriter_wacc (s : State) (acc : Byte) (cnt : BitVec 4) : (s.setWriter acc cnt).wacc = acc := rfl
@[simp] theorem setWriter_wcnt (s : State) (acc : Byte) (cnt : BitVec 4) : (s.setWriter acc cnt).wcnt = cnt := rfl
@[simp] theorem setWriter_rbyte (s : State) (acc : Byte) (cnt : BitVec 4) : (s.setWriter acc cnt).rbyte = s.rbyte := rfl
@[simp] theorem setWriter_rmask (s : State) (acc : Byte) (cnt : BitVec 4) : (s.setWriter acc cnt).rmask = s.rmask := rfl
@[simp] theorem setWriter_rdata (s : State) (acc : Byte) (cnt : BitVec 4) : (s.setWriter acc cnt).rdata = s.rdata := rfl
@[simp] theorem setWriter_dcount (s : State) (acc : Byte) (cnt : BitVec 4) : (s.setWriter acc cnt).dcount = s.dcount := rfl
@[simp] theorem setWriter_clen (s : State) (acc : Byte) (cnt : BitVec 4) : (s.setWriter acc cnt).clen = s.clen := rfl
@[simp] theorem setWriter_cand (s : State) (acc : Byte) (cnt : BitVec 4) : (s.setWriter acc cnt).cand = s.cand := rfl
@[simp] theorem setWriter_incnt (s : State) (acc : Byte) (cnt : BitVec 4) : (s.setWriter acc cnt).incnt = s.incnt := rfl
@[simp] theorem setWriter_outcnt (s : State) (acc : Byte) (cnt : BitVec 4) : (s.setWriter acc cnt).outcnt = s.outcnt := rfl
@[simp] theorem setWriter_engine (s : State) (acc : Byte) (cnt : BitVec 4) : (s.setWriter acc cnt).engine = s.engine := rfl
@[simp] theorem setWriter_err (s : State) (acc : Byte) (cnt : BitVec 4) : (s.setWriter acc cnt).err = s.err := rfl
@[simp] theorem setWriter_errcode (s : State) (acc : Byte) (cnt : BitVec 4) : (s.setWriter acc cnt).errcode = s.errcode := rfl
@[simp] theorem setWriter_errop (s : State) (acc : Byte) (cnt : BitVec 4) : (s.setWriter acc cnt).errop = s.errop := rfl
@[simp] theorem setWriter_errinfo (s : State) (acc : Byte) (cnt : BitVec 4) : (s.setWriter acc cnt).errinfo = s.errinfo := rfl
@[simp] theorem setWriter_inq (s : State) (acc : Byte) (cnt : BitVec 4) : (s.setWriter acc cnt).inq = s.inq := rfl
@[simp] theorem setWriter_ineos (s : State) (acc : Byte) (cnt : BitVec 4) : (s.setWriter acc cnt).ineos = s.ineos := rfl
@[simp] theorem setWriter_outq (s : State) (acc : Byte) (cnt : BitVec 4) : (s.setWriter acc cnt).outq = s.outq := rfl
@[simp] theorem setWriter_params (s : State) (acc : Byte) (cnt : BitVec 4) : (s.setWriter acc cnt).params = s.params := rfl
@[simp] theorem setWriter_host (s : State) (acc : Byte) (cnt : BitVec 4) : (s.setWriter acc cnt).host = s.host := rfl

/-! ### `setReader` -/

@[simp] theorem setReader_freq (s : State) (byte mask : Byte) : (s.setReader byte mask).freq = s.freq := rfl
@[simp] theorem setReader_node (s : State) (byte mask : Byte) : (s.setReader byte mask).node = s.node := rfl
@[simp] theorem setReader_nleaf (s : State) (byte mask : Byte) : (s.setReader byte mask).nleaf = s.nleaf := rfl
@[simp] theorem setReader_nnodes (s : State) (byte mask : Byte) : (s.setReader byte mask).nnodes = s.nnodes := rfl
@[simp] theorem setReader_root (s : State) (byte mask : Byte) : (s.setReader byte mask).root = s.root := rfl
@[simp] theorem setReader_pq (s : State) (byte mask : Byte) : (s.setReader byte mask).pq = s.pq := rfl
@[simp] theorem setReader_len (s : State) (byte mask : Byte) : (s.setReader byte mask).len = s.len := rfl
@[simp] theorem setReader_code (s : State) (byte mask : Byte) : (s.setReader byte mask).code = s.code := rfl
@[simp] theorem setReader_maxlen (s : State) (byte mask : Byte) : (s.setReader byte mask).maxlen = s.maxlen := rfl
@[simp] theorem setReader_treeValid (s : State) (byte mask : Byte) : (s.setReader byte mask).treeValid = s.treeValid := rfl
@[simp] theorem setReader_preValid (s : State) (byte mask : Byte) : (s.setReader byte mask).preValid = s.preValid := rfl
@[simp] theorem setReader_dictValid (s : State) (byte mask : Byte) : (s.setReader byte mask).dictValid = s.dictValid := rfl
@[simp] theorem setReader_wacc (s : State) (byte mask : Byte) : (s.setReader byte mask).wacc = s.wacc := rfl
@[simp] theorem setReader_wcnt (s : State) (byte mask : Byte) : (s.setReader byte mask).wcnt = s.wcnt := rfl
@[simp] theorem setReader_rbyte (s : State) (byte mask : Byte) : (s.setReader byte mask).rbyte = byte := rfl
@[simp] theorem setReader_rmask (s : State) (byte mask : Byte) : (s.setReader byte mask).rmask = mask := rfl
@[simp] theorem setReader_rdata (s : State) (byte mask : Byte) : (s.setReader byte mask).rdata = s.rdata := rfl
@[simp] theorem setReader_dcount (s : State) (byte mask : Byte) : (s.setReader byte mask).dcount = s.dcount := rfl
@[simp] theorem setReader_clen (s : State) (byte mask : Byte) : (s.setReader byte mask).clen = s.clen := rfl
@[simp] theorem setReader_cand (s : State) (byte mask : Byte) : (s.setReader byte mask).cand = s.cand := rfl
@[simp] theorem setReader_incnt (s : State) (byte mask : Byte) : (s.setReader byte mask).incnt = s.incnt := rfl
@[simp] theorem setReader_outcnt (s : State) (byte mask : Byte) : (s.setReader byte mask).outcnt = s.outcnt := rfl
@[simp] theorem setReader_engine (s : State) (byte mask : Byte) : (s.setReader byte mask).engine = s.engine := rfl
@[simp] theorem setReader_err (s : State) (byte mask : Byte) : (s.setReader byte mask).err = s.err := rfl
@[simp] theorem setReader_errcode (s : State) (byte mask : Byte) : (s.setReader byte mask).errcode = s.errcode := rfl
@[simp] theorem setReader_errop (s : State) (byte mask : Byte) : (s.setReader byte mask).errop = s.errop := rfl
@[simp] theorem setReader_errinfo (s : State) (byte mask : Byte) : (s.setReader byte mask).errinfo = s.errinfo := rfl
@[simp] theorem setReader_inq (s : State) (byte mask : Byte) : (s.setReader byte mask).inq = s.inq := rfl
@[simp] theorem setReader_ineos (s : State) (byte mask : Byte) : (s.setReader byte mask).ineos = s.ineos := rfl
@[simp] theorem setReader_outq (s : State) (byte mask : Byte) : (s.setReader byte mask).outq = s.outq := rfl
@[simp] theorem setReader_params (s : State) (byte mask : Byte) : (s.setReader byte mask).params = s.params := rfl
@[simp] theorem setReader_host (s : State) (byte mask : Byte) : (s.setReader byte mask).host = s.host := rfl

/-! ### `setFreq` -/

@[simp] theorem setFreq_freq (s : State) (sym : Sym) (w : Word32) : (s.setFreq sym w).freq = s.freq.set sym.toNat w sym.isLt := rfl
@[simp] theorem setFreq_node (s : State) (sym : Sym) (w : Word32) : (s.setFreq sym w).node = s.node := rfl
@[simp] theorem setFreq_nleaf (s : State) (sym : Sym) (w : Word32) : (s.setFreq sym w).nleaf = s.nleaf := rfl
@[simp] theorem setFreq_nnodes (s : State) (sym : Sym) (w : Word32) : (s.setFreq sym w).nnodes = s.nnodes := rfl
@[simp] theorem setFreq_root (s : State) (sym : Sym) (w : Word32) : (s.setFreq sym w).root = s.root := rfl
@[simp] theorem setFreq_pq (s : State) (sym : Sym) (w : Word32) : (s.setFreq sym w).pq = s.pq := rfl
@[simp] theorem setFreq_len (s : State) (sym : Sym) (w : Word32) : (s.setFreq sym w).len = s.len := rfl
@[simp] theorem setFreq_code (s : State) (sym : Sym) (w : Word32) : (s.setFreq sym w).code = s.code := rfl
@[simp] theorem setFreq_maxlen (s : State) (sym : Sym) (w : Word32) : (s.setFreq sym w).maxlen = s.maxlen := rfl
@[simp] theorem setFreq_treeValid (s : State) (sym : Sym) (w : Word32) : (s.setFreq sym w).treeValid = s.treeValid := rfl
@[simp] theorem setFreq_preValid (s : State) (sym : Sym) (w : Word32) : (s.setFreq sym w).preValid = s.preValid := rfl
@[simp] theorem setFreq_dictValid (s : State) (sym : Sym) (w : Word32) : (s.setFreq sym w).dictValid = s.dictValid := rfl
@[simp] theorem setFreq_wacc (s : State) (sym : Sym) (w : Word32) : (s.setFreq sym w).wacc = s.wacc := rfl
@[simp] theorem setFreq_wcnt (s : State) (sym : Sym) (w : Word32) : (s.setFreq sym w).wcnt = s.wcnt := rfl
@[simp] theorem setFreq_rbyte (s : State) (sym : Sym) (w : Word32) : (s.setFreq sym w).rbyte = s.rbyte := rfl
@[simp] theorem setFreq_rmask (s : State) (sym : Sym) (w : Word32) : (s.setFreq sym w).rmask = s.rmask := rfl
@[simp] theorem setFreq_rdata (s : State) (sym : Sym) (w : Word32) : (s.setFreq sym w).rdata = s.rdata := rfl
@[simp] theorem setFreq_dcount (s : State) (sym : Sym) (w : Word32) : (s.setFreq sym w).dcount = s.dcount := rfl
@[simp] theorem setFreq_clen (s : State) (sym : Sym) (w : Word32) : (s.setFreq sym w).clen = s.clen := rfl
@[simp] theorem setFreq_cand (s : State) (sym : Sym) (w : Word32) : (s.setFreq sym w).cand = s.cand := rfl
@[simp] theorem setFreq_incnt (s : State) (sym : Sym) (w : Word32) : (s.setFreq sym w).incnt = s.incnt := rfl
@[simp] theorem setFreq_outcnt (s : State) (sym : Sym) (w : Word32) : (s.setFreq sym w).outcnt = s.outcnt := rfl
@[simp] theorem setFreq_engine (s : State) (sym : Sym) (w : Word32) : (s.setFreq sym w).engine = s.engine := rfl
@[simp] theorem setFreq_err (s : State) (sym : Sym) (w : Word32) : (s.setFreq sym w).err = s.err := rfl
@[simp] theorem setFreq_errcode (s : State) (sym : Sym) (w : Word32) : (s.setFreq sym w).errcode = s.errcode := rfl
@[simp] theorem setFreq_errop (s : State) (sym : Sym) (w : Word32) : (s.setFreq sym w).errop = s.errop := rfl
@[simp] theorem setFreq_errinfo (s : State) (sym : Sym) (w : Word32) : (s.setFreq sym w).errinfo = s.errinfo := rfl
@[simp] theorem setFreq_inq (s : State) (sym : Sym) (w : Word32) : (s.setFreq sym w).inq = s.inq := rfl
@[simp] theorem setFreq_ineos (s : State) (sym : Sym) (w : Word32) : (s.setFreq sym w).ineos = s.ineos := rfl
@[simp] theorem setFreq_outq (s : State) (sym : Sym) (w : Word32) : (s.setFreq sym w).outq = s.outq := rfl
@[simp] theorem setFreq_params (s : State) (sym : Sym) (w : Word32) : (s.setFreq sym w).params = s.params := rfl
@[simp] theorem setFreq_host (s : State) (sym : Sym) (w : Word32) : (s.setFreq sym w).host = s.host := rfl

/-! ### `setLen` -/

@[simp] theorem setLen_freq (s : State) (sym : Sym) (v : Byte) : (s.setLen sym v).freq = s.freq := rfl
@[simp] theorem setLen_node (s : State) (sym : Sym) (v : Byte) : (s.setLen sym v).node = s.node := rfl
@[simp] theorem setLen_nleaf (s : State) (sym : Sym) (v : Byte) : (s.setLen sym v).nleaf = s.nleaf := rfl
@[simp] theorem setLen_nnodes (s : State) (sym : Sym) (v : Byte) : (s.setLen sym v).nnodes = s.nnodes := rfl
@[simp] theorem setLen_root (s : State) (sym : Sym) (v : Byte) : (s.setLen sym v).root = s.root := rfl
@[simp] theorem setLen_pq (s : State) (sym : Sym) (v : Byte) : (s.setLen sym v).pq = s.pq := rfl
@[simp] theorem setLen_len (s : State) (sym : Sym) (v : Byte) : (s.setLen sym v).len = s.len.set sym.toNat v sym.isLt := rfl
@[simp] theorem setLen_code (s : State) (sym : Sym) (v : Byte) : (s.setLen sym v).code = s.code := rfl
@[simp] theorem setLen_maxlen (s : State) (sym : Sym) (v : Byte) : (s.setLen sym v).maxlen = s.maxlen := rfl
@[simp] theorem setLen_treeValid (s : State) (sym : Sym) (v : Byte) : (s.setLen sym v).treeValid = s.treeValid := rfl
@[simp] theorem setLen_preValid (s : State) (sym : Sym) (v : Byte) : (s.setLen sym v).preValid = s.preValid := rfl
@[simp] theorem setLen_dictValid (s : State) (sym : Sym) (v : Byte) : (s.setLen sym v).dictValid = s.dictValid := rfl
@[simp] theorem setLen_wacc (s : State) (sym : Sym) (v : Byte) : (s.setLen sym v).wacc = s.wacc := rfl
@[simp] theorem setLen_wcnt (s : State) (sym : Sym) (v : Byte) : (s.setLen sym v).wcnt = s.wcnt := rfl
@[simp] theorem setLen_rbyte (s : State) (sym : Sym) (v : Byte) : (s.setLen sym v).rbyte = s.rbyte := rfl
@[simp] theorem setLen_rmask (s : State) (sym : Sym) (v : Byte) : (s.setLen sym v).rmask = s.rmask := rfl
@[simp] theorem setLen_rdata (s : State) (sym : Sym) (v : Byte) : (s.setLen sym v).rdata = s.rdata := rfl
@[simp] theorem setLen_dcount (s : State) (sym : Sym) (v : Byte) : (s.setLen sym v).dcount = s.dcount := rfl
@[simp] theorem setLen_clen (s : State) (sym : Sym) (v : Byte) : (s.setLen sym v).clen = s.clen := rfl
@[simp] theorem setLen_cand (s : State) (sym : Sym) (v : Byte) : (s.setLen sym v).cand = s.cand := rfl
@[simp] theorem setLen_incnt (s : State) (sym : Sym) (v : Byte) : (s.setLen sym v).incnt = s.incnt := rfl
@[simp] theorem setLen_outcnt (s : State) (sym : Sym) (v : Byte) : (s.setLen sym v).outcnt = s.outcnt := rfl
@[simp] theorem setLen_engine (s : State) (sym : Sym) (v : Byte) : (s.setLen sym v).engine = s.engine := rfl
@[simp] theorem setLen_err (s : State) (sym : Sym) (v : Byte) : (s.setLen sym v).err = s.err := rfl
@[simp] theorem setLen_errcode (s : State) (sym : Sym) (v : Byte) : (s.setLen sym v).errcode = s.errcode := rfl
@[simp] theorem setLen_errop (s : State) (sym : Sym) (v : Byte) : (s.setLen sym v).errop = s.errop := rfl
@[simp] theorem setLen_errinfo (s : State) (sym : Sym) (v : Byte) : (s.setLen sym v).errinfo = s.errinfo := rfl
@[simp] theorem setLen_inq (s : State) (sym : Sym) (v : Byte) : (s.setLen sym v).inq = s.inq := rfl
@[simp] theorem setLen_ineos (s : State) (sym : Sym) (v : Byte) : (s.setLen sym v).ineos = s.ineos := rfl
@[simp] theorem setLen_outq (s : State) (sym : Sym) (v : Byte) : (s.setLen sym v).outq = s.outq := rfl
@[simp] theorem setLen_params (s : State) (sym : Sym) (v : Byte) : (s.setLen sym v).params = s.params := rfl
@[simp] theorem setLen_host (s : State) (sym : Sym) (v : Byte) : (s.setLen sym v).host = s.host := rfl

/-! ### `setCode` -/

@[simp] theorem setCode_freq (s : State) (sym : Sym) (v : CodeWord) : (s.setCode sym v).freq = s.freq := rfl
@[simp] theorem setCode_node (s : State) (sym : Sym) (v : CodeWord) : (s.setCode sym v).node = s.node := rfl
@[simp] theorem setCode_nleaf (s : State) (sym : Sym) (v : CodeWord) : (s.setCode sym v).nleaf = s.nleaf := rfl
@[simp] theorem setCode_nnodes (s : State) (sym : Sym) (v : CodeWord) : (s.setCode sym v).nnodes = s.nnodes := rfl
@[simp] theorem setCode_root (s : State) (sym : Sym) (v : CodeWord) : (s.setCode sym v).root = s.root := rfl
@[simp] theorem setCode_pq (s : State) (sym : Sym) (v : CodeWord) : (s.setCode sym v).pq = s.pq := rfl
@[simp] theorem setCode_len (s : State) (sym : Sym) (v : CodeWord) : (s.setCode sym v).len = s.len := rfl
@[simp] theorem setCode_code (s : State) (sym : Sym) (v : CodeWord) : (s.setCode sym v).code = s.code.set sym.toNat v sym.isLt := rfl
@[simp] theorem setCode_maxlen (s : State) (sym : Sym) (v : CodeWord) : (s.setCode sym v).maxlen = s.maxlen := rfl
@[simp] theorem setCode_treeValid (s : State) (sym : Sym) (v : CodeWord) : (s.setCode sym v).treeValid = s.treeValid := rfl
@[simp] theorem setCode_preValid (s : State) (sym : Sym) (v : CodeWord) : (s.setCode sym v).preValid = s.preValid := rfl
@[simp] theorem setCode_dictValid (s : State) (sym : Sym) (v : CodeWord) : (s.setCode sym v).dictValid = s.dictValid := rfl
@[simp] theorem setCode_wacc (s : State) (sym : Sym) (v : CodeWord) : (s.setCode sym v).wacc = s.wacc := rfl
@[simp] theorem setCode_wcnt (s : State) (sym : Sym) (v : CodeWord) : (s.setCode sym v).wcnt = s.wcnt := rfl
@[simp] theorem setCode_rbyte (s : State) (sym : Sym) (v : CodeWord) : (s.setCode sym v).rbyte = s.rbyte := rfl
@[simp] theorem setCode_rmask (s : State) (sym : Sym) (v : CodeWord) : (s.setCode sym v).rmask = s.rmask := rfl
@[simp] theorem setCode_rdata (s : State) (sym : Sym) (v : CodeWord) : (s.setCode sym v).rdata = s.rdata := rfl
@[simp] theorem setCode_dcount (s : State) (sym : Sym) (v : CodeWord) : (s.setCode sym v).dcount = s.dcount := rfl
@[simp] theorem setCode_clen (s : State) (sym : Sym) (v : CodeWord) : (s.setCode sym v).clen = s.clen := rfl
@[simp] theorem setCode_cand (s : State) (sym : Sym) (v : CodeWord) : (s.setCode sym v).cand = s.cand := rfl
@[simp] theorem setCode_incnt (s : State) (sym : Sym) (v : CodeWord) : (s.setCode sym v).incnt = s.incnt := rfl
@[simp] theorem setCode_outcnt (s : State) (sym : Sym) (v : CodeWord) : (s.setCode sym v).outcnt = s.outcnt := rfl
@[simp] theorem setCode_engine (s : State) (sym : Sym) (v : CodeWord) : (s.setCode sym v).engine = s.engine := rfl
@[simp] theorem setCode_err (s : State) (sym : Sym) (v : CodeWord) : (s.setCode sym v).err = s.err := rfl
@[simp] theorem setCode_errcode (s : State) (sym : Sym) (v : CodeWord) : (s.setCode sym v).errcode = s.errcode := rfl
@[simp] theorem setCode_errop (s : State) (sym : Sym) (v : CodeWord) : (s.setCode sym v).errop = s.errop := rfl
@[simp] theorem setCode_errinfo (s : State) (sym : Sym) (v : CodeWord) : (s.setCode sym v).errinfo = s.errinfo := rfl
@[simp] theorem setCode_inq (s : State) (sym : Sym) (v : CodeWord) : (s.setCode sym v).inq = s.inq := rfl
@[simp] theorem setCode_ineos (s : State) (sym : Sym) (v : CodeWord) : (s.setCode sym v).ineos = s.ineos := rfl
@[simp] theorem setCode_outq (s : State) (sym : Sym) (v : CodeWord) : (s.setCode sym v).outq = s.outq := rfl
@[simp] theorem setCode_params (s : State) (sym : Sym) (v : CodeWord) : (s.setCode sym v).params = s.params := rfl
@[simp] theorem setCode_host (s : State) (sym : Sym) (v : CodeWord) : (s.setCode sym v).host = s.host := rfl

/-! ### `clearDict` -/

@[simp] theorem clearDict_freq (s : State) : (s.clearDict).freq = s.freq := rfl
@[simp] theorem clearDict_node (s : State) : (s.clearDict).node = s.node := rfl
@[simp] theorem clearDict_nleaf (s : State) : (s.clearDict).nleaf = s.nleaf := rfl
@[simp] theorem clearDict_nnodes (s : State) : (s.clearDict).nnodes = s.nnodes := rfl
@[simp] theorem clearDict_root (s : State) : (s.clearDict).root = s.root := rfl
@[simp] theorem clearDict_pq (s : State) : (s.clearDict).pq = s.pq := rfl
@[simp] theorem clearDict_len (s : State) : (s.clearDict).len = Vector.replicate 256 0 := rfl
@[simp] theorem clearDict_code (s : State) : (s.clearDict).code = Vector.replicate 256 0 := rfl
@[simp] theorem clearDict_maxlen (s : State) : (s.clearDict).maxlen = s.maxlen := rfl
@[simp] theorem clearDict_treeValid (s : State) : (s.clearDict).treeValid = s.treeValid := rfl
@[simp] theorem clearDict_preValid (s : State) : (s.clearDict).preValid = s.preValid := rfl
@[simp] theorem clearDict_dictValid (s : State) : (s.clearDict).dictValid = s.dictValid := rfl
@[simp] theorem clearDict_wacc (s : State) : (s.clearDict).wacc = s.wacc := rfl
@[simp] theorem clearDict_wcnt (s : State) : (s.clearDict).wcnt = s.wcnt := rfl
@[simp] theorem clearDict_rbyte (s : State) : (s.clearDict).rbyte = s.rbyte := rfl
@[simp] theorem clearDict_rmask (s : State) : (s.clearDict).rmask = s.rmask := rfl
@[simp] theorem clearDict_rdata (s : State) : (s.clearDict).rdata = s.rdata := rfl
@[simp] theorem clearDict_dcount (s : State) : (s.clearDict).dcount = s.dcount := rfl
@[simp] theorem clearDict_clen (s : State) : (s.clearDict).clen = s.clen := rfl
@[simp] theorem clearDict_cand (s : State) : (s.clearDict).cand = s.cand := rfl
@[simp] theorem clearDict_incnt (s : State) : (s.clearDict).incnt = s.incnt := rfl
@[simp] theorem clearDict_outcnt (s : State) : (s.clearDict).outcnt = s.outcnt := rfl
@[simp] theorem clearDict_engine (s : State) : (s.clearDict).engine = s.engine := rfl
@[simp] theorem clearDict_err (s : State) : (s.clearDict).err = s.err := rfl
@[simp] theorem clearDict_errcode (s : State) : (s.clearDict).errcode = s.errcode := rfl
@[simp] theorem clearDict_errop (s : State) : (s.clearDict).errop = s.errop := rfl
@[simp] theorem clearDict_errinfo (s : State) : (s.clearDict).errinfo = s.errinfo := rfl
@[simp] theorem clearDict_inq (s : State) : (s.clearDict).inq = s.inq := rfl
@[simp] theorem clearDict_ineos (s : State) : (s.clearDict).ineos = s.ineos := rfl
@[simp] theorem clearDict_outq (s : State) : (s.clearDict).outq = s.outq := rfl
@[simp] theorem clearDict_params (s : State) : (s.clearDict).params = s.params := rfl
@[simp] theorem clearDict_host (s : State) : (s.clearDict).host = s.host := rfl

/-! ### `rAlign` -/

@[simp] theorem rAlign_freq (s : State) : (s.rAlign).freq = s.freq := rfl
@[simp] theorem rAlign_node (s : State) : (s.rAlign).node = s.node := rfl
@[simp] theorem rAlign_nleaf (s : State) : (s.rAlign).nleaf = s.nleaf := rfl
@[simp] theorem rAlign_nnodes (s : State) : (s.rAlign).nnodes = s.nnodes := rfl
@[simp] theorem rAlign_root (s : State) : (s.rAlign).root = s.root := rfl
@[simp] theorem rAlign_pq (s : State) : (s.rAlign).pq = s.pq := rfl
@[simp] theorem rAlign_len (s : State) : (s.rAlign).len = s.len := rfl
@[simp] theorem rAlign_code (s : State) : (s.rAlign).code = s.code := rfl
@[simp] theorem rAlign_maxlen (s : State) : (s.rAlign).maxlen = s.maxlen := rfl
@[simp] theorem rAlign_treeValid (s : State) : (s.rAlign).treeValid = s.treeValid := rfl
@[simp] theorem rAlign_preValid (s : State) : (s.rAlign).preValid = s.preValid := rfl
@[simp] theorem rAlign_dictValid (s : State) : (s.rAlign).dictValid = s.dictValid := rfl
@[simp] theorem rAlign_wacc (s : State) : (s.rAlign).wacc = s.wacc := rfl
@[simp] theorem rAlign_wcnt (s : State) : (s.rAlign).wcnt = s.wcnt := rfl
@[simp] theorem rAlign_rbyte (s : State) : (s.rAlign).rbyte = s.rbyte := rfl
@[simp] theorem rAlign_rmask (s : State) : (s.rAlign).rmask = 0 := rfl
@[simp] theorem rAlign_rdata (s : State) : (s.rAlign).rdata = s.rdata := rfl
@[simp] theorem rAlign_dcount (s : State) : (s.rAlign).dcount = s.dcount := rfl
@[simp] theorem rAlign_clen (s : State) : (s.rAlign).clen = s.clen := rfl
@[simp] theorem rAlign_cand (s : State) : (s.rAlign).cand = s.cand := rfl
@[simp] theorem rAlign_incnt (s : State) : (s.rAlign).incnt = s.incnt := rfl
@[simp] theorem rAlign_outcnt (s : State) : (s.rAlign).outcnt = s.outcnt := rfl
@[simp] theorem rAlign_engine (s : State) : (s.rAlign).engine = s.engine := rfl
@[simp] theorem rAlign_err (s : State) : (s.rAlign).err = s.err := rfl
@[simp] theorem rAlign_errcode (s : State) : (s.rAlign).errcode = s.errcode := rfl
@[simp] theorem rAlign_errop (s : State) : (s.rAlign).errop = s.errop := rfl
@[simp] theorem rAlign_errinfo (s : State) : (s.rAlign).errinfo = s.errinfo := rfl
@[simp] theorem rAlign_inq (s : State) : (s.rAlign).inq = s.inq := rfl
@[simp] theorem rAlign_ineos (s : State) : (s.rAlign).ineos = s.ineos := rfl
@[simp] theorem rAlign_outq (s : State) : (s.rAlign).outq = s.outq := rfl
@[simp] theorem rAlign_params (s : State) : (s.rAlign).params = s.params := rfl
@[simp] theorem rAlign_host (s : State) : (s.rAlign).host = s.host := rfl

/-! ### `withScript` -/

@[simp] theorem withScript_freq (s : State) (script : List HostAction) : (s.withScript script).freq = s.freq := rfl
@[simp] theorem withScript_node (s : State) (script : List HostAction) : (s.withScript script).node = s.node := rfl
@[simp] theorem withScript_nleaf (s : State) (script : List HostAction) : (s.withScript script).nleaf = s.nleaf := rfl
@[simp] theorem withScript_nnodes (s : State) (script : List HostAction) : (s.withScript script).nnodes = s.nnodes := rfl
@[simp] theorem withScript_root (s : State) (script : List HostAction) : (s.withScript script).root = s.root := rfl
@[simp] theorem withScript_pq (s : State) (script : List HostAction) : (s.withScript script).pq = s.pq := rfl
@[simp] theorem withScript_len (s : State) (script : List HostAction) : (s.withScript script).len = s.len := rfl
@[simp] theorem withScript_code (s : State) (script : List HostAction) : (s.withScript script).code = s.code := rfl
@[simp] theorem withScript_maxlen (s : State) (script : List HostAction) : (s.withScript script).maxlen = s.maxlen := rfl
@[simp] theorem withScript_treeValid (s : State) (script : List HostAction) : (s.withScript script).treeValid = s.treeValid := rfl
@[simp] theorem withScript_preValid (s : State) (script : List HostAction) : (s.withScript script).preValid = s.preValid := rfl
@[simp] theorem withScript_dictValid (s : State) (script : List HostAction) : (s.withScript script).dictValid = s.dictValid := rfl
@[simp] theorem withScript_wacc (s : State) (script : List HostAction) : (s.withScript script).wacc = s.wacc := rfl
@[simp] theorem withScript_wcnt (s : State) (script : List HostAction) : (s.withScript script).wcnt = s.wcnt := rfl
@[simp] theorem withScript_rbyte (s : State) (script : List HostAction) : (s.withScript script).rbyte = s.rbyte := rfl
@[simp] theorem withScript_rmask (s : State) (script : List HostAction) : (s.withScript script).rmask = s.rmask := rfl
@[simp] theorem withScript_rdata (s : State) (script : List HostAction) : (s.withScript script).rdata = s.rdata := rfl
@[simp] theorem withScript_dcount (s : State) (script : List HostAction) : (s.withScript script).dcount = s.dcount := rfl
@[simp] theorem withScript_clen (s : State) (script : List HostAction) : (s.withScript script).clen = s.clen := rfl
@[simp] theorem withScript_cand (s : State) (script : List HostAction) : (s.withScript script).cand = s.cand := rfl
@[simp] theorem withScript_incnt (s : State) (script : List HostAction) : (s.withScript script).incnt = s.incnt := rfl
@[simp] theorem withScript_outcnt (s : State) (script : List HostAction) : (s.withScript script).outcnt = s.outcnt := rfl
@[simp] theorem withScript_engine (s : State) (script : List HostAction) : (s.withScript script).engine = s.engine := rfl
@[simp] theorem withScript_err (s : State) (script : List HostAction) : (s.withScript script).err = s.err := rfl
@[simp] theorem withScript_errcode (s : State) (script : List HostAction) : (s.withScript script).errcode = s.errcode := rfl
@[simp] theorem withScript_errop (s : State) (script : List HostAction) : (s.withScript script).errop = s.errop := rfl
@[simp] theorem withScript_errinfo (s : State) (script : List HostAction) : (s.withScript script).errinfo = s.errinfo := rfl
@[simp] theorem withScript_inq (s : State) (script : List HostAction) : (s.withScript script).inq = s.inq := rfl
@[simp] theorem withScript_ineos (s : State) (script : List HostAction) : (s.withScript script).ineos = s.ineos := rfl
@[simp] theorem withScript_outq (s : State) (script : List HostAction) : (s.withScript script).outq = s.outq := rfl
@[simp] theorem withScript_params (s : State) (script : List HostAction) : (s.withScript script).params = s.params := rfl
@[simp] theorem withScript_host (s : State) (script : List HostAction) : (s.withScript script).host = { s.host with script := script } := rfl

/-! ### `resetInternal` -/

@[simp] theorem resetInternal_freq (s : State) : (s.resetInternal).freq = Vector.replicate 256 0 := rfl
@[simp] theorem resetInternal_node (s : State) : (s.resetInternal).node = Vector.replicate 511 Node.zero := rfl
@[simp] theorem resetInternal_nleaf (s : State) : (s.resetInternal).nleaf = 0 := rfl
@[simp] theorem resetInternal_nnodes (s : State) : (s.resetInternal).nnodes = 0 := rfl
@[simp] theorem resetInternal_root (s : State) : (s.resetInternal).root = 0 := rfl
@[simp] theorem resetInternal_pq (s : State) : (s.resetInternal).pq = [] := rfl
@[simp] theorem resetInternal_len (s : State) : (s.resetInternal).len = Vector.replicate 256 0 := rfl
@[simp] theorem resetInternal_code (s : State) : (s.resetInternal).code = Vector.replicate 256 0 := rfl
@[simp] theorem resetInternal_maxlen (s : State) : (s.resetInternal).maxlen = 0 := rfl
@[simp] theorem resetInternal_treeValid (s : State) : (s.resetInternal).treeValid = false := rfl
@[simp] theorem resetInternal_preValid (s : State) : (s.resetInternal).preValid = false := rfl
@[simp] theorem resetInternal_dictValid (s : State) : (s.resetInternal).dictValid = false := rfl
@[simp] theorem resetInternal_wacc (s : State) : (s.resetInternal).wacc = 0 := rfl
@[simp] theorem resetInternal_wcnt (s : State) : (s.resetInternal).wcnt = 0 := rfl
@[simp] theorem resetInternal_rbyte (s : State) : (s.resetInternal).rbyte = 0 := rfl
@[simp] theorem resetInternal_rmask (s : State) : (s.resetInternal).rmask = 0 := rfl
@[simp] theorem resetInternal_rdata (s : State) : (s.resetInternal).rdata = 0 := rfl
@[simp] theorem resetInternal_dcount (s : State) : (s.resetInternal).dcount = 0 := rfl
@[simp] theorem resetInternal_clen (s : State) : (s.resetInternal).clen = 0 := rfl
@[simp] theorem resetInternal_cand (s : State) : (s.resetInternal).cand = 0 := rfl
@[simp] theorem resetInternal_incnt (s : State) : (s.resetInternal).incnt = 0 := rfl
@[simp] theorem resetInternal_outcnt (s : State) : (s.resetInternal).outcnt = 0 := rfl
@[simp] theorem resetInternal_engine (s : State) : (s.resetInternal).engine = .idle := rfl
@[simp] theorem resetInternal_err (s : State) : (s.resetInternal).err = false := rfl
@[simp] theorem resetInternal_errcode (s : State) : (s.resetInternal).errcode = 0 := rfl
@[simp] theorem resetInternal_errop (s : State) : (s.resetInternal).errop = 0 := rfl
@[simp] theorem resetInternal_errinfo (s : State) : (s.resetInternal).errinfo = 0 := rfl
@[simp] theorem resetInternal_inq (s : State) : (s.resetInternal).inq = s.inq := rfl
@[simp] theorem resetInternal_ineos (s : State) : (s.resetInternal).ineos = s.ineos := rfl
@[simp] theorem resetInternal_outq (s : State) : (s.resetInternal).outq = s.outq := rfl
@[simp] theorem resetInternal_params (s : State) : (s.resetInternal).params = s.params := rfl
@[simp] theorem resetInternal_host (s : State) : (s.resetInternal).host = s.host := rfl

/-! ### `powerOn` -/

@[simp] theorem powerOn_freq (s : State) : (s.powerOn).freq = Vector.replicate 256 0 := rfl
@[simp] theorem powerOn_node (s : State) : (s.powerOn).node = Vector.replicate 511 Node.zero := rfl
@[simp] theorem powerOn_nleaf (s : State) : (s.powerOn).nleaf = 0 := rfl
@[simp] theorem powerOn_nnodes (s : State) : (s.powerOn).nnodes = 0 := rfl
@[simp] theorem powerOn_root (s : State) : (s.powerOn).root = 0 := rfl
@[simp] theorem powerOn_pq (s : State) : (s.powerOn).pq = [] := rfl
@[simp] theorem powerOn_len (s : State) : (s.powerOn).len = Vector.replicate 256 0 := rfl
@[simp] theorem powerOn_code (s : State) : (s.powerOn).code = Vector.replicate 256 0 := rfl
@[simp] theorem powerOn_maxlen (s : State) : (s.powerOn).maxlen = 0 := rfl
@[simp] theorem powerOn_treeValid (s : State) : (s.powerOn).treeValid = false := rfl
@[simp] theorem powerOn_preValid (s : State) : (s.powerOn).preValid = false := rfl
@[simp] theorem powerOn_dictValid (s : State) : (s.powerOn).dictValid = false := rfl
@[simp] theorem powerOn_wacc (s : State) : (s.powerOn).wacc = 0 := rfl
@[simp] theorem powerOn_wcnt (s : State) : (s.powerOn).wcnt = 0 := rfl
@[simp] theorem powerOn_rbyte (s : State) : (s.powerOn).rbyte = 0 := rfl
@[simp] theorem powerOn_rmask (s : State) : (s.powerOn).rmask = 0 := rfl
@[simp] theorem powerOn_rdata (s : State) : (s.powerOn).rdata = 0 := rfl
@[simp] theorem powerOn_dcount (s : State) : (s.powerOn).dcount = 0 := rfl
@[simp] theorem powerOn_clen (s : State) : (s.powerOn).clen = 0 := rfl
@[simp] theorem powerOn_cand (s : State) : (s.powerOn).cand = 0 := rfl
@[simp] theorem powerOn_incnt (s : State) : (s.powerOn).incnt = 0 := rfl
@[simp] theorem powerOn_outcnt (s : State) : (s.powerOn).outcnt = 0 := rfl
@[simp] theorem powerOn_engine (s : State) : (s.powerOn).engine = .idle := rfl
@[simp] theorem powerOn_err (s : State) : (s.powerOn).err = false := rfl
@[simp] theorem powerOn_errcode (s : State) : (s.powerOn).errcode = 0 := rfl
@[simp] theorem powerOn_errop (s : State) : (s.powerOn).errop = 0 := rfl
@[simp] theorem powerOn_errinfo (s : State) : (s.powerOn).errinfo = 0 := rfl
@[simp] theorem powerOn_inq (s : State) : (s.powerOn).inq = [] := rfl
@[simp] theorem powerOn_ineos (s : State) : (s.powerOn).ineos = false := rfl
@[simp] theorem powerOn_outq (s : State) : (s.powerOn).outq = [] := rfl
@[simp] theorem powerOn_params (s : State) : (s.powerOn).params = s.params := rfl
@[simp] theorem powerOn_host (s : State) : (s.powerOn).host = s.host := rfl

end Sys2Proof.Machine.State
end

