-- ==== Sys2Proof/Laws/Ops.lean ====
section
/-! SUPPORT. What each shared operation can do: one lemma per operation and answer (20_memory.md R74 to R80). -/

namespace Sys2Proof.Machine

namespace State

/-! ### `InByte`, `OutByte` (R74, R75) -/

theorem inByte_byte {s t : State} {b : Byte} :
    s.inByte = .byte b t ↔ ∃ rest, s.inq = b :: rest ∧ t = s.takeIn rest := by
  unfold inByte
  split
  · next x rest h => simp [h, eq_comm]
  · next h => split <;> simp [h]

theorem inByte_exhausted {s : State} : s.inByte = .exhausted ↔ s.inq = [] ∧ s.ineos = true := by
  unfold inByte
  split
  · next x rest h => simp [h]
  · next h => split <;> simp_all

theorem inByte_hold {s : State} : s.inByte = .hold ↔ s.inq = [] ∧ s.ineos = false := by
  unfold inByte
  split
  · next x rest h => simp [h]
  · next h => split <;> simp_all

theorem outByte_some {s t : State} {v : Byte} :
    s.outByte v = some t ↔ s.outq.length < s.params.outDepth ∧ t = s.putOut v := by
  unfold outByte
  split <;> simp_all [eq_comm]

theorem outByte_none {s : State} {v : Byte} : s.outByte v = none ↔ s.params.outDepth ≤ s.outq.length := by
  unfold outByte
  split <;> simp_all

/-! ### `PushBit`, `Finish` (R76, R78) -/

/-- `PushBit` either shifts the bit in, or completes a byte and emits it. -/
theorem pushBit_some {s t : State} {b : Bool} : s.pushBit b = some t ↔
    (s.wcnt + 1 ≠ 8 ∧ t = s.setWriter (shiftIn s.wacc b) (s.wcnt + 1)) ∨
    (s.wcnt + 1 = 8 ∧ s.outq.length < s.params.outDepth ∧
      t = (s.putOut (shiftIn s.wacc b)).setWriter 0 0) := by
  unfold pushBit
  dsimp only
  split
  · next h => simp only [Option.map_eq_some_iff, outByte_some]; grind
  · next h => simp only [Option.some.injEq]; grind

theorem pushBit_none {s : State} {b : Bool} :
    s.pushBit b = none ↔ s.wcnt + 1 = 8 ∧ s.params.outDepth ≤ s.outq.length := by
  unfold pushBit
  dsimp only
  split
  · next h => simp only [Option.map_eq_none_iff, outByte_none]; grind
  · next h => grind

theorem finish_some {s t : State} : s.finish = some t ↔
    (s.wcnt = 0 ∧ t = s) ∨
    (s.wcnt ≠ 0 ∧ s.outq.length < s.params.outDepth ∧ t = (s.putOut (paddedByte s)).setWriter 0 0) := by
  unfold finish
  split
  · next h => simp only [Option.some.injEq]; grind
  · next h => simp only [Option.map_eq_some_iff, outByte_some]; grind

theorem finish_none {s : State} : s.finish = none ↔ s.wcnt ≠ 0 ∧ s.params.outDepth ≤ s.outq.length := by
  unfold finish
  split
  · next h => grind
  · next h => simp only [Option.map_eq_none_iff, outByte_none]; grind

/-! ### `NextBit` (R79) -/

/-- The reader's registers hold what was written last. -/
@[simp] theorem setReader_setReader (s : State) (a b c d : Byte) : (s.setReader a b).setReader c d = s.setReader c d := rfl

/-- `NextBit` gives the bit under the mask, or fetches a byte and gives its top bit. -/
theorem nextBit_bit {s t : State} {b : Bool} : s.nextBit = .bit b t ↔
    (s.rmask ≠ 0 ∧ b = decide (s.rbyte &&& s.rmask ≠ 0) ∧ t = s.setReader s.rbyte (s.rmask >>> 1)) ∨
    (s.rmask = 0 ∧ ∃ x rest, s.inq = x :: rest ∧ b = decide (x &&& 0x80 ≠ 0) ∧
      t = (s.takeIn rest).setReader x 0x40) := by
  unfold nextBit inByte readBit
  split
  · next h =>
    cases s.inq with
    | nil => cases s.ineos <;> simp [h]
    | cons x rest =>
      have e : (0x80 : Byte) >>> 1 = 0x40 := by decide
      simp only [setReader_rbyte, setReader_rmask, setReader_setReader, e]
      constructor
      · intro hb
        injection hb with hb ht
        exact .inr ⟨h, x, rest, rfl, hb.symm, ht.symm⟩
      · rintro (⟨hn, -⟩ | ⟨-, y, r, he, rfl, rfl⟩)
        · exact absurd h hn
        · injection he with h1 h2
          subst h1 h2
          rfl
  · next h => simp only [BitRead.bit.injEq]; grind

theorem nextBit_exhausted {s : State} : s.nextBit = .exhausted ↔ s.rmask = 0 ∧ s.inq = [] ∧ s.ineos = true := by
  unfold nextBit inByte readBit
  split
  · next h => cases s.inq <;> cases s.ineos <;> simp [h]
  · next h => simp only [reduceCtorEq, false_iff]; grind

theorem nextBit_hold {s : State} : s.nextBit = .hold ↔ s.rmask = 0 ∧ s.inq = [] ∧ s.ineos = false := by
  unfold nextBit inByte readBit
  split
  · next h => cases s.inq <;> cases s.ineos <;> simp [h]
  · next h => simp only [reduceCtorEq, false_iff]; grind

/-! ### The arrays -/

@[simp] theorem freqOf_setFreq (s : State) (a b : Sym) (w : Word32) :
    (s.setFreq a w).freqOf b = if a = b then w else s.freqOf b := by
  simp [freqOf, setFreq, Vector.getElem_set, BitVec.toNat_inj]

@[simp] theorem lenOf_setLen (s : State) (a b : Sym) (v : Byte) :
    (s.setLen a v).lenOf b = if a = b then v else s.lenOf b := by
  simp [lenOf, setLen, Vector.getElem_set, BitVec.toNat_inj]

@[simp] theorem codeOf_setLen (s : State) (a b : Sym) (v : Byte) : (s.setLen a v).codeOf b = s.codeOf b := rfl

@[simp] theorem codeOf_setCode (s : State) (a b : Sym) (v : CodeWord) :
    (s.setCode a v).codeOf b = if a = b then v else s.codeOf b := by
  simp [codeOf, setCode, Vector.getElem_set, BitVec.toNat_inj]

@[simp] theorem lenOf_setCode (s : State) (a b : Sym) (v : CodeWord) : (s.setCode a v).lenOf b = s.lenOf b := rfl

@[simp] theorem lenOf_clearDict (s : State) (b : Sym) : s.clearDict.lenOf b = 0 := by
  simp [lenOf, clearDict]

@[simp] theorem codeOf_clearDict (s : State) (b : Sym) : s.clearDict.codeOf b = 0 := by
  simp [codeOf, clearDict]

/-- Whether a symbol is coded, its code string and its length are read off `LEN` and `CODE` alone. -/
theorem codeBits_congr {s t : State} (hl : t.len = s.len) (hc : t.code = s.code) (a : Sym) :
    t.codeBits a = s.codeBits a ∧ t.coded a = s.coded a ∧ t.lenOf a = s.lenOf a ∧ t.codeOf a = s.codeOf a := by
  unfold codeBits coded lenOf codeOf
  rw [hl, hc]
  exact ⟨rfl, rfl, rfl, rfl⟩

end State

/-- Every symbol is in the list of all symbols. -/
@[simp] theorem mem_allSyms (a : Sym) : a ∈ allSyms := by
  unfold allSyms
  rw [List.mem_map]
  exact ⟨a.toNat, List.mem_range.2 a.isLt, by simp⟩

theorem allSyms_length : allSyms.length = 256 := by simp [allSyms]

theorem allSyms_getElem (k : Nat) (h : k < allSyms.length) : allSyms[k] = BitVec.ofNat 8 k := by
  simp [allSyms]

theorem allSyms_nodup : allSyms.Nodup := by
  unfold allSyms
  refine List.Nodup.map_on ?_ List.nodup_range
  intro a ha b hb h
  have ha' := List.mem_range.1 ha
  have hb' := List.mem_range.1 hb
  have := congrArg BitVec.toNat h
  simpa [Nat.mod_eq_of_lt ha', Nat.mod_eq_of_lt hb'] using this

/-- The arena entry last written is the entry read. -/
theorem nodeAt_setIfInBounds (node : Vector Node 511) (i j : Nat) (n : Node) (h : i < 511) :
    nodeAt (node.setIfInBounds i n) j = if i = j then n else nodeAt node j := by
  unfold nodeAt
  rw [Vector.getElem?_setIfInBounds]
  split <;> simp_all

end Sys2Proof.Machine
end

