-- ==== Sys2Proof/Laws/Engine.lean ====
section
/-! SUPPORT. The engine: what a run of a command's steps can end in, and what no step of a running command writes. -/

namespace Sys2Proof.Machine

/-! ### Running a task (R10, R72) -/

theorem runTask_zero (op : Byte) (t : Task) (s : State) : runTask op 0 t s = s.park op t := rfl

theorem runTask_go {op : Byte} {n : Nat} {t t' : Task} {s s' : State} (h : t.step s = .go t' s') :
    runTask op (n + 1) t s = runTask op n t' s' := by
  rw [runTask, h]

theorem runTask_done {op : Byte} {n : Nat} {t : Task} {s s' : State} (h : t.step s = .done s') :
    runTask op (n + 1) t s = s'.endCommand := by
  rw [runTask, h]

theorem runTask_raise {op : Byte} {n : Nat} {t : Task} {s s' : State} {e : ErrName} {info : Word32}
    (h : t.step s = .raise e info s') : runTask op (n + 1) t s = s'.raise op e info := by
  rw [runTask, h]

theorem runTask_hold {op : Byte} {n : Nat} {t : Task} {s : State} (h : t.step s = .hold) :
    runTask op n t s = s.park op t := by
  cases n with
  | zero => rfl
  | succ n => rw [runTask, h]

/-- The induction over a run, once: what every step keeps holds wherever the run ends. -/
theorem runTask_induction (op : Byte) (P : Task → State → Prop) (Q : State → Prop)
    (go : ∀ t s t' s', P t s → t.step s = .go t' s' → P t' s')
    (done : ∀ t s s', P t s → t.step s = .done s' → Q s'.endCommand)
    (raise : ∀ t s e info s', P t s → t.step s = .raise e info s' → Q (s'.raise op e info))
    (park : ∀ t s, P t s → Q (s.park op t)) :
    ∀ n t s, P t s → Q (runTask op n t s) := by
  intro n
  induction n with
  | zero => intro t s h; exact park t s h
  | succ n ih =>
    intro t s h
    cases hs : t.step s with
    | go t' s' => rw [runTask_go hs]; exact ih t' s' (go t s t' s' h hs)
    | done s' => rw [runTask_done hs]; exact done t s s' h hs
    | raise e info s' => rw [runTask_raise hs]; exact raise t s e info s' h hs
    | hold => rw [runTask_hold hs]; exact park t s h

/-- What holds a task: a full OUT queue at an `OutByte`, an empty IN queue without end of input at an `InByte`. -/
def holdsAt (s : State) : Task → Prop
  | .wpre k => k < 256 ∧ s.params.outDepth ≤ s.outq.length
  | .wtab _ => False
  | .enc => s.inq = [] ∧ s.ineos = false
  | .push _ n _ => n ≠ 0 ∧ s.wcnt + 1 = 8 ∧ s.params.outDepth ≤ s.outq.length
  | .finish => s.wcnt ≠ 0 ∧ s.params.outDepth ≤ s.outq.length
  | .rpre k => k < 256 ∧ s.inq = [] ∧ s.ineos = false
  | .rtab _ => False
  | .rtabCode _ n _ => n ≠ 0 ∧ s.rmask = 0 ∧ s.inq = [] ∧ s.ineos = false
  | .dec limit => ¬ (limit ≠ 0 ∧ s.dcount = limit) ∧ s.rmask = 0 ∧ s.inq = [] ∧ s.ineos = false
  | .decEmit _ _ => s.params.outDepth ≤ s.outq.length
  | .rbits n j => j < n ∧ s.rmask = 0 ∧ s.inq = [] ∧ s.ineos = false

/-- A step holds exactly where its task can be held (R72, R74, R75). -/
theorem Task.step_hold {t : Task} {s : State} : t.step s = .hold ↔ holdsAt s t := by
  cases t with
  | wpre k =>
    simp only [Task.step, stepWpre, holdsAt]
    split
    · rw [← State.outByte_none (v := s.lenOf (BitVec.ofNat 8 k))]
      cases s.outByte (s.lenOf (BitVec.ofNat 8 k)) <;> simp [*]
    · simp [*]
  | wtab k =>
    simp only [Task.step, stepWtab, holdsAt]
    split
    · split <;> simp
    · simp
  | enc =>
    simp only [Task.step, stepEnc, holdsAt]
    rw [← State.inByte_hold]
    cases s.inByte with
    | byte b t => dsimp only; split <;> simp
    | exhausted => simp
    | hold => simp
  | push v n after =>
    simp only [Task.step, stepPush, holdsAt]
    cases n with
    | zero => cases after <;> simp [AfterPush.next]
    | succ k =>
      dsimp only
      rw [← State.pushBit_none (b := v.getLsbD k)]
      cases s.pushBit (v.getLsbD k) <;> simp
  | finish =>
    simp only [Task.step, stepFinish, holdsAt]
    rw [← State.finish_none]
    cases s.finish <;> simp
  | rpre k =>
    simp only [Task.step, stepRpre, holdsAt]
    rw [← State.inByte_hold]
    split
    · cases s.inByte <;> simp [*]
    · simp [*]
  | rtab k =>
    simp only [Task.step, stepRtab, endRtab, holdsAt]
    split
    · split <;> simp
    · split <;> simp
  | rtabCode sym n c =>
    simp only [Task.step, stepRtabCode, holdsAt]
    rw [← State.nextBit_hold]
    cases n with
    | zero => simp
    | succ k => cases s.nextBit <;> simp
  | dec limit =>
    simp only [Task.step, stepDec, holdsAt]
    rw [← State.nextBit_hold]
    split
    · next h => simp only [Bool.and_eq_true, decide_eq_true_eq] at h; exact iff_of_false (by simp) fun hn => hn.1 h
    · next h =>
      simp only [Bool.and_eq_true, decide_eq_true_eq] at h
      cases s.nextBit with
      | bit b t => dsimp only; unfold decCandidate; split <;> [skip; split] <;> simp
      | exhausted => dsimp only; unfold decExhausted; split <;> [skip; split] <;> simp
      | hold => exact iff_of_true rfl ⟨h, rfl⟩
  | decEmit limit sym =>
    simp only [Task.step, stepDecEmit, holdsAt]
    rw [← State.outByte_none (v := sym)]
    cases s.outByte sym <;> simp
  | rbits n j =>
    simp only [Task.step, stepRbits, holdsAt]
    rw [← State.nextBit_hold]
    split
    · cases s.nextBit <;> simp [*]
    · simp [*]

/-- A held task stays held when the engine is parked at it. -/
theorem Task.step_hold_park {t u : Task} {op : Byte} {s : State} : t.step (s.park op u) = .hold ↔ t.step s = .hold := by
  rw [Task.step_hold, Task.step_hold]
  cases t <;> rfl

/-- Where the engine waits: it is idle, or its task holds (R72). -/
theorem canAdvance_eq_false {s : State} :
    s.canAdvance = false ↔ s.engine = .idle ∨ ∃ op t, s.engine = .running op t ∧ t.step s = .hold := by
  unfold State.canAdvance
  cases s.engine with
  | idle => simp
  | running op t => cases h : t.step s <;> simp [h]

/-- A run with more turns than its measure ends, raises, or holds: the engine is not left able to go on. -/
theorem runTask_settles (op : Byte) (P : Task → State → Prop) (measure : Task → State → Nat)
    (go : ∀ t s t' s', P t s → t.step s = .go t' s' → P t' s' ∧ measure t' s' < measure t s) :
    ∀ n t s, P t s → measure t s < n → (runTask op n t s).canAdvance = false := by
  intro n
  induction n with
  | zero => intro t s _ h; exact absurd h (Nat.not_lt_zero _)
  | succ n ih =>
    intro t s h hm
    cases hs : t.step s with
    | go t' s' =>
      obtain ⟨h', hlt⟩ := go t s t' s' h hs
      rw [runTask_go hs]
      exact ih t' s' h' (by omega)
    | done s' => rw [runTask_done hs]; rfl
    | raise e info s' => rw [runTask_raise hs]; rfl
    | hold =>
      rw [runTask_hold hs, canAdvance_eq_false]
      exact .inr ⟨op, t, rfl, Task.step_hold_park.2 hs⟩

/-! ### What a running command can write (R45) -/

/-- The state a step leaves, if it does not hold. -/
def Micro.state? : Micro → Option State
  | .go _ s => some s
  | .done s => some s
  | .raise _ _ s => some s
  | .hold => none

/-- `s` with the fields of `t` that some stream command writes. -/
def streamWrites (s t : State) : State :=
  { s with
    len := t.len, code := t.code, maxlen := t.maxlen, preValid := t.preValid, dictValid := t.dictValid,
    wacc := t.wacc, wcnt := t.wcnt, rbyte := t.rbyte, rmask := t.rmask, rdata := t.rdata, dcount := t.dcount,
    clen := t.clen, cand := t.cand, incnt := t.incnt, outcnt := t.outcnt, inq := t.inq, outq := t.outq }

/-- A step of a running command writes only what the rest of the command may (R45). -/
theorem Task.step_writes {t : Task} {s s' : State} (h : (t.step s).state? = some s') : s' = restWrites t s s' := by
  cases t with
  | wpre k =>
    simp only [Task.step, stepWpre] at h
    split at h
    · split at h
      · cases h
      · next ho => obtain ⟨-, rfl⟩ := State.outByte_some.1 ho; cases h; rfl
    · cases h; rfl
  | wtab k =>
    simp only [Task.step, stepWtab] at h
    split at h <;> [split at h; skip] <;> cases h <;> rfl
  | enc =>
    simp only [Task.step, stepEnc] at h
    split at h
    · cases h
    · cases h; rfl
    · next hb =>
      obtain ⟨rest, -, rfl⟩ := State.inByte_byte.1 hb
      split at h <;> cases h <;> rfl
  | push v n after =>
    simp only [Task.step, stepPush] at h
    cases n with
    | zero => cases after <;> cases h <;> rfl
    | succ k =>
      dsimp only at h
      split at h
      · cases h
      · next hp =>
        cases h
        rcases State.pushBit_some.1 hp with ⟨-, rfl⟩ | ⟨-, -, rfl⟩ <;> cases after <;> rfl
  | finish =>
    simp only [Task.step, stepFinish] at h
    split at h
    · cases h
    · next hp =>
      cases h
      rcases State.finish_some.1 hp with ⟨-, rfl⟩ | ⟨-, -, rfl⟩ <;> rfl
  | rpre k =>
    simp only [Task.step, stepRpre] at h
    split at h
    · split at h
      · cases h
      · cases h; rfl
      · next hb => obtain ⟨rest, -, rfl⟩ := State.inByte_byte.1 hb; cases h; rfl
    · cases h; rfl
  | rtab k =>
    simp only [Task.step, stepRtab, endRtab] at h
    split at h
    · split at h <;> cases h <;> rfl
    · split at h <;> cases h <;> rfl
  | rtabCode sym n c =>
    simp only [Task.step, stepRtabCode] at h
    cases n with
    | zero => cases h; rfl
    | succ k =>
      dsimp only at h
      split at h
      · cases h
      · cases h; rfl
      · next hb =>
        cases h
        rcases State.nextBit_bit.1 hb with ⟨-, -, rfl⟩ | ⟨-, x, rest, -, -, rfl⟩ <;> rfl
  | dec limit =>
    simp only [Task.step, stepDec] at h
    split at h
    · cases h; rfl
    · split at h
      · cases h
      · unfold decExhausted at h
        split at h <;> [skip; split at h] <;> cases h <;> rfl
      · next hb =>
        unfold decCandidate at h
        rcases State.nextBit_bit.1 hb with ⟨-, -, rfl⟩ | ⟨-, x, rest, -, -, rfl⟩ <;>
          (split at h <;> [skip; split at h] <;> cases h <;> rfl)
  | decEmit limit sym =>
    simp only [Task.step, stepDecEmit] at h
    split at h
    · cases h
    · next ho => obtain ⟨-, rfl⟩ := State.outByte_some.1 ho; cases h; rfl
  | rbits n j =>
    simp only [Task.step, stepRbits] at h
    split at h
    · split at h
      · cases h
      · cases h; rfl
      · next hb =>
        cases h
        rcases State.nextBit_bit.1 hb with ⟨-, -, rfl⟩ | ⟨-, x, rest, -, -, rfl⟩ <;> rfl
    · cases h; rfl

/-- What is left of a command is what a step of it wrote and what is left after the step. -/
theorem Task.step_go_writes {t t' : Task} {s s' u : State} (h : t.step s = .go t' s') (hu : u = restWrites t' s' u) :
    u = restWrites t s u := by
  have hs : s' = restWrites t s s' := Task.step_writes (by rw [h]; rfl)
  rw [hs] at hu
  cases t with
  | wpre k =>
    simp only [Task.step, stepWpre] at h
    split at h <;> [split at h; skip] <;> cases h
    rw [hu]; rfl
  | wtab k =>
    simp only [Task.step, stepWtab] at h
    split at h <;> [split at h; skip] <;> cases h <;> (rw [hu]; rfl)
  | enc =>
    simp only [Task.step, stepEnc] at h
    split at h <;> [skip; skip; split at h] <;> cases h <;> (rw [hu]; rfl)
  | push v n after =>
    simp only [Task.step, stepPush] at h
    cases n with
    | zero => cases after <;> cases h <;> (rw [hu]; rfl)
    | succ k =>
      dsimp only at h
      split at h <;> cases h
      rw [hu]; cases after <;> rfl
  | finish =>
    simp only [Task.step, stepFinish] at h
    split at h <;> cases h
  | rpre k =>
    simp only [Task.step, stepRpre] at h
    split at h <;> [split at h; skip] <;> cases h
    rw [hu]; rfl
  | rtab k =>
    simp only [Task.step, stepRtab, endRtab] at h
    split at h <;> split at h <;> cases h <;> (rw [hu]; rfl)
  | rtabCode sym n c =>
    simp only [Task.step, stepRtabCode] at h
    cases n with
    | zero => cases h; rw [hu]; rfl
    | succ k =>
      dsimp only at h
      split at h <;> cases h
      rw [hu]; rfl
  | dec limit =>
    simp only [Task.step, stepDec, decExhausted, decCandidate] at h
    split at h
    · cases h
    · split at h <;> [skip; split at h <;> [skip; split at h]; split at h <;> [skip; split at h]] <;> cases h <;>
        (rw [hu]; rfl)
  | decEmit limit sym =>
    simp only [Task.step, stepDecEmit] at h
    split at h <;> cases h
    rw [hu]; rfl
  | rbits n j =>
    simp only [Task.step, stepRbits] at h
    split at h <;> [split at h; skip] <;> cases h
    rw [hu]; rfl

/-- No step of a running command writes the weights, the tree, the error registers, end of input, the parameters or the
host's side. -/
theorem Task.step_frame {t : Task} {s s' : State} (h : (t.step s).state? = some s') : s' = streamWrites s s' := by
  rw [Task.step_writes h]
  cases t with
  | push v n after => cases after <;> rfl
  | _ => rfl

end Sys2Proof.Machine
end

