-- ==== Sys2Proof/Laws/Reader.lean ====
section
/-! SUPPORT. The bit stream reader in terms of bit strings (20_memory.md R62, R79). -/

namespace Sys2Proof.Machine

/-- How many bits a mask leaves unread (R33). -/
def maskCount (m : Byte) : Nat := if m = 0 then 0 else m.toNat.log2 + 1

/-- The masks R44(b) allows. -/
def maskOk (m : Byte) : Bool :=
  m ∈ ([0x00, 0x01, 0x02, 0x04, 0x08, 0x10, 0x20, 0x40, 0x80] : List Byte)

theorem unreadCount_eq (s : State) : unreadCount s = maskCount s.rmask := rfl

theorem readerOk_iff (s : State) : ReaderOk s ↔ maskOk s.rmask = true := by
  unfold ReaderOk maskOk
  rw [decide_eq_true_eq]

/-- A mask is 0 exactly when it leaves no bit. -/
theorem maskCount_eq_zero (m : Byte) : maskCount m = 0 ↔ m = 0 := by
  unfold maskCount
  split
  · next h => exact iff_of_true rfl h
  · next h => exact iff_of_false (Nat.succ_ne_zero _) h

/-- Moving an allowed mask down by `n` places takes `n` bits from its count. -/
theorem mask_shift : ∀ m : Byte, maskOk m = true → ∀ n, n ≤ 8 →
    maskCount (m >>> n) = maskCount m - n ∧ maskOk (m >>> n) = true := by decide +kernel

theorem maskCount_le : ∀ m : Byte, maskCount m ≤ 8 := by decide +kernel

/-- The bit under an allowed mask is the first unread bit, and the rest follow (R33, R79). -/
theorem mask_bits : ∀ m : Byte, maskOk m = true → m ≠ 0 → ∀ x : Byte,
    bits x.toNat (maskCount m) = decide (x &&& m ≠ 0) :: bits x.toNat (maskCount (m >>> 1)) := by decide +kernel

/-- The mask after `c` bits of a fetched byte (R79). -/
theorem fetched_mask : ∀ c, c ≤ 8 → maskCount (0x80#8 >>> c) = 8 - c ∧ maskOk (0x80#8 >>> c) = true := by decide +kernel

theorem byteBits_cons (x : Byte) : byteBits x = decide (x &&& 0x80 ≠ 0) :: bits x.toNat 7 :=
  mask_bits 0x80 rfl (by decide) x

/-- The fields `afterBits` writes while the reader's own bits are enough. -/
theorem afterBits_le {s : State} {n : Nat} (h : n ≤ unreadCount s) :
    afterBits s n = { s with rmask := s.rmask >>> n } := by
  unfold afterBits
  exact if_pos h

/-- The fields `afterBits` writes when bytes are fetched. -/
theorem afterBits_gt {s : State} {n : Nat} (h : unreadCount s < n) :
    afterBits s n =
      { s with
        inq := s.inq.drop ((n - unreadCount s + 7) / 8)
        incnt := s.incnt + BitVec.ofNat 32 ((n - unreadCount s + 7) / 8)
        rbyte := s.inq.getD ((n - unreadCount s + 7) / 8 - 1) 0
        rmask := 0x80#8 >>> (n - unreadCount s - 8 * ((n - unreadCount s + 7) / 8 - 1)) } := by
  unfold afterBits takeBytes
  exact if_neg (by omega)

theorem afterBits_zero (s : State) : afterBits s 0 = s := by
  rw [afterBits_le (Nat.zero_le _)]
  simp

/-- The reader stays on an allowed mask (R44(b)). -/
theorem afterBits_ok {s : State} (h : ReaderOk s) (n : Nat) : ReaderOk (afterBits s n) := by
  rw [readerOk_iff] at *
  by_cases hn : n ≤ unreadCount s
  · rw [afterBits_le hn]
    exact (mask_shift _ h n (le_trans hn (by rw [unreadCount_eq]; exact maskCount_le _))).2
  · rw [afterBits_gt (by omega)]
    exact (fetched_mask _ (by omega)).2

/-- Reading one bit more (R79). -/
theorem afterBits_succ {s : State} (h : ReaderOk s) (n : Nat) : afterBits (afterBits s n) 1 = afterBits s (n + 1) := by
  rw [readerOk_iff] at h
  have hle : unreadCount s ≤ 8 := by rw [unreadCount_eq]; exact maskCount_le _
  by_cases h1 : n + 1 ≤ unreadCount s
  · have hu : unreadCount (afterBits s n) = unreadCount s - n := by
      rw [afterBits_le (by omega), unreadCount_eq, unreadCount_eq]
      exact (mask_shift _ h n (by omega)).1
    rw [afterBits_le (s := afterBits s n) (by omega), afterBits_le (by omega), afterBits_le h1]
    simp only [BitVec.shiftRight_add]
  · by_cases h2 : n = unreadCount s
    · have hu : unreadCount (afterBits s n) = 0 := by
        rw [afterBits_le (by omega), unreadCount_eq]
        refine (mask_shift _ h n (by omega)).1.trans ?_
        rw [h2, unreadCount_eq, Nat.sub_self]
      rw [afterBits_gt (s := afterBits s n) (by omega), hu, afterBits_le (by omega), afterBits_gt (by omega)]
      have e : n + 1 - unreadCount s = 1 := by omega
      rw [e]
    · have hlt : unreadCount s < n := by omega
      have hu := (fetched_mask (n - unreadCount s - 8 * ((n - unreadCount s + 7) / 8 - 1)) (by omega)).1
      have hu' : unreadCount (afterBits s n) = 8 - (n - unreadCount s - 8 * ((n - unreadCount s + 7) / 8 - 1)) := by
        rw [afterBits_gt hlt, unreadCount_eq]; exact hu
      by_cases h3 : (n - unreadCount s) % 8 = 0
      · have e1 : n - unreadCount s - 8 * ((n - unreadCount s + 7) / 8 - 1) = 8 := by omega
        have e2 : (n + 1 - unreadCount s + 7) / 8 = (n - unreadCount s + 7) / 8 + 1 := by omega
        have e3 : n + 1 - unreadCount s - 8 * ((n - unreadCount s + 7) / 8 + 1 - 1) = 1 := by omega
        rw [afterBits_gt (s := afterBits s n) (by omega), hu', e1, afterBits_gt hlt,
          afterBits_gt (n := n + 1) (by omega), e2, e3]
        simp only [List.drop_drop, BitVec.ofNat_add, BitVec.add_assoc, List.getD_eq_getElem?_getD, List.getElem?_drop]
        rfl
      · have e2 : (n + 1 - unreadCount s + 7) / 8 = (n - unreadCount s + 7) / 8 := by omega
        have e3 : n + 1 - unreadCount s - 8 * ((n - unreadCount s + 7) / 8 - 1) =
            n - unreadCount s - 8 * ((n - unreadCount s + 7) / 8 - 1) + 1 := by omega
        rw [afterBits_le (s := afterBits s n) (by omega), afterBits_gt hlt, afterBits_gt (n := n + 1) (by omega), e2, e3]
        simp only [BitVec.shiftRight_add]

/-- Reading in two parts. -/
theorem afterBits_add {s : State} (h : ReaderOk s) (m n : Nat) : afterBits (afterBits s m) n = afterBits s (m + n) := by
  induction n with
  | zero => rw [afterBits_zero, Nat.add_zero]
  | succ n ih => rw [← afterBits_succ (afterBits_ok h m), ih, afterBits_succ h]; rfl

/-- With a bit on the input, `NextBit` gives the first one and leaves the others (R79). -/
theorem nextBit_reads {s : State} (h : ReaderOk s) {b : Bool} {rest : List Bool} (hb : inputBits s = b :: rest) :
    s.nextBit = .bit b (afterBits s 1) ∧ inputBits (afterBits s 1) = rest := by
  rw [readerOk_iff] at h
  by_cases h0 : s.rmask = 0
  · have hu : unreadCount s = 0 := by rw [unreadCount_eq, maskCount_eq_zero]; exact h0
    cases hq : s.inq with
    | nil => simp [inputBits, hu, hq] at hb
    | cons x q =>
      have e : afterBits s 1 = (s.takeIn q).setReader x 0x40 := by
        rw [afterBits_gt (by omega), hu, hq]
        rfl
      simp only [inputBits, hu, bits_zero, hq, List.nil_append, List.flatMap_cons, byteBits_cons,
        List.cons_append, List.cons.injEq] at hb
      refine ⟨State.nextBit_bit.2 (.inr ⟨h0, x, q, hq, hb.1.symm, e⟩), ?_⟩
      have hc : maskCount 0x40 = 7 := by decide
      rw [e, ← hb.2, inputBits, unreadCount_eq]
      simp only [State.setReader_rmask, State.setReader_rbyte, State.setReader_inq, State.takeIn_inq, hc]
  · have hmb := mask_bits s.rmask h h0 s.rbyte
    have hpos : 1 ≤ unreadCount s := by
      rw [unreadCount_eq]
      have := mt (maskCount_eq_zero s.rmask).1 h0
      omega
    rw [inputBits, unreadCount_eq, hmb, List.cons_append, List.cons.injEq] at hb
    have e : afterBits s 1 = s.setReader s.rbyte (s.rmask >>> 1) := afterBits_le hpos
    refine ⟨State.nextBit_bit.2 (.inl ⟨h0, hb.1.symm, e⟩), ?_⟩
    rw [e, ← hb.2]
    rfl

/-- `NextBit` gives a bit only when there is one (R79). -/
theorem nextBit_input {s t : State} (h : ReaderOk s) {b : Bool} (hb : s.nextBit = .bit b t) :
    t = afterBits s 1 ∧ inputBits s = b :: inputBits t := by
  cases hi : inputBits s with
  | nil =>
    exfalso
    rcases State.nextBit_bit.1 hb with ⟨h0, -⟩ | ⟨-, x, rest, hq, -⟩
    · rw [readerOk_iff] at h
      rw [inputBits, unreadCount_eq, mask_bits _ h h0] at hi
      simp at hi
    · simp [inputBits, hq, byteBits_cons] at hi
  | cons c rest =>
    obtain ⟨h1, h2⟩ := nextBit_reads h hi
    rw [h1] at hb
    injection hb with hc ht
    exact ⟨ht.symm, by rw [← hc, ← ht, h2]⟩

/-- With no bit on the input, `NextBit` reports exhaustion or holds (R79). -/
theorem nextBit_empty {s : State} (h : ReaderOk s) (hi : inputBits s = []) :
    s.nextBit = if s.ineos then .exhausted else .hold := by
  have h0 : s.rmask = 0 := by
    by_contra hn
    rw [readerOk_iff] at h
    rw [inputBits, unreadCount_eq, mask_bits _ h hn] at hi
    simp at hi
  have hq : s.inq = [] := by
    cases hq : s.inq with
    | nil => rfl
    | cons x q => simp [inputBits, hq, byteBits_cons] at hi
  cases he : s.ineos
  · exact State.nextBit_hold.2 ⟨h0, hq, he⟩
  · exact State.nextBit_exhausted.2 ⟨h0, hq, he⟩

/-- Reading bits drops them from the input (R79). -/
theorem inputBits_afterBits {s : State} (h : ReaderOk s) (n : Nat) (hn : n ≤ (inputBits s).length) :
    inputBits (afterBits s n) = (inputBits s).drop n := by
  induction n with
  | zero => rw [afterBits_zero]; rfl
  | succ n ih =>
    have ih := ih (by omega)
    rw [← afterBits_succ h]
    have hne : (inputBits s).drop n = (inputBits s)[n] :: (inputBits s).drop (n + 1) :=
      List.drop_eq_getElem_cons (by omega)
    exact (nextBit_reads (afterBits_ok h n) (ih.trans hne)).2

end Sys2Proof.Machine
end

