-- ==== Sys2Proof/Laws/Writer.lean ====
section
/-! SUPPORT. The bit stream writer in terms of bit strings (20_memory.md R62, R76 to R78). -/

namespace Sys2Proof.Machine

/-- `((WACC << 1) | b)[7:0]` with room for the bit is `2·WACC + b` (R76). -/
theorem shiftIn_toNat (acc : Byte) (b : Bool) (h : acc.toNat < 2 ^ 7) :
    (shiftIn acc b).toNat = 2 * acc.toNat + b.toNat := by
  have hd : ∀ (a : BitVec 8) (c : Bool), a.toNat < 2 ^ 7 →
      (a <<< 1 ||| (BitVec.ofBool c).setWidth 8).toNat = 2 * a.toNat + c.toNat := by decide
  exact hd acc b h

@[simp] theorem pendingBits_length (s : State) : (pendingBits s).length = s.wcnt.toNat := by simp [pendingBits]

theorem val_pendingBits {s : State} (h : WriterOk s) : val (pendingBits s) = s.wacc.toNat := by
  rw [pendingBits, val_bits, Nat.mod_eq_of_lt h.2]

theorem val_lt_byte (c : List Bool) (h : c.length ≤ 8) : val c < 256 :=
  lt_of_lt_of_le (val_lt c) (le_trans (Nat.pow_le_pow_right (by omega) h) (by norm_num))

/-- Setting the writer to a string of fewer than eight bits makes these the pending bits. -/
theorem pendingBits_of_fields {s : State} (c : List Bool) (hc : c.length < 8)
    (ha : s.wacc = BitVec.ofNat 8 (val c)) (hn : s.wcnt = BitVec.ofNat 4 c.length) :
    pendingBits s = c ∧ WriterOk s := by
  have h1 : s.wacc.toNat = val c := by
    rw [ha, BitVec.toNat_ofNat, Nat.mod_eq_of_lt]
    exact val_lt_byte c (by omega)
  have h2 : s.wcnt.toNat = c.length := by rw [hn, BitVec.toNat_ofNat, Nat.mod_eq_of_lt]; omega
  refine ⟨?_, ?_, ?_⟩
  · rw [pendingBits, h1, h2, bits_val]
  · omega
  · rw [h1, h2]; exact val_lt c

/-- The fields `writeBits` writes. -/
theorem writeBits_eq (s : State) (c : List Bool) : writeBits s c =
    { s with
      outq := s.outq ++ packBytes (pendingBits s ++ c)
      outcnt := s.outcnt + BitVec.ofNat 32 (packBytes (pendingBits s ++ c)).length
      wacc := BitVec.ofNat 8 (val (leftBits (pendingBits s ++ c)))
      wcnt := BitVec.ofNat 4 (leftBits (pendingBits s ++ c)).length } := by
  unfold writeBits emitBytes
  rfl

/-- The fields `flushBits` writes. -/
theorem flushBits_eq (s : State) (c : List Bool) : flushBits s c =
    { s with
      outq := s.outq ++ packBytes (padToByte (pendingBits s ++ c))
      outcnt := s.outcnt + BitVec.ofNat 32 (packBytes (padToByte (pendingBits s ++ c))).length
      wacc := 0, wcnt := 0 } := by
  unfold flushBits emitBytes
  rfl

theorem writeBits_pending (s : State) (c : List Bool) :
    pendingBits (writeBits s c) = leftBits (pendingBits s ++ c) ∧ WriterOk (writeBits s c) := by
  refine pendingBits_of_fields _ ?_ rfl rfl
  rw [leftBits_length]; omega

theorem writer_fields_of_pending {s : State} (h : WriterOk s) :
    s.wacc = BitVec.ofNat 8 (val (pendingBits s)) ∧ s.wcnt = BitVec.ofNat 4 (pendingBits s).length := by
  rw [val_pendingBits h, pendingBits_length]
  simp

/-- Pushing nothing changes nothing. -/
theorem writeBits_nil {s : State} (h : WriterOk s) : writeBits s [] = s := by
  have h7 := h.1
  have hs : leftBits (pendingBits s) = pendingBits s := leftBits_short _ (by simp; omega)
  have hp : packBytes (pendingBits s) = [] := packBytes_short _ (by simp; omega)
  obtain ⟨ha, hn⟩ := writer_fields_of_pending h
  unfold writeBits emitBytes
  simp only [List.append_nil, hs, hp, ← ha, ← hn]
  simp

/-- Pushing one string and then another is pushing them together (R77). -/
theorem writeBits_append {s : State} (c d : List Bool) :
    writeBits (writeBits s c) d = writeBits s (c ++ d) := by
  have hp := (writeBits_pending s c).1
  obtain ⟨h1, h2⟩ := packBytes_append (pendingBits s ++ c) d
  rw [List.append_assoc] at h1 h2
  rw [writeBits_eq (writeBits s c) d, hp]
  simp only [writeBits_eq s, h1, h2, List.append_assoc, List.length_append, BitVec.ofNat_add, BitVec.add_assoc]

/-- `PushBit`, when it does not hold, pushes its bit (R76). -/
theorem pushBit_writes {s t : State} {b : Bool} (w : WriterOk s) (h : s.pushBit b = some t) : t = writeBits s [b] := by
  have h7 := w.1
  have hacc : s.wacc.toNat < 2 ^ 7 := lt_of_lt_of_le w.2 (Nat.pow_le_pow_right (by omega) h7)
  have hsh := shiftIn_toNat s.wacc b hacc
  have hval : val (pendingBits s ++ [b]) = (shiftIn s.wacc b).toNat := by
    rw [val_concat, val_pendingBits w, hsh]
  have hlen : (pendingBits s ++ [b]).length = s.wcnt.toNat + 1 := by simp
  have h8 : s.wcnt + 1 = 8 ↔ s.wcnt.toNat = 7 := by
    have : ∀ x : BitVec 4, x.toNat ≤ 7 → (x + 1 = 8 ↔ x.toNat = 7) := by decide
    exact this _ h7
  rcases State.pushBit_some.1 h with ⟨hn, rfl⟩ | ⟨hn, -, rfl⟩
  · have hlt : s.wcnt.toNat < 7 := by
      have := mt h8.2 hn
      omega
    have hs : leftBits (pendingBits s ++ [b]) = pendingBits s ++ [b] := leftBits_short _ (by omega)
    have hp : packBytes (pendingBits s ++ [b]) = [] := packBytes_short _ (by omega)
    unfold writeBits emitBytes State.setWriter
    simp only [hs, hp, hval, hlen, List.append_nil, List.length_nil, BitVec.ofNat_toNat, BitVec.setWidth_eq,
      BitVec.ofNat_add]
    simp
  · have he : s.wcnt.toNat = 7 := h8.1 hn
    have hp : packBytes (pendingBits s ++ [b]) = [byteOf (pendingBits s ++ [b])] := by
      simpa [packBytes_short] using packBytes_eight (pendingBits s ++ [b]) [] (by omega)
    have hl : leftBits (pendingBits s ++ [b]) = [] := by
      simpa [leftBits_short] using leftBits_eight (pendingBits s ++ [b]) [] (by omega)
    have hb : byteOf (pendingBits s ++ [b]) = shiftIn s.wacc b := by rw [byteOf, hval]; simp
    unfold writeBits emitBytes State.setWriter State.putOut
    simp only [hp, hl, hb]
    rfl

/-- `PushBit` holds only when it completes a byte and OUT is full. -/
theorem pushBit_isSome {s : State} (b : Bool) (w : WriterOk s)
    (room : s.outq.length + (s.wcnt.toNat + 1) / 8 ≤ s.params.outDepth) :
    s.pushBit b = some (writeBits s [b]) := by
  cases h : s.pushBit b with
  | some t => rw [pushBit_writes w h]
  | none =>
    obtain ⟨h8, hfull⟩ := State.pushBit_none.1 h
    have := w.1
    have : ∀ x : BitVec 4, x.toNat ≤ 7 → x + 1 = 8 → x.toNat = 7 := by decide
    have := this _ w.1 h8
    omega

theorem writeBits_outq_length (s : State) (c : List Bool) :
    (writeBits s c).outq.length = s.outq.length + (s.wcnt.toNat + c.length) / 8 := by
  show (s.outq ++ packBytes (pendingBits s ++ c)).length = _
  rw [List.length_append, packBytes_length, List.length_append, pendingBits_length]

theorem writeBits_wcnt (s : State) (c : List Bool) :
    (writeBits s c).wcnt.toNat = (s.wcnt.toNat + c.length) % 8 := by
  have h := pendingBits_length (writeBits s c)
  rw [← h, (writeBits_pending s c).1, leftBits_length, List.length_append, pendingBits_length]

/-- `PushBits(v, n)` with room for its bytes: `n` turns of the engine push its bits (R77). -/
theorem runTask_push (op : Byte) (v : CodeWord) (after : AfterPush) :
    ∀ n m s, WriterOk s → s.outq.length + (s.wcnt.toNat + n) / 8 ≤ s.params.outDepth →
      runTask op (m + n) (.push v n after) s = runTask op m (.push v 0 after) (writeBits s (bits v.toNat n)) := by
  intro n
  induction n with
  | zero => intro m s w _; rw [Nat.add_zero, bits_zero, writeBits_nil w]
  | succ n ih =>
    intro m s w room
    have hb := pushBit_isSome (v.getLsbD n) w (by omega)
    have hs : (Task.push v (n + 1) after).step s = .go (.push v n after) (writeBits s [v.getLsbD n]) := by
      simp only [Task.step, stepPush, hb]
    rw [← Nat.add_assoc, runTask_go hs, ih m _ (writeBits_pending s _).2, writeBits_append, bits_succ]
    · rfl
    · rw [writeBits_outq_length, writeBits_wcnt]
      show _ ≤ s.params.outDepth
      simp only [List.length_singleton]
      omega

/-- `Finish()` with room for its byte pads the pending bits to a byte and flushes it (R78). -/
theorem finish_flushes {s : State} (w : WriterOk s)
    (room : s.outq.length + (s.wcnt.toNat + 7) / 8 ≤ s.params.outDepth) : s.finish = some (flushBits s []) := by
  have h7 := w.1
  by_cases h0 : s.wcnt = 0
  · have hp : pendingBits s = [] := by rw [← List.length_eq_zero_iff]; simp [h0]
    have hacc : s.wacc = 0 := by
      have := w.2
      rw [h0] at this
      have h1 : s.wacc.toNat = 0 := by simpa using this
      exact BitVec.eq_of_toNat_eq h1
    rw [State.finish_some]
    refine .inl ⟨h0, ?_⟩
    unfold flushBits emitBytes
    simp only [hp, List.append_nil]
    have : packBytes (padToByte []) = [] := rfl
    rw [this, ← h0, ← hacc]
    simp
  · have hpos : 0 < s.wcnt.toNat := by
      rcases Nat.eq_zero_or_pos s.wcnt.toNat with h | h
      · exact absurd (BitVec.eq_of_toNat_eq h) h0
      · exact h
    rw [State.finish_some]
    refine .inr ⟨h0, by omega, ?_⟩
    have hlen : (padToByte (pendingBits s)).length = 8 := by rw [padToByte_length, pendingBits_length]; omega
    have hp : packBytes (padToByte (pendingBits s)) = [byteOf (padToByte (pendingBits s))] := by
      simpa [packBytes_short] using packBytes_eight (padToByte (pendingBits s)) [] hlen
    have hpad : padCount s.wcnt.toNat = 8 - s.wcnt.toNat := by unfold padCount; omega
    have hb : byteOf (padToByte (pendingBits s)) = paddedByte s := by
      unfold byteOf padToByte paddedByte
      rw [val_append, val_zeros, val_pendingBits w, pendingBits_length, hpad, zeros_length]
      apply BitVec.eq_of_toNat_eq
      rw [BitVec.toNat_ofNat, BitVec.toNat_shiftLeft, Nat.shiftLeft_eq, Nat.add_zero]
    unfold flushBits emitBytes State.setWriter State.putOut
    simp only [List.append_nil, hp, hb]
    rfl

/-- Finishing after pushing a string flushes it (R77, R78). -/
theorem flushBits_writeBits (s : State) (c : List Bool) : flushBits (writeBits s c) [] = flushBits s c := by
  have hp := (writeBits_pending s c).1
  have hpad : padToByte (leftBits (pendingBits s ++ c)) =
      leftBits (pendingBits s ++ c) ++ zeros (padCount (pendingBits s ++ c).length) := by
    unfold padToByte padCount
    rw [leftBits_length, Nat.mod_mod]
  obtain ⟨h1, -⟩ := packBytes_append (pendingBits s ++ c) (zeros (padCount (pendingBits s ++ c).length))
  rw [← hpad] at h1
  have h2 : packBytes (padToByte (pendingBits s ++ c)) =
      packBytes (pendingBits s ++ c) ++ packBytes (padToByte (leftBits (pendingBits s ++ c))) := h1
  rw [flushBits_eq (writeBits s c) [], List.append_nil, hp]
  simp only [flushBits_eq s, writeBits_eq s, h2, List.append_assoc, List.length_append, BitVec.ofNat_add,
    BitVec.add_assoc]

end Sys2Proof.Machine
end

