-- ==== Sys2Proof/Laws/Invariant.lean ====
section
/-! SUPPORT. A running command keeps the block's invariant, step by step, up to its end, its error or a hold
(10_state.md R44). What each command sets up before its first step is not here. -/

namespace Sys2Proof.Machine

/-- The parts of the invariant that hold between two steps of a running command. -/
structure RunBase (s : State) : Prop where
  writer : WriterOk s
  reader : ReaderOk s
  queue : s.pq = []
  cand : CandOk s
  codes : CodesOk s
  ports : PortsOk s
  tree : TreeOk s
  dict : DictOk s
  err : s.err = false ∧ s.errcode = 0 ∧ s.errop = 0 ∧ s.errinfo = 0

/-- Putting a byte on an OUT queue with room (R75). -/
theorem runBase_putOut {s : State} (v) (h : RunBase s) (ho : s.outq.length < s.params.outDepth) : RunBase (s.putOut v) := by
  refine ⟨h.writer, h.reader, h.queue, h.cand, h.codes, ?_, h.tree, h.dict, h.err⟩
  obtain ⟨a, b, c, d⟩ := h.ports
  refine ⟨a, b, c, ?_⟩
  show (s.outq ++ [v]).length ≤ s.params.outDepth
  simp; omega

/-- Taking the head of the IN queue (R74). -/
theorem runBase_takeIn {s : State} {b rest} (h : RunBase s) (hq : s.inq = b :: rest) : RunBase (s.takeIn rest) := by
  refine ⟨h.writer, h.reader, h.queue, h.cand, h.codes, ?_, h.tree, h.dict, h.err⟩
  obtain ⟨a, b', c, d⟩ := h.ports
  rw [hq] at c
  refine ⟨a, b', ?_, d⟩
  show rest.length ≤ s.params.inDepth
  simp at c; omega

theorem runBase_pushBit {s t : State} {b} (h : RunBase s) (hp : s.pushBit b = some t) : RunBase t := by
  have hw : WriterOk t := by rw [pushBit_writes h.writer hp]; exact (writeBits_pending _ _).2
  rcases State.pushBit_some.1 hp with ⟨-, rfl⟩ | ⟨-, ho, rfl⟩
  · exact ⟨hw, h.reader, h.queue, h.cand, h.codes, h.ports, h.tree, h.dict, h.err⟩
  · have h' := runBase_putOut (shiftIn s.wacc b) h ho
    exact ⟨hw, h'.reader, h'.queue, h'.cand, h'.codes, h'.ports, h'.tree, h'.dict, h'.err⟩

theorem runBase_finish {s t : State} (h : RunBase s) (hp : s.finish = some t) : RunBase t := by
  rcases State.finish_some.1 hp with ⟨-, rfl⟩ | ⟨-, ho, rfl⟩
  · exact h
  · have h' := runBase_putOut (paddedByte s) h ho
    exact ⟨⟨by show (0:BitVec 4).toNat ≤ 7; decide, by show (0:Byte).toNat < 2 ^ (0:BitVec 4).toNat; decide⟩,
      h'.reader, h'.queue, h'.cand, h'.codes, h'.ports, h'.tree, h'.dict, h'.err⟩

theorem runBase_nextBit {s t : State} {b} (h : RunBase s) (hp : s.nextBit = .bit b t) : RunBase t := by
  have hr : ReaderOk t := by rw [(nextBit_input h.reader hp).1]; exact afterBits_ok h.reader _
  rcases State.nextBit_bit.1 hp with ⟨-, -, rfl⟩ | ⟨-, x, rest, hq, -, rfl⟩
  · exact ⟨h.writer, hr, h.queue, h.cand, h.codes, h.ports, h.tree, h.dict, h.err⟩
  · have h' := runBase_takeIn h hq
    exact ⟨h'.writer, hr, h'.queue, h'.cand, h'.codes, h'.ports, h'.tree, h'.dict, h'.err⟩

theorem State.nextBit_fields {s t : State} {b} (hp : s.nextBit = .bit b t) :
   t.len = s.len ∧ t.code = s.code ∧ t.preValid = s.preValid ∧ t.dictValid = s.dictValid ∧
     t.clen = s.clen ∧ t.cand = s.cand ∧ t.maxlen = s.maxlen := by
  rcases State.nextBit_bit.1 hp with ⟨-, -, rfl⟩ | ⟨-, x, rest, hq, -, rfl⟩ <;> simp

/-- What holds before each step of a running command: the base, and what the task needs. -/
structure RunInv (t : Task) (s : State) : Prop where
  base : RunBase s
  task : TaskOk s t

theorem State.coded_iff (s : State) (a : Sym) : s.coded a = true ↔ s.lenOf a ≠ 0 := by simp [State.coded]

/-- `2·c + bit` without overflow. -/
theorem appendBit_toNat (c : CodeWord) (b : Bool) (h : c.toNat < 2 ^ 255) :
    (appendBit c b).toNat = 2 * c.toNat + b.toNat := by
  unfold appendBit
  have h2 : (c <<< 1 ||| (BitVec.ofBool b).setWidth 256) = (c <<< 1) + (BitVec.ofBool b).setWidth 256 := by
    symm
    apply BitVec.add_eq_or_of_and_eq_zero
    ext i hi
    simp only [BitVec.getElem_and, BitVec.getElem_shiftLeft, BitVec.getElem_setWidth, BitVec.getElem_zero]
    by_cases h0 : i = 0
    · subst h0; simp
    · have : (BitVec.ofBool b).getLsbD i = false := BitVec.getLsbD_of_ge _ _ (by omega)
      simp [this]
  rw [h2, BitVec.toNat_add, BitVec.toNat_shiftLeft, Nat.shiftLeft_eq]
  have hb : ((BitVec.ofBool b).setWidth 256).toNat = b.toNat := by cases b <;> rfl
  rw [hb]
  have hb1 : b.toNat ≤ 1 := by cases b <;> simp
  have h255 : (2:ℕ)^256 = 2 * 2^255 := by norm_num
  rw [Nat.mod_eq_of_lt (a := c.toNat * 2 ^ 1) (by rw [h255]; omega), Nat.mod_eq_of_lt (by rw [h255]; omega)]
  ring

/-- A step that goes on keeps the invariant of the run. -/
theorem runInv_go (t : Task) (s : State) (t' : Task) (s' : State) (h : RunInv t s) (hs : t.step s = .go t' s') :
    RunInv t' s' := by
  obtain ⟨hb, ht⟩ := h
  cases t with
  | wpre k =>
    simp only [Task.step, stepWpre] at hs
    split at hs
    · split at hs
      · cases hs
      · next ho =>
        obtain ⟨hr, rfl⟩ := State.outByte_some.1 ho
        cases hs
        exact ⟨runBase_putOut _ hb hr, ht.1, by omega⟩
    · cases hs
  | wtab k =>
    simp only [Task.step, stepWtab, pushCode] at hs
    split at hs
    · split at hs
      · cases hs; exact ⟨hb, Nat.le_of_lt_succ (BitVec.isLt _), ht.1, by omega⟩
      · cases hs; exact ⟨hb, ht.1, by omega⟩
    · cases hs; exact ⟨hb, trivial⟩
  | enc =>
    simp only [Task.step, stepEnc, pushCode] at hs
    split at hs
    · cases hs
    · cases hs; exact ⟨hb, trivial⟩
    · next hbyte =>
      obtain ⟨rest, hq, rfl⟩ := State.inByte_byte.1 hbyte
      split at hs
      · cases hs; exact ⟨runBase_takeIn hb hq, Nat.le_of_lt_succ (BitVec.isLt _), ht⟩
      · cases hs
  | push v n after =>
    simp only [Task.step, stepPush] at hs
    cases n with
    | zero =>
      cases after with
      | stop => cases hs
      | wtab k => cases hs; exact ⟨hb, ht.2⟩
      | enc => cases hs; exact ⟨hb, ht.2⟩
    | succ k =>
      dsimp only at hs
      split at hs
      · cases hs
      · next t hp =>
        injection hs with e1 e2
        subst e1 e2
        have e : t.dictValid = s.dictValid := by
          rcases State.pushBit_some.1 hp with ⟨-, rfl⟩ | ⟨-, -, rfl⟩ <;> rfl
        refine ⟨runBase_pushBit hb hp, ?_, ?_⟩
        · have := ht.1; omega
        · have := ht.2
          cases after <;> simp_all
  | finish =>
    simp only [Task.step, stepFinish] at hs
    split at hs <;> cases hs
  | rpre k =>
    simp only [Task.step, stepRpre] at hs
    obtain ⟨h1, h2, h3, h4⟩ := ht
    split at hs
    · split at hs
      · cases hs
      · cases hs
      · next b t hbyte =>
        obtain ⟨rest, hq, rfl⟩ := State.inByte_byte.1 hbyte
        cases hs
        have h' := runBase_takeIn hb hq
        refine ⟨⟨h'.writer, h'.reader, h'.queue, h'.cand, ?_, h'.ports, h'.tree, ?_, h'.err⟩, h1, h2, ?_, by omega⟩
        · intro a
          show ((s.takeIn rest).codeOf a).toNat < _
          have : (s.takeIn rest).codeOf a = 0 := h3 a
          rw [this]
          exact Nat.pow_pos (by norm_num)
        · refine ⟨fun hd => absurd hd (by simp [h2]), h'.dict.2⟩
        · intro a; exact h3 a
    · cases hs
  | rtab k =>
    simp only [Task.step, stepRtab, endRtab] at hs
    obtain ⟨h1, h2, h3⟩ := ht
    split at hs
    · split at hs
      · next hc =>
        cases hs
        refine ⟨hb, h1, hc, le_refl _, ?_⟩
        simp
      · cases hs; exact ⟨hb, h1, h2, by omega⟩
    · split at hs <;> cases hs
  | rtabCode sym n c =>
    simp only [Task.step, stepRtabCode] at hs
    obtain ⟨h1, h2, h3, h4⟩ := ht
    have hdv : s.dictValid = false := by
      cases hd : s.dictValid
      · rfl
      · have := (hb.dict.1 hd).1; simp [h1] at this
    cases n with
    | zero =>
      cases hs
      refine ⟨⟨hb.writer, hb.reader, hb.queue, hb.cand, ?_, hb.ports, hb.tree, ?_, hb.err⟩, h1, ⟨sym, h2⟩, ?_⟩
      · intro a
        rw [State.codeOf_setCode, State.lenOf_setCode]
        split
        · next e => rw [← e]; simpa using h4
        · exact hb.codes a
      · exact ⟨fun hd => absurd hd (by simp [hdv]), hb.dict.2⟩
      · have := sym.isLt; omega
    | succ k =>
      dsimp only at hs
      split at hs
      · cases hs
      · cases hs
      · next b t hp =>
        cases hs
        obtain ⟨e1, e2, e3, e4, -⟩ := State.nextBit_fields hp
        have e5 := State.codeBits_congr e1 e2 sym
        refine ⟨runBase_nextBit hb hp, by rw [e3]; exact h1, by rw [e5.2.1]; exact h2, by rw [e5.2.2.1]; omega, ?_⟩
        rw [e5.2.2.1]
        have hl : (s.lenOf sym).toNat < 256 := (s.lenOf sym).isLt
        have hc : c.toNat < 2 ^ 255 := lt_of_lt_of_le h4 (Nat.pow_le_pow_right (by norm_num) (by omega))
        rw [appendBit_toNat c b hc]
        have : (s.lenOf sym).toNat - k = ((s.lenOf sym).toNat - (k + 1)) + 1 := by omega
        rw [this, Nat.pow_succ]
        have : b.toNat ≤ 1 := by cases b <;> simp
        omega
  | dec limit =>
    simp only [Task.step, stepDec] at hs
    obtain ⟨h1, h2⟩ := ht
    split at hs
    · cases hs
    · split at hs
      · cases hs
      · unfold decExhausted at hs
        split at hs <;> [skip; split at hs] <;> cases hs
      · next b t hp =>
        obtain ⟨e1, e2, e3, e4, e5, e6, e7⟩ := State.nextBit_fields hp
        have hbt := runBase_nextBit hb hp
        have hclen : (extendCand t b).clen.toNat = s.clen.toNat + 1 := by
          show (t.clen + 1).toNat = _
          rw [e5, BitVec.toNat_add]
          show (s.clen.toNat + 1) % 256 = _
          omega
        have hcand : s.cand.toNat < 2 ^ 255 :=
          lt_of_lt_of_le hb.cand (Nat.pow_le_pow_right (by norm_num) (by omega))
        have hext : RunBase (extendCand t b) := by
          refine ⟨hbt.writer, hbt.reader, hbt.queue, ?_, hbt.codes, hbt.ports, hbt.tree, hbt.dict, hbt.err⟩
          show (appendBit t.cand b).toNat < 2 ^ (extendCand t b).clen.toNat
          rw [hclen, e6, appendBit_toNat _ _ hcand, Nat.pow_succ]
          have := hb.cand
          unfold CandOk at this
          have : b.toNat ≤ 1 := by cases b <;> simp
          omega
        unfold decCandidate at hs
        split at hs
        · cases hs; exact ⟨hext, by show t.dictValid = true; rw [e4]; exact h1⟩
        · split at hs
          · cases hs
          · next hv =>
            cases hs
            refine ⟨hext, by show t.dictValid = true; rw [e4]; exact h1, ?_⟩
            simp only [Bool.and_eq_true, Bool.not_eq_true', not_and, Bool.not_eq_false] at hv
            by_cases hv' : viable (extendCand t b) = false
            · have := hv hv'
              simp only [padLike, Bool.and_eq_true, decide_eq_true_eq] at this
              omega
            · simp only [Bool.not_eq_false] at hv'
              unfold viable at hv'
              rw [List.any_eq_true] at hv'
              obtain ⟨a, -, ha⟩ := hv'
              simp only [beginsSym, Bool.and_eq_true, decide_eq_true_eq] at ha
              have h1 := ha.1
              have := ((extendCand t b).lenOf a).isLt
              have := BitVec.lt_def.1 h1
              omega
  | decEmit limit sym =>
    simp only [Task.step, stepDecEmit] at hs
    split at hs
    · cases hs
    · next ho =>
      obtain ⟨hr, rfl⟩ := State.outByte_some.1 ho
      cases hs
      have h' := runBase_putOut sym hb hr
      refine ⟨⟨h'.writer, h'.reader, h'.queue, ?_, h'.codes, h'.ports, h'.tree, h'.dict, h'.err⟩, ht,
        by show (0:Byte).toNat ≤ 254; decide⟩
      show (0:CodeWord).toNat < 2 ^ (0 : Byte).toNat
      decide
  | rbits n j =>
    simp only [Task.step, stepRbits] at hs
    split at hs
    · split at hs
      · cases hs
      · cases hs
      · next b t hp =>
        cases hs
        have h' := runBase_nextBit hb hp
        exact ⟨⟨h'.writer, h'.reader, h'.queue, h'.cand, h'.codes, h'.ports, h'.tree, h'.dict, h'.err⟩,
          ht.1, by omega⟩
    · cases hs

/-- `MAXLEN`'s value is read off `LEN` alone. -/
theorem largestLen_congr {s t : State} (h : t.len = s.len) : largestLen s = largestLen t := by
  unfold largestLen State.lenOf
  rw [h]

theorem rAlign_ok (s : State) : ReaderOk s.rAlign := List.mem_cons_self

theorem runBase_rAlign {s : State} (h : RunBase s) : RunBase s.rAlign :=
  ⟨h.writer, rAlign_ok s, h.queue, h.cand, h.codes, h.ports, h.tree, h.dict, h.err⟩

/-- RTAB's last writes (R172). -/
theorem runBase_setDict {s : State} (m : Byte) (h : RunBase s) (hc : ∃ sym, s.coded sym = true) (hp : PrefixFree s)
    (hm : m = largestLen s) : RunBase { s with maxlen := m, preValid := false, dictValid := true } :=
  ⟨h.writer, h.reader, h.queue, h.cand, h.codes, h.ports, h.tree,
    ⟨fun _ => ⟨rfl, hc, hp, hm.trans (largestLen_congr rfl)⟩, fun hd => by simp at hd⟩, h.err⟩

theorem runBase_endCommand {s : State} (h : RunBase s) : BlockInv s.endCommand :=
  ⟨h.writer, h.reader, h.queue, h.cand, h.codes, h.ports, ⟨fun _ => h.err.2, fun _ => by
     have := h.err.1
     simp_all⟩, h.tree, h.dict, trivial⟩

theorem errName_code (e : ErrName) : 1 ≤ e.code.toNat ∧ e.code.toNat ≤ 12 := by cases e <;> decide

theorem runBase_raise {s : State} (op e info) (h : RunBase s) : BlockInv (s.raise op e info) :=
  ⟨h.writer, h.reader, h.queue, h.cand, h.codes, h.ports,
    ⟨fun hf => by simp at hf, fun _ => ⟨(errName_code e).1, (errName_code e).2, rfl⟩⟩, h.tree, h.dict, trivial⟩

theorem taskOk_park {s : State} {op} {t u} (h : TaskOk s t) : TaskOk (s.park op u) t := by
  cases t <;> exact h

/-- A command left at a task. -/
theorem runInv_park {s : State} (op t) (h : RunInv t s) : BlockInv (s.park op t) :=
  ⟨h.base.writer, h.base.reader, h.base.queue, h.base.cand, h.base.codes, h.base.ports,
   ⟨fun _ => h.base.err.2, fun hf => by
     have := h.base.err.1
     simp_all⟩, h.base.tree, h.base.dict, taskOk_park h.task⟩

/-- A list of symbols without a first conflict is prefix-free (R172). -/
theorem firstConflict_none {s : State} : ∀ l, l.Pairwise (· ≠ ·) → firstConflict s l = none →
    ∀ a ∈ l, ∀ b ∈ l, a ≠ b → prefixConflict (s.codeBits a) (s.codeBits b) = false := by
  intro l
  have comm : ∀ c d, prefixConflict c d = prefixConflict d c := fun c d => Bool.or_comm _ _
  induction l with
  | nil => simp
  | cons x l ih =>
    intro hp h a ha b hb hab
    rw [List.pairwise_cons] at hp
    unfold firstConflict at h
    split at h
    · cases h
    · next hf =>
      rw [List.find?_eq_none] at hf
      rcases List.mem_cons.1 ha with ea | ha' <;> rcases List.mem_cons.1 hb with eb | hb'
      · exact absurd (ea.trans eb.symm) hab
      · subst ea; simpa using hf b hb'
      · subst eb; rw [comm]; simpa using hf a ha'
      · exact ih hp.2 h a ha' b hb' hab

/-- A step that ends the command keeps the base. -/
theorem runInv_done (t : Task) (s s' : State) (h : RunInv t s) (hs : t.step s = .done s') : RunBase s' := by
  obtain ⟨hb, ht⟩ := h
  cases t with
  | wpre k =>
    simp only [Task.step, stepWpre] at hs
    split at hs
    · split at hs <;> cases hs
    · cases hs; exact hb
  | wtab k =>
    simp only [Task.step, stepWtab, pushCode] at hs
    split at hs
    · split at hs <;> cases hs
    · cases hs
  | enc =>
    simp only [Task.step, stepEnc, pushCode] at hs
    split at hs
    · cases hs
    · cases hs
    · split at hs <;> cases hs
  | push v n after =>
    simp only [Task.step, stepPush] at hs
    cases n with
    | zero =>
      cases after with
      | stop => cases hs; exact hb
      | wtab k => cases hs
      | enc => cases hs
    | succ k =>
      dsimp only at hs
      split at hs <;> cases hs
  | finish =>
    simp only [Task.step, stepFinish] at hs
    split at hs
    · cases hs
    · next hp => cases hs; exact runBase_finish hb hp
  | rpre k =>
    simp only [Task.step, stepRpre] at hs
    obtain ⟨h1, h2, h3, h4⟩ := ht
    split at hs
    · split at hs <;> cases hs
    · cases hs
      exact ⟨hb.writer, hb.reader, hb.queue, hb.cand, hb.codes, hb.ports, hb.tree,
        ⟨fun hd => by simp [h2] at hd, hb.dict.2⟩, hb.err⟩
  | rtab k =>
    simp only [Task.step, stepRtab, endRtab] at hs
    obtain ⟨h1, h2, h3⟩ := ht
    split at hs
    · split at hs <;> cases hs
    · split at hs
      · cases hs
      · next hf =>
        cases hs
        refine runBase_setDict _ (runBase_rAlign hb) h2 ?_ rfl
        intro a b hab ha hb'
        refine firstConflict_none (s := s.rAlign) (codedSyms s.rAlign) ?_ hf a ?_ b ?_ hab
        · exact List.Pairwise.filter _ allSyms_nodup
        · exact List.mem_filter.2 ⟨mem_allSyms a, ha⟩
        · exact List.mem_filter.2 ⟨mem_allSyms b, hb'⟩
  | rtabCode sym n c =>
    simp only [Task.step, stepRtabCode] at hs
    cases n with
    | zero => cases hs
    | succ k =>
      dsimp only at hs
      split at hs <;> cases hs
  | dec limit =>
    simp only [Task.step, stepDec] at hs
    split at hs
    · cases hs; exact hb
    · split at hs
      · cases hs
      · unfold decExhausted at hs
        split at hs <;> [skip; split at hs] <;> cases hs
        exact hb
      · unfold decCandidate at hs
        split at hs <;> [skip; split at hs] <;> cases hs
  | decEmit limit sym =>
    simp only [Task.step, stepDecEmit] at hs
    split at hs <;> cases hs
  | rbits n j =>
    simp only [Task.step, stepRbits] at hs
    split at hs
    · split at hs <;> cases hs
    · cases hs; exact hb

/-- A step that raises keeps the base (R225). -/
theorem runInv_raise (t : Task) (s : State) (e info) (s' : State) (h : RunInv t s) (hs : t.step s = .raise e info s') :
    RunBase s' := by
  obtain ⟨hb, ht⟩ := h
  cases t with
  | wpre k =>
    simp only [Task.step, stepWpre] at hs
    split at hs <;> [split at hs; skip] <;> cases hs
  | wtab k =>
    simp only [Task.step, stepWtab, pushCode] at hs
    split at hs <;> [split at hs; skip] <;> cases hs
  | enc =>
    simp only [Task.step, stepEnc, pushCode] at hs
    split at hs
    · cases hs
    · cases hs
    · next hbyte =>
      obtain ⟨rest, hq, rfl⟩ := State.inByte_byte.1 hbyte
      split at hs
      · cases hs
      · cases hs; exact runBase_takeIn hb hq
  | push v n after =>
    simp only [Task.step, stepPush] at hs
    cases n with
    | zero => cases after <;> cases hs
    | succ k =>
      dsimp only at hs
      split at hs <;> cases hs
  | finish =>
    simp only [Task.step, stepFinish] at hs
    split at hs <;> cases hs
  | rpre k =>
    simp only [Task.step, stepRpre] at hs
    split at hs
    · split at hs
      · cases hs
      · cases hs; exact hb
      · cases hs
    · cases hs
  | rtab k =>
    simp only [Task.step, stepRtab, endRtab] at hs
    obtain ⟨h1, h2, h3⟩ := ht
    split at hs
    · split at hs <;> cases hs
    · split at hs
      · cases hs
        exact runBase_rAlign hb
      · cases hs
  | rtabCode sym n c =>
    simp only [Task.step, stepRtabCode] at hs
    cases n with
    | zero => cases hs
    | succ k =>
      dsimp only at hs
      split at hs <;> cases hs
      exact hb
  | dec limit =>
    simp only [Task.step, stepDec] at hs
    split at hs
    · cases hs
    · split at hs
      · cases hs
      · unfold decExhausted at hs
        split at hs <;> [skip; split at hs] <;> cases hs <;> exact hb
      · next b t hp =>
        -- raise after extendCand
        obtain ⟨e1, e2, e3, e4, e5, e6, e7⟩ := State.nextBit_fields hp
        have hbt := runBase_nextBit hb hp
        have h2 := ht.2
        have hclen : (extendCand t b).clen.toNat = s.clen.toNat + 1 := by
          show (t.clen + 1).toNat = _
          rw [e5, BitVec.toNat_add]
          show (s.clen.toNat + 1) % 256 = _
          omega
        have hcand : s.cand.toNat < 2 ^ 255 :=
          lt_of_lt_of_le hb.cand (Nat.pow_le_pow_right (by norm_num) (by omega))
        have hext : RunBase (extendCand t b) := by
          refine ⟨hbt.writer, hbt.reader, hbt.queue, ?_, hbt.codes, hbt.ports, hbt.tree, hbt.dict, hbt.err⟩
          show (appendBit t.cand b).toNat < 2 ^ (extendCand t b).clen.toNat
          rw [hclen, e6, appendBit_toNat _ _ hcand, Nat.pow_succ]
          have := hb.cand
          unfold CandOk at this
          have : b.toNat ≤ 1 := by cases b <;> simp
          omega
        unfold decCandidate at hs
        split at hs <;> [skip; split at hs] <;> cases hs
        exact hext
  | decEmit limit sym =>
    simp only [Task.step, stepDecEmit] at hs
    split at hs <;> cases hs
  | rbits n j =>
    simp only [Task.step, stepRbits] at hs
    split at hs
    · split at hs <;> cases hs
      exact hb
    · cases hs

/-- A command run from a task leaves the invariant. -/
theorem runTask_keepsInv (op n t s) (h : RunInv t s) : BlockInv (runTask op n t s) :=
  runTask_induction op RunInv BlockInv runInv_go (fun t _ s' h hs => runBase_endCommand (runInv_done t _ s' h hs))
    (fun t _ e i s' h hs => runBase_raise _ _ _ (runInv_raise t _ e i s' h hs)) (fun t _ h => runInv_park op t h) n t s h
end Sys2Proof.Machine
end

