-- ==== Sys2Proof/Laws/PerInstr.lean ====
section
/-! SUPPORT. What holds of every command as syntax: the fields of its word (30_encoding.md R90 to R94). -/

namespace Sys2Proof

/-- Where each bit of an assembled word comes from (R90). -/
theorem getLsbD_assembleWord (op a : Byte) (b : BitVec 16) (imm : Word32) (k : Nat) :
    (assembleWord op a b imm).getLsbD k =
      if k < 32 then imm.getLsbD k else if k - 32 < 16 then b.getLsbD (k - 32)
      else if k - 32 - 16 < 8 then a.getLsbD (k - 32 - 16) else op.getLsbD (k - 32 - 16 - 8) := by
  show (op ++ a ++ b ++ imm : BitVec (8 + 8 + 16 + 32)).getLsbD k = _
  simp only [BitVec.getLsbD_append]

@[simp] theorem opField_assembleWord (op a : Byte) (b : BitVec 16) (imm : Word32) :
    opField (assembleWord op a b imm) = op := by
  apply BitVec.eq_of_getLsbD_eq
  intro k hk
  rw [opField, BitVec.getLsbD_extractLsb', getLsbD_assembleWord, if_neg (by omega), if_neg (by omega), if_neg (by omega)]
  simp [hk, show 56 + k - 32 - 16 - 8 = k by omega]

@[simp] theorem aField_assembleWord (op a : Byte) (b : BitVec 16) (imm : Word32) :
    aField (assembleWord op a b imm) = a := by
  apply BitVec.eq_of_getLsbD_eq
  intro k hk
  rw [aField, BitVec.getLsbD_extractLsb', getLsbD_assembleWord, if_neg (by omega), if_neg (by omega), if_pos (by omega)]
  simp [hk, show 48 + k - 32 - 16 = k by omega]

@[simp] theorem bField_assembleWord (op a : Byte) (b : BitVec 16) (imm : Word32) :
    bField (assembleWord op a b imm) = b := by
  apply BitVec.eq_of_getLsbD_eq
  intro k hk
  rw [bField, BitVec.getLsbD_extractLsb', getLsbD_assembleWord, if_neg (by omega), if_pos (by omega)]
  simp [hk, show 32 + k - 32 = k by omega]

@[simp] theorem immField_assembleWord (op a : Byte) (b : BitVec 16) (imm : Word32) :
    immField (assembleWord op a b imm) = imm := by
  apply BitVec.eq_of_getLsbD_eq
  intro k hk
  rw [immField, BitVec.getLsbD_extractLsb', getLsbD_assembleWord, if_pos (by omega)]
  simp [hk]

/-- Masking an assembled word masks its fields (R94). -/
theorem assembleWord_and (op a op' a' : Byte) (b b' : BitVec 16) (imm imm' : Word32) :
    assembleWord op a b imm &&& assembleWord op' a' b' imm' =
      assembleWord (op &&& op') (a &&& a') (b &&& b') (imm &&& imm') := by
  apply BitVec.eq_of_getLsbD_eq
  intro k _
  rw [BitVec.getLsbD_and]
  simp only [getLsbD_assembleWord]
  split_ifs <;> simp

namespace Laws.EncodeFields

/-- The word of a command carries its opcode in OP, passes its opcode's mask (R94), and its operands stand in the fields
of its format. -/
def Statement (i : Instr) : Prop :=
  opField (encode i) = i.opcode.code ∧ encode i &&& i.opcode.mask = i.opcode.matchBits ∧
    i.opcode.instr (aField (encode i)) (bField (encode i)) (immField (encode i)) = i

theorem nop : Statement .nop := by unfold Statement; decide
theorem reset : Statement .reset := by unfold Statement; decide
theorem clrw : Statement .clrw := by unfold Statement; decide

theorem setw (s : Sym) (w : Word32) : Statement (.setw s w) := by
  refine ⟨by simp [encode], ?_, by simp [encode, Opcode.instr, Instr.opcode]⟩
  show assembleWord 0x11 s 0 w &&& assembleWord 0xFF 0x00 0xFFFF 0 = assembleWord 0x11 0 0 0
  rw [assembleWord_and]
  simp

theorem build : Statement .build := by unfold Statement; decide
theorem assign : Statement .assign := by unfold Statement; decide
theorem wpre : Statement .wpre := by unfold Statement; decide
theorem wtab : Statement .wtab := by unfold Statement; decide
theorem enc : Statement .enc := by unfold Statement; decide

theorem push (n : BitVec 16) (v : Word32) : Statement (.push n v) := by
  refine ⟨by simp [encode], ?_, by simp [encode, Opcode.instr, Instr.opcode]⟩
  show assembleWord 0x23 0 n v &&& assembleWord 0xFF 0xFF 0 0 = assembleWord 0x23 0 0 0
  rw [assembleWord_and]
  simp

theorem fin : Statement .fin := by unfold Statement; decide
theorem rpre : Statement .rpre := by unfold Statement; decide
theorem rtab : Statement .rtab := by unfold Statement; decide

theorem dec (limit : Word32) : Statement (.dec limit) := by
  refine ⟨by simp [encode], ?_, by simp [encode, Opcode.instr, Instr.opcode]⟩
  show assembleWord 0x32 0 0 limit &&& assembleWord 0xFF 0xFF 0xFFFF 0 = assembleWord 0x32 0 0 0
  rw [assembleWord_and]
  simp

theorem rbits (n : BitVec 16) : Statement (.rbits n) := by
  refine ⟨by simp [encode], ?_, by simp [encode, Opcode.instr, Instr.opcode]⟩
  show assembleWord 0x33 0 n 0 &&& assembleWord 0xFF 0xFF 0 0xFFFFFFFF = assembleWord 0x33 0 0 0
  rw [assembleWord_and]
  simp

theorem ralign : Statement .ralign := by unfold Statement; decide

end Laws.EncodeFields

end Sys2Proof
end

