-- ==== Sys2Proof/Tests/Slice0.lean ====
section
/-! SUPPORT. Tests of single steps, their expected values from spec/95_test_vectors.md (the vector is named in each
docstring), and for every obligation with hypotheses a state and operands that meet them. -/

-- one theorem after the other: in parallel their kernel evaluations would not fit into the memory limit together
set_option Elab.async false

namespace Sys2Proof.Tests

open Sys2Proof.Machine Sys2Proof.Machine.State

/-! ### Helpers -/

/-- A block after power-on with room on both ports. -/
def box : State := { State.reset with params := { inDepth := 1024, outDepth := 16384 } }

/-- Bytes queued and end of input signalled. -/
def given (s : State) (bytes : List Byte) : State := { s with inq := bytes, ineos := true }

/-- The host's coming actions. -/
def hosted (s : State) (script : List HostAction) : State := s.withScript script

/-- `s` with one symbol's length and code. -/
def withCode (s : State) (sym : Sym) (len : Byte) (code : CodeWord) : State := (s.setLen sym len).setCode sym code

/-- V-L1's dictionary: 0x41 = "0", 0x42 = "1". -/
def abBox : State := { withCode (withCode box 0x41 1 0) 0x42 1 1 with maxlen := 1, dictValid := true }

/-- V-R5's dictionary: 0x41 = "1" alone. -/
def aBox : State := { withCode box 0x41 1 1 with maxlen := 1, dictValid := true }

/-- A dictionary of one three-bit code: 0x52 = "111". -/
def rBox : State := { withCode box 0x52 3 7 with maxlen := 3, dictValid := true }

/-- V-T1's weights. -/
def threeBox : State := ((box.setFreq 0 2).setFreq 1 1).setFreq 2 1

/-- V-T1's tree in the arena. -/
def treeBox : State :=
  { box with
    node := ((((box.node.set 0 ⟨.leaf, 0, 2, 0, 0⟩).set 1 ⟨.leaf, 1, 1, 0, 0⟩).set 2 ⟨.leaf, 2, 1, 0, 0⟩).set 3
      ⟨.internal, 0, 2, 1, 2⟩).set 4 ⟨.internal, 0, 4, 0, 3⟩
    nleaf := 3, nnodes := 5, root := 4, treeValid := true }

/-- A preamble waiting for RTAB (V-R1). -/
def preBox : State := { (box.setLen 0x41 1).setLen 0x42 1 with preValid := true }

/-- Whether a result is a next state with a property. -/
def ends (r : Result) (p : State → Bool) : Bool :=
  match r with
  | .next t => p t
  | .fault _ => false
  | .refused _ => false

theorem next_of_ends {r : Result} {p : State → Bool} (h : ends r p = true) : ∃ t, r = .next t ∧ p t = true := by
  cases r with
  | next t => exact ⟨t, rfl, h⟩
  | fault f => exact absurd h (by simp [ends])
  | refused r => exact absurd h (by simp [ends])

/-! ### Well-formedness -/

/-- R92: a bit count above 32 has no encoding; 32 has one. -/
theorem test_wellFormed : (Instr.push 33 0).wellFormed = false ∧ (Instr.rbits 33).wellFormed = false ∧
    (Instr.push 32 0).wellFormed = true ∧ (Instr.rbits 32).wellFormed = true := by decide

/-! ### Decoding: one word per constructor (V-X1 to V-X19) -/

theorem test_decode_control : decode 0x0000000000000000 = .command .nop ∧
    decode 0x0100000000000000 = .command .reset := by decide

theorem test_decode_tree : decode 0x1000000000000000 = .command .clrw ∧
    decode 0x11FF0000FFFFFFFF = .command (.setw 0xFF 0xFFFFFFFF) ∧
    decode 0x1200000000000000 = .command .build ∧ decode 0x1300000000000000 = .command .assign := by decide

theorem test_decode_write : decode 0x2000000000000000 = .command .wpre ∧ decode 0x2100000000000000 = .command .wtab ∧
    decode 0x2200000000000000 = .command .enc := by decide

theorem test_decode_read : decode 0x3000000000000000 = .command .rpre ∧ decode 0x3100000000000000 = .command .rtab ∧
    decode 0x320000000000000B = .command (.dec 11) := by decide

theorem test_decode_bits : decode 0x2300002012345678 = .command (.push 32 0x12345678) ∧
    decode 0x2400000000000000 = .command .fin ∧ decode 0x3300000400000000 = .command (.rbits 4) ∧
    decode 0x3400000000000000 = .command .ralign := by decide

/-- V-X20 to V-X28. -/
theorem test_decode_errors : decode 0xFF00000000000000 = .illegalOpcode ∧ decode 0x1141000100000005 = .illegalOperand 0 ∧
    decode 0x3201000000000000 = .illegalOperand 0 ∧ decode 0x3300002100000000 = .illegalOperand 33 ∧
    decode 0x3300000400000001 = .illegalOperand 0 ∧ decode 0x2301002800000000 = .illegalOperand 0 := by decide

/-- The table's numbering and the fetch: SETW's word is read and run. -/
theorem test_withFetchWord : decodeTableWord 64 0x1141000000000005 = some (.setw 0x41 5) ∧
    ends (step (State.reset.withFetchWord 64 0x1141000000000005)) (fun t => t.freqOf 0x41 = 5) = true := by
  constructor <;> decide +kernel

/-! ### Single commands -/

/-- V-C1. -/
theorem test_nop : exec .nop abBox = .next abBox := rfl

/-- V-C2: `FREQ` is cleared, `IN_EOS` stays. -/
theorem test_reset : ends (exec .reset (given (box.setFreq 0x41 3) [0x41])) (fun t =>
    t.freqOf 0x41 = 0 && statusWord t = 0x20 && t.inq = [0x41]) = true := by decide +kernel

/-- V-C5: pending bits are lost. -/
theorem test_reset_writer : ends (exec .reset { box with wacc := 5, wcnt := 3 }) (fun t =>
    wstateWord t = 0 && t.outq = []) = true := by decide +kernel

/-- V-T6: the tree stays valid. -/
theorem test_clrw : ends (exec .clrw { threeBox with treeValid := true }) (fun t =>
    t.freqOf 0 = 0 && t.freqOf 1 = 0 && t.treeValid) = true := by decide +kernel

/-- V-T7. -/
theorem test_setw : ends (exec (.setw 0x41 2) (box.setFreq 0x41 5)) (fun t =>
    t.freqOf 0x41 = 2 && t.freqOf 0x42 = 0) = true := by decide +kernel

/-- V-T1: the tie goes to the lower index. -/
theorem test_build : ends (exec .build threeBox) (fun t =>
    t.nleaf = 3 && t.nnodes = 5 && t.root = 4 && nodeAt t.node 3 = ⟨.internal, 0, 2, 1, 2⟩ &&
      nodeAt t.node 4 = ⟨.internal, 0, 4, 0, 3⟩) = true := by decide +kernel

/-- V-T5: the sum of two weights needs 33 bits; its window words. -/
theorem test_build_wide : ends (exec .build ((box.setFreq 0 0xFFFFFFFF).setFreq 1 0xFFFFFFFF)) (fun t =>
    readWord t 0x1008 = 1 && readWord t 0x1009 = 0xFFFFFFFE && readWord t 0x100A = 1 &&
      readWord t 0x100B = 0x00010000) = true := by decide +kernel

/-- V-T1's codes: 0 = "0", 1 = "10", 2 = "11". -/
theorem test_assign : ends (exec .assign treeBox) (fun t =>
    t.lenOf 0 = 1 && t.codeOf 0 = 0 && t.lenOf 1 = 2 && t.codeOf 1 = 2 && t.lenOf 2 = 2 && t.codeOf 2 = 3 &&
      t.maxlen = 2 && t.dictValid) = true := by decide +kernel

/-- V-A2: a one-leaf tree gives the code "1". -/
theorem test_assign_one : ends (exec .assign
    { box with node := box.node.set 0 ⟨.leaf, 0x41, 1000, 0, 0⟩, nleaf := 1, nnodes := 1, treeValid := true }) (fun t => t.lenOf 0x41 = 1 && t.codeOf 0x41 = 1) = true := by
  decide +kernel

/-- V-W1's preamble as far as OUT has room for it. -/
theorem test_wpre : ends (exec .wpre { abBox with params := { inDepth := 1, outDepth := 70 } }) (fun t =>
    t.outq = List.replicate 65 0 ++ [1, 1] ++ List.replicate 3 0 && t.outcnt = 70 && t.busy) = true := by decide +kernel

/-- V-W7: pending bits. -/
theorem test_wpre_pending : ends (exec .wpre { abBox with wacc := 1, wcnt := 1 }) (fun t =>
    errstatWord t = 0x2003 && t.errinfo = 4 && wstateWord t = 0x101 && t.outq = []) = true := by decide +kernel

/-- V-W9: the table follows the pending bits. -/
theorem test_wtab : ends (exec .wtab { abBox with wacc := 3, wcnt := 2 }) (fun t =>
    t.outq = [0xD0] && t.wcnt = 0) = true := by decide +kernel

/-- V-W1's payload. -/
theorem test_enc : ends (exec .enc (given abBox [0x41, 0x42])) (fun t =>
    t.outq = [0x40] && t.incnt = 2 && t.wcnt = 0) = true := by decide +kernel

/-- V-W8: a byte with no code. -/
theorem test_enc_noCode : ends (exec .enc (given abBox [0x41, 0x43, 0x42])) (fun t =>
    errstatWord t = 0x2205 && t.errinfo = 67 && wstateWord t = 0x100 && t.inq = [0x42] && t.outq = []) = true := by
  decide +kernel

/-- V-B3. -/
theorem test_push : ends (exec (.push 32 0x12345678) box) (fun t =>
    t.outq = [0x12, 0x34, 0x56, 0x78] && t.wcnt = 0) = true := by decide +kernel

/-- V-B6: bits above the count are ignored. -/
theorem test_push_low : ends (exec (.push 5 0xFFFFFFE3) box) (fun t => wstateWord t = 0x503 && t.outq = []) = true := by
  decide +kernel

/-- V-B2's second command. -/
theorem test_fin : ends (exec .fin { box with wacc := 5, wcnt := 3 }) (fun t => t.outq = [0xA0] && t.wcnt = 0) = true := by
  decide +kernel

/-- V-R11: the input ends after ten bytes. -/
theorem test_rpre_short : ends (exec .rpre (given box (List.replicate 10 1))) (fun t =>
    errstatWord t = 0x3006 && t.errinfo = 10 && t.lenOf 9 = 1 && t.lenOf 10 = 0) = true := by decide +kernel

/-- V-R10: bits of a byte are unread. -/
theorem test_rpre_unaligned : ends (exec .rpre { box with rbyte := 0xA5, rmask := 0x40 }) (fun t =>
    errstatWord t = 0x3003 && rstateWord t = 0x40A5) = true := by decide +kernel

/-- V-R2. -/
theorem test_rtab : ends (exec .rtab (given preBox [0x40])) (fun t =>
    t.codeOf 0x41 = 0 && t.codeOf 0x42 = 1 && rstateWord t = 0x0040 && t.maxlen = 1 && statusWord t = 0x30) = true := by
  decide +kernel

/-- V-R14: "0" begins "01". -/
theorem test_rtab_bad : ends (exec .rtab (given { (box.setLen 0 1).setLen 1 2 with preValid := true } [0x20])) (fun t =>
    errstatWord t = 0x3109 && t.errinfo = 256 && rstateWord t = 0x0020) = true := by decide +kernel

/-- V-L1: with its count DEC leaves the pad unread. -/
theorem test_dec : ends (exec (.dec 2) (given abBox [0x40])) (fun t =>
    t.outq = [0x41, 0x42] && t.dcount = 2 && t.clen = 0 && rstateWord t = 0x2040 && !t.err) = true := by decide +kernel

/-- V-R5: neither viable nor pad-like at the second bit. -/
theorem test_dec_bad : ends (exec (.dec 0) (given aBox [0x40])) (fun t =>
    errstatWord t = 0x320A && t.clen = 2 && t.cand = 1 && rstateWord t = 0x2040 && statusWord t = 0x32) = true := by
  decide +kernel

/-- V-B9, first command. -/
theorem test_rbits : ends (exec (.rbits 4) (given box [0xA5])) (fun t => t.rdata = 0xA && rstateWord t = 0x08A5) = true := by
  decide +kernel

/-- V-B10. -/
theorem test_rbits_short : ends (exec (.rbits 12) (given box [0xA5])) (fun t =>
    errstatWord t = 0x330C && t.errinfo = 8 && t.rdata = 0xA5) = true := by decide +kernel

/-- V-B11's RALIGN: the rest of the byte is dropped. -/
theorem test_ralign : ends (exec .ralign { box with rbyte := 0xA5, rmask := 0x10 }) (fun t => rstateWord t = 0x00A5) = true := by
  decide +kernel

/-! ### Words, the window, the host, the assembler -/

/-- V-X25: the error of a count above 32 comes from acceptance. -/
theorem test_accept_count : ends (accept 0x2300002100000000 box) (fun t =>
    errstatWord t = 0x2302 && t.errinfo = 33) = true := by decide +kernel

/-- V-C4: a RESET word with a bad field raises while `ERR = 1`. -/
theorem test_accept_badReset : ends (accept 0x0100000000000001 (box.raise 0x12 .emptyInput 0)) (fun t =>
    errstatWord t = 0x0102 && t.err) = true := by decide +kernel

/-- V-A1's window words. -/
theorem test_window : readWord abBox 0x0241 = 1 ∧ readWord abBox 0x2210 = 1 ∧ readWord abBox 0x2211 = 0 ∧
    readWord abBox 0x0000 = 0x48554646 := by decide +kernel

/-- R71, R75: with one place on OUT, WPRE holds; a drain lets it go on. -/
theorem test_hold : ends (exec .wpre { abBox with params := { inDepth := 1, outDepth := 1 } }) (fun t =>
    t.busy && t.outq = [0] && !t.canAdvance && t.drainOne.canAdvance) = true := by decide +kernel

/-- R97's and R98's forms. -/
theorem test_assemble :
    assembleLine "SETW 0x41, 5 ; weight".toList = some [.setw 0x41 5] ∧
    assembleLine "PUSH 3, 0b101".toList = some [.push 3 5] ∧ assembleLine "DEC".toList = some [.dec 0] ∧
    assembleLine "LOADW 1:2, 0x3:4".toList = some [.clrw, .setw 1 2, .setw 3 4] ∧
    assembleLine "SETW 256, 5".toList = none := by decide +kernel

/-! ### Witnesses: a state and operands that meet the hypotheses of each obligation -/

theorem box_freqOf (sym : Sym) : box.freqOf sym = 0 := by simp [box, State.freqOf, State.reset]

theorem box_lenOf (sym : Sym) : box.lenOf sym = 0 := by simp [box, State.lenOf, State.reset]

theorem box_codeOf (sym : Sym) : box.codeOf sym = 0 := by simp [box, State.codeOf, State.reset]

theorem abBox_lenOf (sym : Sym) : abBox.lenOf sym = if 0x42 = sym then 1 else if 0x41 = sym then 1 else 0 := by
  show (withCode (withCode box 0x41 1 0) 0x42 1 1).lenOf sym = _
  simp only [withCode, lenOf_setCode, lenOf_setLen, box_lenOf]

theorem abBox_codeOf (sym : Sym) : abBox.codeOf sym = if 0x42 = sym then 1 else if 0x41 = sym then 0 else 0 := by
  show (withCode (withCode box 0x41 1 0) 0x42 1 1).codeOf sym = _
  simp only [withCode, codeOf_setCode, codeOf_setLen, box_codeOf]

theorem abBox_coded (sym : Sym) : abBox.coded sym = true → sym = 0x41 ∨ sym = 0x42 := by
  simp only [State.coded, abBox_lenOf]
  split <;> [simp_all; (split <;> simp_all)]

theorem abBox_codes : CodesOk abBox := by
  intro sym
  rw [abBox_codeOf, abBox_lenOf]
  split <;> [decide; (split <;> decide)]

theorem abBox_prefixFree : PrefixFree abBox := by
  intro a b ne ha hb
  rcases abBox_coded a ha with rfl | rfl <;> rcases abBox_coded b hb with rfl | rfl <;>
    first | exact absurd rfl ne | decide +kernel

theorem witness_DecodeOfEncode : (Instr.push 32 0xFFFFFFFF).wellFormed = true ∧ (Instr.rbits 0).wellFormed = true := by
  decide

theorem witness_EncodeOfDecode : decode 0x3300002000000000 = .command (.rbits 32) := by decide

/-- The reserved ranges at their ends, a bad mask, a count of 33, a count of 32. -/
theorem witness_IllegalWordsByName :
    (([0x02, 0x0F, 0x14, 0x1F, 0x25, 0x2F, 0x35, 0xFF] : List Byte).all fun op => Opcode.ofByte op = none) = true ∧
    ((0x1200000000000001 : CmdWord) &&& Opcode.build.mask ≠ Opcode.build.matchBits) ∧
    ((0x2300002100000000 : CmdWord) &&& Opcode.push.mask = Opcode.push.matchBits ∧
      32 < (bField 0x2300002100000000).toNat) ∧
    ((0x2300002000000000 : CmdWord) &&& Opcode.push.mask = Opcode.push.matchBits ∧
      (bField 0x2300002000000000).toNat ≤ 32) := by decide

/-- V-L4's state. -/
def errBox : State := box.raise 0x12 .emptyInput 0

theorem witness_ExampleWordsDecode : box.err = false := rfl

theorem witness_ResetCommand : (abBox.park 0x20 (.wpre 3)).busy = true ∧ (∃ t, exec .reset errBox = .next t) ∧
    (errBox.err = false ∨ Opcode.reset = .reset) ∧ opField 0x0100000000000001 = Opcode.reset.code ∧
    (0x0100000000000001 : CmdWord) &&& Opcode.reset.mask ≠ Opcode.reset.matchBits ∧
    (errBox.err = true ∧ opField 0x1141000000000001 ≠ 0x01) ∧
    ∃ t, HostAction.perform (abBox.park 0x20 (.wpre 3)) .powerOnReset = .next t ∧ t.busy = false :=
  ⟨rfl, ⟨_, rfl⟩, by decide, by decide, by decide, ⟨rfl, by decide⟩, _, rfl, rfl⟩

theorem witness_DiscardedWhileErr : (hosted errBox [.issue 0x1141000000000001]).engine = .idle ∧
    (hosted errBox [.issue 0x1141000000000001]).err = true ∧ opField 0x1141000000000001 ≠ 0x01 ∧
    (hosted errBox [.issue 0x1141000000000001]).host.script = .issue 0x1141000000000001 :: [] :=
  ⟨rfl, rfl, by decide, rfl⟩

theorem witness_DecodeErrorsRaise : discarded box 0xFF00000000000000 = false ∧
    decode 0xFF00000000000000 = .illegalOpcode ∧ discarded box 0x2300002100000000 = false ∧
    decode 0x2300002100000000 = .illegalOperand 33 := by decide +kernel

theorem witness_StepRunsDecoded : (hosted box [.issue 0x2400000000000000]).engine = .idle ∧
    discarded box 0x2400000000000000 = false ∧ decode 0x2400000000000000 = .command .fin ∧ box.err = false ∧
    Instr.fin.wellFormed = true :=
  ⟨rfl, by decide +kernel, by decide, rfl, rfl⟩

/-- Every failed precondition; WPRE's second with its first met. -/
theorem witness_SequenceErrors : box.engine = .idle ∧ box.treeValid = false ∧ box.dictValid = false ∧
    box.preValid = false ∧ (abBox.dictValid = true ∧ { abBox with wcnt := 7 }.wcnt ≠ 0) ∧
    { box with rmask := 0x80 }.rmask ≠ 0 :=
  ⟨rfl, rfl, rfl, rfl, ⟨rfl, by decide⟩, by decide⟩

theorem witness_ErrIsSticky : (hosted errBox [.issue 0x0100000000000000]).err = true ∧
    (∃ t, step (hosted errBox [.issue 0x0100000000000000]) = .next t ∧ t.err = false) ∧
    (errBox.err = true ∧ opField 0x1141000000000001 ≠ 0x01) ∧
    opField 0x0100000000000001 = 0x01 ∧ (0x0100000000000001 : CmdWord) ≠ 0x0100000000000000 :=
  ⟨rfl, ⟨_, rfl, rfl⟩, ⟨rfl, by decide⟩, by decide, by decide⟩

/-- Feed after end of input is refused; the engine waits. -/
theorem witness_StopsAreTheHosts : (hosted (given box []) [.feed 0]).canAdvance = false ∧
    HostAction.enabled (hosted (given box []) [.feed 0]) (.feed 0) = false ∧
    step (hosted (given box []) [.feed 0]) = .refused (.hostNotEnabled (.feed 0)) :=
  ⟨rfl, rfl, rfl⟩

/-- An internal node that is its own child, marked as a tree: ASSIGN's only fault (log 7). -/
def loopBox : State := { box with node := box.node.set 0 ⟨.internal, 0, 0, 0, 0⟩, treeValid := true }

theorem witness_StopsAreTheHosts_assign : exec .assign loopBox = .fault .walkEndless := by
  show execAssign loopBox = _
  have h : assignCodes { loopBox.clearDict with dictValid := false, preValid := false } = none := by
    apply Option.isNone_iff_eq_none.1
    decide +kernel
  rw [execAssign, h]
  rfl

theorem witness_HostActionTable : { box with outq := [1, 2] }.outq = 1 :: [2] := rfl

theorem witness_WaitingKeepsState : (abBox.park 0x22 .enc).canAdvance = false ∧ (abBox.park 0x22 .enc).host.script = [] ∧
    box.engine = .idle ∧ (hosted (abBox.park 0x22 .enc) [.endInput]).canAdvance = false ∧
    HostAction.enabled (hosted (abBox.park 0x22 .enc) [.endInput]) .endInput = true :=
  ⟨rfl, rfl, rfl, rfl, rfl⟩

theorem witness_CommandRunsToEndOrHold : box.engine = .idle ∧ (∃ t, exec (.rbits 32) box = .next t) ∧
    EngineOk (abBox.park 0x21 (.push 0 255 (.wtab 256))) :=
  ⟨rfl, ⟨_, rfl⟩, ⟨by decide, rfl, by decide⟩⟩

/-- One block has drained a byte the other still queues. -/
theorem witness_HostTimingOnlyHolds_step : sameButPorts { box with outq := [7, 8] }
    { box with outq := [8], params := { inDepth := 1, outDepth := 1 }, host := { box.host with drained := [7] } } :=
  ⟨rfl, rfl⟩

/-- Bytes queued, end of input signalled or not. -/
def heldBox (bytes : List Byte) (ended : Bool) : State := { box with inq := bytes, ineos := ended }

theorem fedWith_heldBox (s : State) (more : List Byte) (ended : Bool) :
    fedWith s more { s with inq := s.inq ++ more, ineos := ended } := ⟨rfl, rfl⟩

/-- Held after its first byte; fed the second and ended, it is done. -/
theorem witness_HostTimingOnlyHolds_command : ∃ t t', (heldBox [0xA5] false).engine = .idle ∧
    ((heldBox [0xA5] false).ineos = true → ([0x80] : List Byte) = [] ∧ (heldBox [0xA5, 0x80] true).ineos = true) ∧
    fedWith (heldBox [0xA5] false) [0x80] (heldBox [0xA5, 0x80] true) ∧
    exec (.rbits 9) (heldBox [0xA5] false) = .next t ∧ t.busy = true ∧
    fedWith t [0x80] { t with inq := t.inq ++ [0x80], ineos := true } ∧
    exec (.rbits 9) (heldBox [0xA5, 0x80] true) = .next t' ∧ t'.busy = false ∧
    { t with inq := t.inq ++ [0x80], ineos := true }.advance.busy = false :=
  ⟨_, _, rfl, fun h => absurd h (by decide), ⟨rfl, rfl⟩, rfl, rfl, fedWith_heldBox _ _ _, rfl, rfl, rfl⟩

/-- The same command held before its first byte, fed that byte, and held again. -/
theorem witness_HostTimingOnlyHolds_again :
    let s := (heldBox [0xA5] false).park 0x33 (.rbits 9 0)
    let u := { s.advance with inq := s.advance.inq ++ [0x80], ineos := true }
    let s' := { s with inq := s.inq ++ [0x80], ineos := true }
    s.busy = true ∧ s.ineos = false ∧ fedWith s [0x80] s' ∧ s.advance.busy = true ∧ fedWith s.advance [0x80] u ∧
      u.ineos = s'.ineos ∧ s'.advance.busy = false ∧ u.advance.busy = false :=
  ⟨rfl, rfl, fedWith_heldBox _ _ _, rfl, fedWith_heldBox _ _ _, rfl, rfl, rfl⟩

/-- A block that does not execute, and the ends of the unmapped ranges (R40). -/
theorem witness_WindowMap : box.busy = false ∧
    (([0x000F, 0x00FF, 0x0300, 0x0FFF, 0x17FC, 0x1FFF, 0x2800, 0x2FFF, 0x3008, 0x3FFF] : List WinAddr).all fun a =>
      (0x000F ≤ a.toNat ∧ a.toNat ≤ 0x00FF) ∨ (0x0300 ≤ a.toNat ∧ a.toNat ≤ 0x0FFF) ∨
        (0x17FC ≤ a.toNat ∧ a.toNat ≤ 0x1FFF) ∨ (0x2800 ≤ a.toNat ∧ a.toNat ≤ 0x2FFF) ∨ 0x3008 ≤ a.toNat) = true :=
  ⟨rfl, by decide⟩

theorem witness_BusyReadsAreFree : (abBox.park 0x22 .enc).busy = true := rfl

theorem build_next (s : State) : ∃ t, exec .build s = .next t := by
  show ∃ t, execBuild s = .next t
  unfold execBuild
  dsimp only
  split <;> exact ⟨_, rfl⟩

theorem witness_FramesOfTreeAndCode : (∃ t, exec .nop box = .next t) ∧ (∃ t, exec .clrw box = .next t) ∧
    (∃ t, exec (.setw 0xFF 1) box = .next t) ∧ (∃ t, exec .build box = .next t) ∧ (∃ t, exec .assign box = .next t) ∧
    ∃ t, exec .assign treeBox = .next t ∧ t.dictValid = true :=
  ⟨⟨_, rfl⟩, ⟨_, rfl⟩, ⟨_, rfl⟩, build_next box, ⟨_, rfl⟩,
    (next_of_ends test_assign).imp fun _ h => ⟨h.1, by simp_all⟩⟩

theorem witness_FramesOfWriters : (∃ t, exec .wpre abBox = .next t) ∧ (∃ t, exec .wtab abBox = .next t) ∧
    (∃ t, exec .enc (given abBox [0x41]) = .next t) ∧ (∃ t, exec (.push 8 0xA5) box = .next t) ∧
    ∃ t, exec .fin box = .next t :=
  ⟨⟨_, rfl⟩, ⟨_, rfl⟩, ⟨_, rfl⟩, ⟨_, rfl⟩, ⟨_, rfl⟩⟩

theorem witness_FramesOfReaders : (∃ t, exec .rpre (given box []) = .next t) ∧
    (∃ t, exec .rtab (given preBox [0x40]) = .next t ∧ statusWord t = 0x30) ∧
    (∃ t, exec (.dec 2) (given abBox [0x40]) = .next t) ∧ (∃ t, exec (.rbits 4) (given box [0xA5]) = .next t) ∧
    ∃ t, exec .ralign box = .next t :=
  ⟨⟨_, rfl⟩, (next_of_ends test_rtab).imp fun _ h => ⟨h.1, by simp_all⟩, ⟨_, rfl⟩, ⟨_, rfl⟩, ⟨_, rfl⟩⟩

theorem witness_StreamsMoveForward : Instr.enc ≠ .reset ∧ ∃ t, exec .enc (given abBox [0x41]) = .next t :=
  ⟨by decide, _, rfl⟩

/-- Every task of R45's rows can be what a command is left at. -/
theorem witness_AdvanceFrame : box.engine = .idle ∧
    ∀ t : Task, (abBox.park 0x22 t).engine = .running 0x22 t := ⟨rfl, fun _ => rfl⟩

theorem witness_NopDoesNothing : box.engine = .idle ∧ (box.err = false ∨ Opcode.nop = .reset) ∧
    opField 0x0000000000000001 = Opcode.nop.code ∧
    (0x0000000000000001 : CmdWord) &&& Opcode.nop.mask ≠ Opcode.nop.matchBits :=
  ⟨rfl, .inl rfl, by decide, by decide⟩

theorem witness_ClrwClears : threeBox.engine = .idle ∧ (∀ sym, box.freqOf sym = 0) ∧
    (box.err = false ∨ Opcode.clrw = .reset) ∧ opField 0x1000000000000001 = Opcode.clrw.code ∧
    (0x1000000000000001 : CmdWord) &&& Opcode.clrw.mask ≠ Opcode.clrw.matchBits :=
  ⟨rfl, box_freqOf, .inl rfl, by decide, by decide⟩

theorem witness_SetwSets : box.engine = .idle ∧ (0x42 : Sym) ≠ 0x41 ∧ (box.err = false ∨ Opcode.setw = .reset) ∧
    opField 0x1141000100000005 = Opcode.setw.code ∧
    (0x1141000100000005 : CmdWord) &&& Opcode.setw.mask ≠ Opcode.setw.matchBits :=
  ⟨rfl, by decide, .inl rfl, by decide, by decide⟩

theorem witness_BuildEmptyInput : box.engine = .idle ∧ ∀ sym, box.freqOf sym = 0 := ⟨rfl, box_freqOf⟩

theorem witness_PopMinTakesLeast : ([2, 0, 1] : List Nat) ≠ [] ∧ ([2, 0, 1] : List Nat).Nodup := by decide

theorem witness_BuildMakesTheTree : threeBox.engine = .idle ∧ ∃ sym, threeBox.freqOf sym ≠ 0 :=
  ⟨rfl, 2, by decide +kernel⟩

/-- V-T1's BUILD: three leaves, two internal nodes, so every range of indices of the statements has entries. -/
theorem threeBox_build : ∃ t, exec .build threeBox = .next t ∧
    (t.treeValid && t.nleaf = 3 && t.nnodes = 5 && t.root = 4 && occurring threeBox = [0, 1, 2] &&
      t.node.toList.take 5 = treeBox.node.toList.take 5) = true :=
  next_of_ends (by decide +kernel)

theorem witness_BuildLaysOutTheArena : threeBox.engine = .idle ∧ ∃ t, exec .build threeBox = .next t ∧
    t.treeValid = true ∧ t.nleaf = 3 ∧ t.nnodes = 5 ∧ t.root = 4 ∧ occurring threeBox = [0, 1, 2] := by
  obtain ⟨t, h, p⟩ := threeBox_build
  simp only [Bool.and_eq_true, decide_eq_true_eq] at p
  exact ⟨rfl, t, h, by simp [p]⟩

theorem node_of_take {n m : Vector Node 511} (h : n.toList.take 5 = m.toList.take 5) (k : Nat) (hk : k < 5) :
    nodeAt n k = nodeAt m k := by
  have e := congrArg (fun l : List Node => l[k]?) h
  simp only [List.getElem?_take, hk, if_true] at e
  simpa [nodeAt] using congrArg (fun o => o.getD Node.zero) e

/-- Node 3 was made of 1 and 2 when the queue held 0, 1, 2: 0 is no child of an earlier node, and neither LEFT nor RIGHT. -/
theorem witness_BuildMergesTheLightest : threeBox.engine = .idle ∧ ∃ t, exec .build threeBox = .next t ∧
    t.treeValid = true ∧ t.nleaf.toNat ≤ 3 ∧ 3 < t.nnodes.toNat ∧
    (∀ i', t.nleaf.toNat ≤ i' → i' < 3 → ¬ isChild t.node i' 0) ∧
    0 ≠ (nodeAt t.node 3).left.toNat ∧ 0 ≠ (nodeAt t.node 3).right.toNat := by
  obtain ⟨t, h, p⟩ := threeBox_build
  simp only [Bool.and_eq_true, decide_eq_true_eq] at p
  have n3 : nodeAt t.node 3 = ⟨.internal, 0, 2, 1, 2⟩ := (node_of_take p.2 3 (by decide)).trans (by decide +kernel)
  have l : t.nleaf.toNat = 3 := by simp [p]
  exact ⟨rfl, t, h, by simp [p], by omega, by simp [p], fun i' h3 lt => by omega, by simp [n3], by simp [n3]⟩

theorem witness_BuildDependsOnFreqOnly : threeBox.freq = (given threeBox [1]).freq ∧
    (∃ t, exec .build threeBox = .next t ∧ t.treeValid = true) ∧ ∃ t, exec .build (given threeBox [1]) = .next t :=
  ⟨rfl, threeBox_build.imp fun _ h => ⟨h.1, by simp_all⟩, build_next _⟩

/-- V-T1's tree. -/
def threeTree : Tree := .node (.leaf 0) (.node (.leaf 1) (.leaf 2))

theorem spells_treeBox {node : Vector Node 511} (h : node.toList.take 5 = treeBox.node.toList.take 5) :
    Spells node 4 threeTree := by
  have n0 : nodeAt node 0 = ⟨.leaf, 0, 2, 0, 0⟩ := (node_of_take h 0 (by decide)).trans (by decide +kernel)
  have n1 : nodeAt node 1 = ⟨.leaf, 1, 1, 0, 0⟩ := (node_of_take h 1 (by decide)).trans (by decide +kernel)
  have n2 : nodeAt node 2 = ⟨.leaf, 2, 1, 0, 0⟩ := (node_of_take h 2 (by decide)).trans (by decide +kernel)
  have n3 : nodeAt node 3 = ⟨.internal, 0, 2, 1, 2⟩ := (node_of_take h 3 (by decide)).trans (by decide +kernel)
  have n4 : nodeAt node 4 = ⟨.internal, 0, 4, 0, 3⟩ := (node_of_take h 4 (by decide)).trans (by decide +kernel)
  have s0 : Spells node 0 (.leaf 0) := by simpa [n0] using Spells.leaf (node := node) 0 (by decide) (by rw [n0])
  have s1 : Spells node 1 (.leaf 1) := by simpa [n1] using Spells.leaf (node := node) 1 (by decide) (by rw [n1])
  have s2 : Spells node 2 (.leaf 2) := by simpa [n2] using Spells.leaf (node := node) 2 (by decide) (by rw [n2])
  have s3 : Spells node 3 (.node (.leaf 1) (.leaf 2)) :=
    .node 3 (by decide) (by rw [n3]) _ _ (by rw [n3]; exact s1) (by rw [n3]; exact s2)
  exact .node 4 (by decide) (by rw [n4]) _ _ (by rw [n4]; exact s0) (by rw [n4]; exact s3)

theorem witness_BuildWeights : threeBox.engine = .idle ∧ ∃ t, exec .build threeBox = .next t ∧ t.treeValid = true ∧
    4 < t.nnodes.toNat ∧ Spells t.node 4 threeTree ∧ t.nleaf.toNat ≤ 3 := by
  obtain ⟨t, h, p⟩ := threeBox_build
  simp only [Bool.and_eq_true, decide_eq_true_eq] at p
  exact ⟨rfl, t, h, by simp [p], by simp [p], spells_treeBox p.2, by simp [p]⟩

theorem witness_AssignWritesThePaths : treeBox.engine = .idle ∧ treeBox.treeValid = true ∧
    Spells treeBox.node treeBox.root.toNat threeTree ∧ threeTree.leaves.Nodup :=
  ⟨rfl, rfl, spells_treeBox rfl, by decide⟩

/-- V-L2's weights. -/
def oneBox : State := box.setFreq 0x41 1000

theorem threeBox_assign : ∃ t, execAll [.build, .assign] threeBox = .next t ∧
    (t.nleaf = 3 && t.coded 2 && t.maxlen = 2) = true := next_of_ends (by decide +kernel)

theorem witness_DictionaryOfTheTree : oneBox.engine = .idle ∧ (∃ sym, oneBox.freqOf sym ≠ 0) ∧
    (∃ t, execAll [.build, .assign] oneBox = .next t ∧ (t.nleaf = 1 && t.coded 0x41) = true) ∧
    ∃ t, execAll [.build, .assign] threeBox = .next t ∧ 2 ≤ t.nleaf.toNat ∧ t.coded 2 = true :=
  ⟨rfl, ⟨0x41, by decide +kernel⟩, next_of_ends (by decide +kernel),
    threeBox_assign.imp fun _ h => ⟨h.1, by simp_all, by simp_all⟩⟩

theorem witness_LighterIsAtLeastAsDeep : threeBox.engine = .idle ∧
    (∃ t, execAll [.build, .assign] threeBox = .next t) ∧ threeBox.freqOf 1 ≠ 0 ∧
    (threeBox.freqOf 1).toNat < (threeBox.freqOf 0).toNat :=
  ⟨rfl, threeBox_assign.imp fun _ h => h.1, by decide +kernel, by decide +kernel⟩

theorem witness_WpreEmitsThePreamble : abBox.engine = .idle ∧ abBox.dictValid = true ∧ abBox.wcnt = 0 ∧
    roomFor abBox 256 ∧ box.dictValid = false ∧ { abBox with wcnt := 1 }.wcnt ≠ 0 ∧
    (box.err = false ∨ Opcode.wpre = .reset) ∧ opField 0x2000000000000001 = Opcode.wpre.code ∧
    (0x2000000000000001 : CmdWord) &&& Opcode.wpre.mask ≠ Opcode.wpre.matchBits :=
  ⟨rfl, rfl, rfl, by unfold roomFor; decide, rfl, by decide, .inl rfl, by decide, by decide⟩

/-- Room for 0 and for 255 bytes; left at the last byte and after it. -/
theorem witness_WpreHoldsAndGoesOn :
    (∀ r ∈ ([0, 255] : List Nat), { abBox with params := ⟨1, r⟩ }.outq.length + r = r ∧ r < 256) ∧
    abBox.engine = .idle ∧ abBox.dictValid = true ∧ abBox.wcnt = 0 ∧
    ∀ k ∈ ([0, 255, 256] : List Nat), (abBox.park 0x20 (.wpre k)).engine = .running 0x20 (.wpre k) ∧ k ≤ 256 ∧
      roomFor (abBox.park 0x20 (.wpre k)) (256 - k) :=
  ⟨by decide, rfl, rfl, rfl, by unfold roomFor; decide⟩

/-- Seven pending bits. -/
def pendingBox : State := { abBox with wacc := 0x7F, wcnt := 7 }

theorem pendingBox_writer : WriterOk pendingBox := by unfold WriterOk; decide

theorem witness_WtabEmitsTheTable : pendingBox.engine = .idle ∧ pendingBox.dictValid = true ∧ WriterOk pendingBox ∧
    roomFor pendingBox ((pendingBox.wcnt.toNat + (tableBits pendingBox).length + 7) / 8) ∧ abBox.wcnt = 0 ∧
    box.dictValid = false ∧ (box.err = false ∨ Opcode.wtab = .reset) ∧ opField 0x2100000000000001 = Opcode.wtab.code ∧
    (0x2100000000000001 : CmdWord) &&& Opcode.wtab.mask ≠ Opcode.wtab.matchBits :=
  ⟨rfl, rfl, pendingBox_writer, by unfold roomFor; decide +kernel, rfl, rfl, .inl rfl, by decide, by decide⟩

theorem witness_EncEmitsThePayload : (given pendingBox [0x41, 0x42]).engine = .idle ∧
    (given pendingBox [0x41, 0x42]).dictValid = true ∧ WriterOk (given pendingBox [0x41, 0x42]) ∧
    (given pendingBox [0x41, 0x42]).ineos = true ∧
    (∀ b ∈ (given pendingBox [0x41, 0x42]).inq, (given pendingBox [0x41, 0x42]).coded b = true) ∧
    roomFor (given pendingBox [0x41, 0x42]) (((given pendingBox [0x41, 0x42]).wcnt.toNat +
      (payloadBits (given pendingBox [0x41, 0x42]) [0x41, 0x42]).length + 7) / 8) :=
  ⟨rfl, rfl, pendingBox_writer, rfl, by decide +kernel, by unfold roomFor; decide +kernel⟩

/-- V-W8. -/
theorem witness_EncNoCode : (given abBox [0x41, 0x43, 0x42]).engine = .idle ∧ abBox.dictValid = true ∧
    WriterOk (given abBox [0x41, 0x43, 0x42]) ∧ (given abBox [0x41, 0x43, 0x42]).inq = [0x41] ++ 0x43 :: [0x42] ∧
    (∀ x ∈ ([0x41] : List Byte), (given abBox [0x41, 0x43, 0x42]).coded x = true) ∧
    (given abBox [0x41, 0x43, 0x42]).coded 0x43 = false ∧
    roomFor (given abBox [0x41, 0x43, 0x42]) ((0 + (payloadBits (given abBox [0x41, 0x43, 0x42]) [0x41]).length) / 8) :=
  ⟨rfl, rfl, by unfold WriterOk; decide, rfl, by decide +kernel, by decide +kernel, by unfold roomFor; decide +kernel⟩

/-- Counts 0, 32 and 33, and a word with a non-zero A. -/
theorem witness_PushWrites : pendingBox.engine = .idle ∧ WriterOk pendingBox ∧
    ((0 : BitVec 16).toNat ≤ 32 ∧ roomFor pendingBox ((pendingBox.wcnt.toNat + (0 : BitVec 16).toNat) / 8)) ∧
    ((32 : BitVec 16).toNat ≤ 32 ∧ roomFor pendingBox ((pendingBox.wcnt.toNat + (32 : BitVec 16).toNat) / 8)) ∧
    32 < (33 : BitVec 16).toNat ∧
    (box.err = false ∧ opField 0x2300002100000000 = 0x23 ∧ aField 0x2300002100000000 = 0 ∧
      32 < (bField 0x2300002100000000).toNat) ∧
    (box.err = false ∨ Opcode.push = .reset) ∧ opField 0x2301002800000000 = Opcode.push.code ∧
    (0x2301002800000000 : CmdWord) &&& Opcode.push.mask ≠ Opcode.push.matchBits :=
  ⟨rfl, pendingBox_writer, by unfold roomFor; decide, by unfold roomFor; decide, by decide,
    ⟨rfl, by decide, by decide, by decide⟩, .inl rfl,
    by decide, by decide⟩

/-- Room for none and for three of the four bytes of a count of 32; left at the bit that completes a byte, at all 32 and
at none. -/
theorem witness_PushWrites_hold :
    (∀ r ∈ ([0, 3] : List Nat), { pendingBox with params := ⟨1, r⟩ }.outq.length + r = r ∧
      r < (pendingBox.wcnt.toNat + (32 : BitVec 16).toNat) / 8) ∧
    ∀ k ∈ ([0, 1, 32] : List Nat), (pendingBox.park 0x23 (.push 5 k .stop)).engine = .running 0x23 (.push 5 k .stop) ∧
      WriterOk (pendingBox.park 0x23 (.push 5 k .stop)) ∧ k ≤ 32 ∧
      roomFor (pendingBox.park 0x23 (.push 5 k .stop)) ((pendingBox.wcnt.toNat + k) / 8) :=
  ⟨by decide, by unfold WriterOk roomFor; decide⟩

/-- With room for one byte a PUSH of 16 bits behind 7 pending ones holds 7 bits before its end. -/
theorem test_push_hold : ends (exec (.push 16 0xFFFF) { pendingBox with params := ⟨1, 1⟩ }) (fun t =>
    t.outq = [0xFF] && t.wcnt = 7 && t.busy && { t with params := ⟨1, 2⟩ }.advance.outq = [0xFF, 0xFF]) = true := by
  decide +kernel

theorem witness_FinFlushes : pendingBox.engine = .idle ∧ WriterOk pendingBox ∧ roomFor pendingBox 1 ∧
    pendingBox.wcnt ≠ 0 ∧ (box.engine = .idle ∧ box.wcnt = 0) ∧ (box.err = false ∨ Opcode.fin = .reset) ∧
    opField 0x2400000000000001 = Opcode.fin.code ∧
    (0x2400000000000001 : CmdWord) &&& Opcode.fin.mask ≠ Opcode.fin.matchBits :=
  ⟨rfl, pendingBox_writer, by unfold roomFor; decide, by decide, ⟨rfl, rfl⟩, .inl rfl, by decide, by decide⟩

/-- V-B7's pushes, with room for their one whole byte; a reader on a byte boundary, at the first bit and at the last bit
of a byte; the last bit of the last byte. -/
theorem witness_BitsArePackedMsbFirst :
    (box.engine = .idle ∧ box.wcnt = 0 ∧ box.wacc = 0 ∧
      (∀ p ∈ ([(3, 5), (8, 0xC3)] : List (BitVec 16 × Word32)), p.1.toNat ≤ 32) ∧
      roomFor box (countSum [3, 8] / 8) ∧ 1 ≤ countSum [3, 8] / 8) ∧
    (box.rmask = 0 ∧ { box with inq := [0xA5, 0x80] }.inq = 0xA5 :: [0x80]) ∧
    (∀ m ∈ ([0, 7] : List Nat), m < 8 ∧ { box with rmask := 0x80#8 >>> m }.rmask = 0x80#8 >>> m) ∧
    ((given box [0xA5, 0x80]).engine = .idle ∧ (given box [0xA5, 0x80]).rmask = 0 ∧
      1 < (given box [0xA5, 0x80]).inq.length ∧ 7 < 8) :=
  ⟨⟨rfl, rfl, rfl, by simp, by unfold roomFor; decide, by decide⟩, ⟨rfl, rfl⟩, by decide, ⟨rfl, rfl, by decide, by decide⟩⟩

/-- 256 bytes, 255 bytes with and without end of input, no byte. -/
theorem witness_RpreReadsThePreamble : box.engine = .idle ∧ box.rmask = 0 ∧
    256 ≤ (given box (List.replicate 256 1)).inq.length ∧
    ((given box (List.replicate 255 1)).inq.length < 256 ∧ (given box (List.replicate 255 1)).ineos = true) ∧
    (box.inq.length < 256 ∧ box.ineos = false) ∧ { box with rmask := 1 }.rmask ≠ 0 ∧
    (box.err = false ∨ Opcode.rpre = .reset) ∧ opField 0x3000000000000001 = Opcode.rpre.code ∧
    (0x3000000000000001 : CmdWord) &&& Opcode.rpre.mask ≠ Opcode.rpre.matchBits :=
  ⟨rfl, rfl, by decide +kernel, ⟨by decide +kernel, rfl⟩, ⟨by decide, rfl⟩, by decide, .inl rfl, by decide, by decide⟩

/-- V-R2's state. -/
def tableBox : State := given preBox [0x40]

theorem tableBox_coded (sym : Sym) : tableBox.coded sym = true → sym = 0x41 ∨ sym = 0x42 := by
  show ((box.setLen 0x41 1).setLen 0x42 1).coded sym = true → _
  simp only [State.coded, lenOf_setLen, box_lenOf]
  split <;> [simp_all; (split <;> simp_all)]

theorem witness_RtabReadsTheTable : tableBox.engine = .idle ∧ tableBox.preValid = true ∧ ReaderOk tableBox ∧
    (∃ sym, tableBox.coded sym = true) ∧ tableOffset tableBox 256 ≤ (inputBits tableBox).length ∧
    ∀ a b, a ≠ b → ¬ tableConflict tableBox a b := by
  refine ⟨rfl, rfl, by unfold ReaderOk; decide, ⟨0x41, by decide +kernel⟩, by decide +kernel, ?_⟩
  rintro a b ne ⟨ha, hb, h⟩
  rcases tableBox_coded a ha with rfl | rfl <;> rcases tableBox_coded b hb with rfl | rfl
  · exact ne rfl
  · exact absurd h (by decide +kernel)
  · exact absurd h (by decide +kernel)
  · exact ne rfl

/-- V-R14's state. -/
def conflictBox : State := given { (box.setLen 0 1).setLen 1 2 with preValid := true } [0x20]

theorem conflictBox_coded (sym : Sym) : conflictBox.coded sym = true → sym = 0 ∨ sym = 1 := by
  show ((box.setLen 0 1).setLen 1 2).coded sym = true → _
  simp only [State.coded, lenOf_setLen, box_lenOf]
  split <;> [simp_all; (split <;> simp_all)]

/-- The last symbol's code, and the first's, cut off by the end of the input. -/
def shortBox (sym : Sym) : State := given { box.setLen sym 1 with preValid := true } []

theorem witness_RtabErrors :
    ({ box with preValid := true }.engine = .idle ∧ { box with preValid := true }.preValid = true ∧
      ∀ sym, { box with preValid := true }.coded sym = false) ∧
    (∀ k ∈ ([0, 255] : List Nat), ReaderOk (shortBox (BitVec.ofNat 8 k)) ∧ (shortBox (BitVec.ofNat 8 k)).ineos = true ∧
      k < 256 ∧ tableOffset (shortBox (BitVec.ofNat 8 k)) k ≤ (inputBits (shortBox (BitVec.ofNat 8 k))).length ∧
      (inputBits (shortBox (BitVec.ofNat 8 k))).length < tableOffset (shortBox (BitVec.ofNat 8 k)) (k + 1)) ∧
    (ReaderOk conflictBox ∧ tableOffset conflictBox 256 ≤ (inputBits conflictBox).length ∧
      (0 : Sym).toNat < (1 : Sym).toNat ∧ tableConflict conflictBox 0 1 ∧
      ∀ a' b', a'.toNat < b'.toNat → tableConflict conflictBox a' b' →
        (0 : Sym).toNat < a'.toNat ∨ ((0 : Sym) = a' ∧ (1 : Sym).toNat ≤ b'.toNat)) := by
  refine ⟨⟨rfl, rfl, fun sym => ?_⟩, ?_, by unfold ReaderOk; decide, by decide +kernel, by decide, ?_, ?_⟩
  · show box.coded sym = false
    simp [State.coded, box_lenOf]
  · unfold ReaderOk
    decide +kernel
  · unfold tableConflict
    decide +kernel
  · rintro a b lt ⟨ha, hb, -⟩
    rcases conflictBox_coded a ha with rfl | rfl <;> rcases conflictBox_coded b hb with rfl | rfl <;> simp at lt ⊢

/-- V-L1's payload. -/
theorem witness_DecStopsAtItsLimit : (given abBox [0x40]).engine = .idle ∧ (given abBox [0x40]).dictValid = true ∧
    CodesOk (given abBox [0x40]) ∧ PrefixFree (given abBox [0x40]) ∧ ReaderOk (given abBox [0x40]) ∧
    (2 : Word32) ≠ 0 ∧ [0x41, 0x42].length = (2 : Word32).toNat ∧
    inputSplits (given abBox [0x40]) [0x41, 0x42] [] (zeros 6) ∧ roomFor (given abBox [0x40]) 2 :=
  ⟨rfl, rfl, abBox_codes, abBox_prefixFree, by unfold ReaderOk; decide, by decide, by decide,
    by unfold inputSplits; decide +kernel, by unfold roomFor; decide⟩

theorem aBox_lenOf (sym : Sym) : aBox.lenOf sym = if 0x41 = sym then 1 else 0 := by
  show (withCode box 0x41 1 1).lenOf sym = _
  simp only [withCode, lenOf_setCode, lenOf_setLen, box_lenOf]

theorem aBox_codeOf (sym : Sym) : aBox.codeOf sym = if 0x41 = sym then 1 else 0 := by
  show (withCode box 0x41 1 1).codeOf sym = _
  simp only [withCode, codeOf_setCode, codeOf_setLen, box_codeOf]

theorem aBox_coded (sym : Sym) : aBox.coded sym = true → sym = 0x41 := by
  simp only [State.coded, aBox_lenOf]
  split <;> simp_all

theorem aBox_codes : CodesOk aBox := by
  intro sym
  rw [aBox_codeOf, aBox_lenOf]
  split <;> decide

theorem aBox_prefixFree : PrefixFree aBox := by
  intro a b ne ha hb
  exact absurd ((aBox_coded a ha).trans (aBox_coded b hb).symm) ne

theorem rBox_lenOf (sym : Sym) : rBox.lenOf sym = if 0x52 = sym then 3 else 0 := by
  show (withCode box 0x52 3 7).lenOf sym = _
  simp only [withCode, lenOf_setCode, lenOf_setLen, box_lenOf]

theorem rBox_codeOf (sym : Sym) : rBox.codeOf sym = if 0x52 = sym then 7 else 0 := by
  show (withCode box 0x52 3 7).codeOf sym = _
  simp only [withCode, codeOf_setCode, codeOf_setLen, box_codeOf]

theorem rBox_coded (sym : Sym) : rBox.coded sym = true → sym = 0x52 := by
  simp only [State.coded, rBox_lenOf]
  split <;> simp_all

theorem rBox_codes : CodesOk rBox := by
  intro sym
  rw [rBox_codeOf, rBox_lenOf]
  split <;> decide

theorem rBox_prefixFree : PrefixFree rBox := by
  intro a b ne ha hb
  exact absurd ((rBox_coded a ha).trans (rBox_coded b hb).symm) ne

/-- V-L5: "A" and seven pad zeros. -/
theorem witness_DecDiscardsThePad : (given aBox [0x80]).engine = .idle ∧ (given aBox [0x80]).dictValid = true ∧
    CodesOk (given aBox [0x80]) ∧ PrefixFree (given aBox [0x80]) ∧ ReaderOk (given aBox [0x80]) ∧
    (given aBox [0x80]).ineos = true ∧ inputSplits (given aBox [0x80]) [0x41] (zeros 7) [] ∧ 7 ≤ 7 ∧
    noCodeBegins (given aBox [0x80]) (zeros 7) ∧ roomFor (given aBox [0x80]) 1 := by
  refine ⟨rfl, rfl, aBox_codes, aBox_prefixFree, by unfold ReaderOk; decide, rfl, by unfold inputSplits; decide +kernel,
    le_rfl, fun sym h => ?_, by unfold roomFor; decide⟩
  obtain rfl := aBox_coded sym h
  decide +kernel

/-- V-R5: the candidate "01". -/
theorem witness_DecErrors_candidate : (given aBox [0x40]).engine = .idle ∧ (given aBox [0x40]).dictValid = true ∧
    CodesOk (given aBox [0x40]) ∧ PrefixFree (given aBox [0x40]) ∧ ReaderOk (given aBox [0x40]) ∧
    inputSplits (given aBox [0x40]) [] [false, true] (zeros 6) ∧ noCodeBegins (given aBox [0x40]) [false, true] ∧
    roomFor (given aBox [0x40]) 0 ∧
    (∀ k, k < 2 → k ≠ 0 → someCodeExtends (given aBox [0x40]) ([false, true].take k) ∨ couldBePad ([false, true].take k)) ∧
    [false, true] ≠ [] ∧ ¬ someCodeExtends (given aBox [0x40]) [false, true] ∧ ¬ couldBePad [false, true] := by
  refine ⟨rfl, rfl, aBox_codes, aBox_prefixFree, by unfold ReaderOk; decide, by unfold inputSplits; decide +kernel,
    fun sym h => ?_, by unfold roomFor; decide, fun k hk h0 => .inr ?_, by decide, ?_, by unfold couldBePad; decide⟩
  · obtain rfl := aBox_coded sym h
    decide +kernel
  · obtain rfl : k = 1 := by omega
    unfold couldBePad
    decide
  · rintro ⟨sym, h, hl, -⟩
    obtain rfl := aBox_coded sym h
    exact absurd hl (by decide +kernel)

/-- V-R4: the tail "11" at exhaustion. -/
theorem witness_DecErrors_tail : (given rBox [0xFF]).engine = .idle ∧ (given rBox [0xFF]).dictValid = true ∧
    CodesOk (given rBox [0xFF]) ∧ PrefixFree (given rBox [0xFF]) ∧ ReaderOk (given rBox [0xFF]) ∧
    ((5 : Word32) ≠ 0 → [0x52, 0x52].length < (5 : Word32).toNat) ∧
    inputSplits (given rBox [0xFF]) [0x52, 0x52] [true, true] [] ∧ noCodeBegins (given rBox [0xFF]) [true, true] ∧
    roomFor (given rBox [0xFF]) 2 ∧
    (∀ k, k < 2 → k ≠ 0 → someCodeExtends (given rBox [0xFF]) ([true, true].take k) ∨ couldBePad ([true, true].take k)) ∧
    (given rBox [0xFF]).ineos = true ∧ someCodeExtends (given rBox [0xFF]) [true, true] ∧ ¬ couldBePad [true, true] := by
  refine ⟨rfl, rfl, rBox_codes, rBox_prefixFree, by unfold ReaderOk; decide, by decide, by unfold inputSplits; decide +kernel,
    fun sym h => ?_, by unfold roomFor; decide, fun k hk h0 => .inl ⟨0x52, ?_⟩, rfl, ⟨0x52, by decide +kernel⟩,
    by unfold couldBePad; decide⟩
  · obtain rfl := rBox_coded sym h
    decide +kernel
  · obtain rfl : k = 1 := by omega
    decide +kernel

/-- V-R6: an empty payload under a limit. -/
theorem witness_DecErrors_short : (given abBox []).engine = .idle ∧ (given abBox []).dictValid = true ∧
    CodesOk (given abBox []) ∧ PrefixFree (given abBox []) ∧ ReaderOk (given abBox []) ∧
    ((1 : Word32) ≠ 0 ∧ ([] : List Sym).length < (1 : Word32).toNat) ∧ inputSplits (given abBox []) [] [] [] ∧
    noCodeBegins (given abBox []) [] ∧ roomFor (given abBox []) 0 ∧ (given abBox []).ineos = true ∧ couldBePad [] := by
  refine ⟨rfl, rfl, abBox_codes, abBox_prefixFree, by unfold ReaderOk; decide, by decide, by unfold inputSplits; decide +kernel,
    fun sym h => ?_, by unfold roomFor; decide, rfl, by unfold couldBePad; decide⟩
  rcases abBox_coded sym h with rfl | rfl <;> decide +kernel

/-- Exactly enough, too little, and a count of 33. -/
theorem witness_RbitsReads : ReaderOk box ∧ box.engine = .idle ∧
    ((32 : BitVec 16).toNat ≤ 32 ∧ (32 : BitVec 16).toNat ≤ (inputBits (given box [0x12, 0x34, 0x56, 0x78])).length) ∧
    ((inputBits (given box [0xA5])).length < (9 : BitVec 16).toNat ∧ (given box [0xA5]).ineos = true) ∧
    32 < (33 : BitVec 16).toNat ∧ (box.err = false ∨ Opcode.rbits = .reset) ∧
    opField 0x3300000400000001 = Opcode.rbits.code ∧
    (0x3300000400000001 : CmdWord) &&& Opcode.rbits.mask ≠ Opcode.rbits.matchBits :=
  ⟨by unfold ReaderOk; decide, rfl, ⟨by decide, by decide⟩, ⟨by decide, rfl⟩, by decide, .inl rfl, by decide, by decide⟩

/-- With no end of input; left with 0, with some and with all bits read, the rest there, not there and ended, not there. -/
theorem witness_RbitsReads_hold :
    ((inputBits (heldBox [0xA5] false)).length < (9 : BitVec 16).toNat ∧ (heldBox [0xA5] false).ineos = false) ∧
    (∀ j ∈ ([0, 31, 32] : List Nat),
      ((heldBox [1, 2, 3, 4] false).park 0x33 (.rbits 32 j)).engine = .running 0x33 (.rbits 32 j) ∧
      ReaderOk ((heldBox [1, 2, 3, 4] false).park 0x33 (.rbits 32 j)) ∧ j ≤ 32 ∧
      32 - j ≤ (inputBits ((heldBox [1, 2, 3, 4] false).park 0x33 (.rbits 32 j))).length) ∧
    (∀ e ∈ ([true, false] : List Bool), (inputBits ((heldBox [] e).park 0x33 (.rbits 32 31))).length < 32 - 31 ∧
      ((heldBox [] e).park 0x33 (.rbits 32 31)).ineos = e) ∧
    (box.err = false ∧ opField 0x3300002100000000 = 0x33 ∧
      (0x3300002100000000 : CmdWord) &&& Opcode.rbits.mask = Opcode.rbits.matchBits ∧
      32 < (bField 0x3300002100000000).toNat) :=
  ⟨⟨by decide, rfl⟩, by unfold ReaderOk; decide, by decide, rfl, by decide, by decide, by decide⟩

theorem witness_RalignDrops : { box with rmask := 0x10 }.engine = .idle ∧ (box.err = false ∨ Opcode.ralign = .reset) ∧
    opField 0x3400000000000001 = Opcode.ralign.code ∧
    (0x3400000000000001 : CmdWord) &&& Opcode.ralign.mask ≠ Opcode.ralign.matchBits :=
  ⟨rfl, .inl rfl, by decide, by decide⟩

/-- P1 before BUILD: the counts of "AB" and the input. -/
def abReady : State := given ((box.setFreq 0x41 1).setFreq 0x42 1) [0x41, 0x42]

theorem abReady_ready : ReadyToCompress abReady [0x41, 0x42] where
  idle := rfl
  someInput := by decide
  counted b := by
    show (((box.setFreq 0x41 1).setFreq 0x42 1).freqOf b).toNat = _
    simp only [freqOf_setFreq, box_freqOf]
    split
    · subst_vars
      decide
    · split
      · subst_vars
        decide
      · simp_all [eq_comm]
  aligned := ⟨rfl, rfl⟩
  queued := rfl
  ended := rfl

theorem witness_CompressEmitsTheContainer : ReadyToCompress abReady [0x41, 0x42] ∧
    roomFor abReady (256 + 8160 + 32 * [0x41, 0x42].length) := ⟨abReady_ready, by unfold roomFor; decide⟩

theorem room9 (bytes : List Byte) : roomFor (given box bytes) 9 := by
  show 0 + 9 ≤ 16384
  decide

theorem room2 (bytes : List Byte) : roomFor (given box bytes) 2 := by
  show 0 + 2 ≤ 16384
  decide

theorem given_ready (bytes : List Byte) : ReadyToDecompress (given box bytes) bytes := ⟨rfl, rfl, rfl, rfl⟩

theorem witness_DecompressGivesTheInput : CodesOk abBox ∧ PrefixFree abBox ∧ ([0x41, 0x42] : List Byte) ≠ [] ∧
    ([0x41, 0x42] : List Byte).length < 2 ^ 32 ∧ (∀ b ∈ ([0x41, 0x42] : List Byte), abBox.coded b = true) ∧
    ReadyToDecompress (given box (containerOf abBox [0x41, 0x42])) (containerOf abBox [0x41, 0x42]) ∧
    roomFor (given box (containerOf abBox [0x41, 0x42])) 2 :=
  ⟨abBox_codes, abBox_prefixFree, by decide, by decide, by decide +kernel, given_ready _, room2 _⟩

theorem wpre_next (s : State) : ∃ t, exec .wpre s = .next t := by
  show ∃ t, execWpre s = .next t
  unfold execWpre
  split <;> [exact ⟨_, rfl⟩; (split <;> exact ⟨_, rfl⟩)]

theorem wtab_next (s : State) : ∃ t, exec .wtab s = .next t := by
  show ∃ t, execWtab s = .next t
  unfold execWtab
  split <;> exact ⟨_, rfl⟩

theorem enc_next (s : State) : ∃ t, exec .enc s = .next t := by
  show ∃ t, execEnc s = .next t
  unfold execEnc
  split <;> exact ⟨_, rfl⟩

theorem abReady_compress : ∃ t, execAll Pseudo.compress.expand abReady = .next t := by
  obtain ⟨a, ha⟩ := build_next abReady
  obtain ⟨b, hb, -⟩ := next_of_ends (r := execAll [.build, .assign] abReady) (p := fun _ => true) (by decide +kernel)
  simp only [execAll, ha] at hb
  obtain ⟨b', hb'⟩ : ∃ b', exec .assign a = .next b' := by
    cases h : exec .assign a with
    | next b' => exact ⟨b', rfl⟩
    | fault f => simp [h] at hb
    | refused r => simp [h] at hb
  obtain ⟨c, hc⟩ := wpre_next b'
  obtain ⟨d, hd⟩ := wtab_next c
  obtain ⟨e, he⟩ := enc_next d
  exact ⟨e, by simp only [Pseudo.expand, execAll, ha, hb', hc, hd, he]⟩

theorem witness_RoundTrip : ReadyToCompress abReady [0x41, 0x42] ∧ [0x41, 0x42].length < 2 ^ 32 ∧
    roomFor abReady (256 + 8160 + 32 * [0x41, 0x42].length) ∧
    ∃ t, execAll Pseudo.compress.expand abReady = .next t ∧
      ReadyToDecompress (given box (t.outq.drop abReady.outq.length)) (t.outq.drop abReady.outq.length) ∧
      roomFor (given box (t.outq.drop abReady.outq.length)) [0x41, 0x42].length := by
  obtain ⟨t, h⟩ := abReady_compress
  exact ⟨abReady_ready, by decide, by unfold roomFor; decide, t, h, given_ready _, room2 _⟩

/-- The pad completes the all-zero code of 0x41; under V-R5's dictionary no code is all zeros. -/
theorem witness_DecompressWithoutTheCount :
    (CodesOk abBox ∧ PrefixFree abBox ∧ (∀ b ∈ ([0x41, 0x42] : List Byte), abBox.coded b = true) ∧
      ReadyToDecompress (given box (containerOf abBox [0x41, 0x42])) (containerOf abBox [0x41, 0x42]) ∧
      roomFor (given box (containerOf abBox [0x41, 0x42])) (2 + 7) ∧ abBox.coded 0x41 = true ∧ abBox.codeOf 0x41 = 0 ∧
      6 = padCount (payloadBits abBox [0x41, 0x42]).length) ∧
    (CodesOk aBox ∧ PrefixFree aBox ∧ (∀ b ∈ ([0x41] : List Byte), aBox.coded b = true) ∧
      (∀ z, aBox.coded z = true → aBox.codeOf z ≠ 0) ∧ 7 = padCount (payloadBits aBox [0x41]).length) ∧
    0 = padCount (payloadBits abBox (List.replicate 8 0x41)).length ∧
    threeBox.engine = .idle ∧ ∃ sym, threeBox.freqOf sym ≠ 0 := by
  refine ⟨⟨abBox_codes, abBox_prefixFree, by decide +kernel, given_ready _, room9 _, by decide +kernel,
    by decide +kernel, by decide +kernel⟩, ⟨aBox_codes, aBox_prefixFree, by decide +kernel, fun z h => ?_,
    by decide +kernel⟩, by decide +kernel, rfl, 2, by decide +kernel⟩
  obtain rfl := aBox_coded z h
  decide +kernel

/-- V-B7's pushes. The reader is given the bytes, whatever they are: it reads the 11 bits and the 5 pad bits, then asks for
one bit more, or reads across the end. -/
theorem witness_WriterAndReaderAgree : box.engine = .idle ∧ box.wcnt = 0 ∧ box.wacc = 0 ∧
    (∀ p ∈ ([(3, 5), (8, 0xC3)] : List (BitVec 16 × Word32)), p.1.toNat ≤ 32) ∧
    roomFor box ((countSum [3, 8] + 7) / 8) ∧
    (∃ p, p = pushedBits [(3, 5), (8, 0xC3)] ++ zeros ((8 - (pushedBits [(3, 5), (8, 0xC3)]).length % 8) % 8) ∧
      (countSum [3, 8] ≤ p.length ∧ countSum [3, 8] + (5 : BitVec 16).toNat ≤ p.length) ∧
      (countSum [3, 8, 5] ≤ p.length ∧ p.length < countSum [3, 8, 5] + (1 : BitVec 16).toNat) ∧
      (countSum [3] ≤ p.length ∧ p.length < countSum [3] + (32 : BitVec 16).toNat)) ∧
    ∀ bytes, (given box bytes).engine = .idle ∧ (given box bytes).rmask = 0 ∧ (given box bytes).inq = bytes ∧
      (given box bytes).ineos = true ∧ ∀ c ∈ ([3, 8, 5] : List (BitVec 16)), c.toNat ≤ 32 :=
  ⟨rfl, rfl, rfl, by simp, by unfold roomFor; decide, ⟨_, rfl, by decide +kernel⟩, fun _ => ⟨rfl, rfl, rfl, rfl, by simp⟩⟩

/-- A block that holds in ENC, and the host about to end the input. -/
theorem abBox_inv : BlockInv (hosted (abBox.park 0x22 .enc) [.endInput]) where
  writer := by unfold WriterOk; decide
  reader := by unfold ReaderOk; decide
  queue := rfl
  cand := by unfold CandOk; decide
  codes := abBox_codes
  ports := by unfold PortsOk; decide
  errors := ⟨fun _ => ⟨rfl, rfl, rfl⟩, fun h => absurd h (by decide)⟩
  tree h := absurd h (by decide)
  dict := ⟨fun _ => ⟨rfl, ⟨0x41, by decide +kernel⟩, abBox_prefixFree, by decide +kernel⟩, fun h => absurd h (by decide)⟩
  engine := rfl

theorem witness_StepKeepsInv : BlockInv (hosted (abBox.park 0x22 .enc) [.endInput]) ∧
    ∃ t, step (hosted (abBox.park 0x22 .enc) [.endInput]) = .next t ∧ t.ineos = true := ⟨abBox_inv, _, rfl, rfl⟩

theorem witness_StepNeverFaults : BlockInv (hosted (abBox.park 0x22 .enc) [.endInput]) := abBox_inv


end Sys2Proof.Tests
end

section
/-! PROOF. A command runs to its end or to a hold (00_scope.md R10, 20_memory.md R72): a bound on the steps left of a
command drops with every step that goes on, and it starts below the model's bound on turns (log 16). -/

namespace Sys2Proof.Machine

/-! ### The steps left of a command -/

/-- The bits `NextBit` can still give: those under the mask and those of the IN queue (R79). -/
def bitsLeft (s : State) : Nat := unreadCount s + 8 * s.inq.length

/-- Bounds WTAB's and RTAB's loop from symbol `k`: for each symbol its loop turn, the 255 bits its code has at most, and
the step that leaves the code. -/
def symbolSteps (k : Nat) : Nat := 257 * (256 - k)

/-- Bounds ENC from the top of its loop: for each byte its loop turn, the 255 bits its code has at most, and the step
that leaves the code. -/
def encSteps (s : State) : Nat := 257 * s.inq.length + 1

/-- Bounds the steps left of a command after a `PushBits`. -/
def AfterPush.stepsLeft (s : State) : AfterPush → Nat
  | .stop => 0
  | .wtab k => symbolSteps k + 1
  | .enc => encSteps s

/-- Bounds the steps left of a command before its last one, at each place in its pseudocode. -/
def Task.stepsLeft : Task → State → Nat
  | .wpre k, _ => 256 - k
  | .wtab k, _ => symbolSteps k + 1
  | .enc, s => encSteps s
  | .push _ n after, s => n + 1 + after.stepsLeft s
  | .finish, _ => 0
  | .rpre k, _ => 256 - k
  | .rtab k, _ => symbolSteps k
  | .rtabCode sym n _, _ => n + 1 + symbolSteps (sym.toNat + 1)
  | .dec _, s => 2 * bitsLeft s
  | .decEmit _ _, s => 2 * bitsLeft s + 1
  | .rbits n j, _ => n - j

theorem symbolSteps_succ {k : Nat} (h : k < 256) : symbolSteps (k + 1) + 257 = symbolSteps k := by
  unfold symbolSteps; omega

theorem symbolSteps_le (k : Nat) : symbolSteps k ≤ 65792 := by
  unfold symbolSteps; omega

/-- The mask loses one place per bit, whatever it is. -/
theorem maskCount_shift : ∀ m : Byte, m ≠ 0 → maskCount (m >>> 1) + 1 = maskCount m := by decide +kernel

/-- `NextBit` uses up one bit, whatever the mask (R79). -/
theorem bitsLeft_nextBit {s t : State} {b : Bool} (h : s.nextBit = .bit b t) : bitsLeft t + 1 = bitsLeft s := by
  unfold bitsLeft
  rw [unreadCount_eq, unreadCount_eq]
  rcases State.nextBit_bit.1 h with ⟨hm, -, rfl⟩ | ⟨hm, x, rest, hq, -, rfl⟩
  · have := maskCount_shift s.rmask hm
    simp only [State.setReader_rmask, State.setReader_inq]
    omega
  · have h0 : maskCount 0 = 0 := by decide
    have h40 : maskCount 0x40 = 7 := by decide
    simp only [State.setReader_rmask, State.setReader_inq, State.takeIn_inq, hm, hq, h0, h40, List.length_cons]
    omega

theorem bitsLeft_le (s : State) : bitsLeft s ≤ 8 + 8 * s.inq.length :=
  Nat.add_le_add_right (maskCount_le s.rmask) _

/-- `PushBit` takes no input. -/
theorem pushBit_inq {s t : State} {b : Bool} (h : s.pushBit b = some t) : t.inq = s.inq := by
  rcases State.pushBit_some.1 h with ⟨-, rfl⟩ | ⟨-, -, rfl⟩ <;> rfl

theorem AfterPush.stepsLeft_congr {s t : State} (h : t.inq = s.inq) (after : AfterPush) :
    after.stepsLeft t = after.stepsLeft s := by
  cases after <;> simp [AfterPush.stepsLeft, encSteps, h]

/-- Every step that goes on leaves fewer steps, from any task in any state. -/
theorem Task.stepsLeft_go {t t' : Task} {s s' : State} (h : t.step s = .go t' s') : t'.stepsLeft s' < t.stepsLeft s := by
  cases t with
  | wpre k =>
    simp only [Task.step, stepWpre] at h
    split at h <;> [split at h; skip] <;> cases h
    simp only [Task.stepsLeft]; omega
  | wtab k =>
    have hl := (s.lenOf (BitVec.ofNat 8 k)).isLt
    simp only [Task.step, stepWtab, pushCode] at h
    split at h
    · next hk =>
      have := symbolSteps_succ hk
      split at h <;> cases h <;> simp only [Task.stepsLeft, AfterPush.stepsLeft] <;> omega
    · cases h; exact Nat.succ_pos _
  | enc =>
    simp only [Task.step, stepEnc, pushCode] at h
    split at h
    · cases h
    · cases h; exact Nat.succ_pos _
    · next b u hb =>
      obtain ⟨rest, hq, rfl⟩ := State.inByte_byte.1 hb
      have hl := ((s.takeIn rest).lenOf b).isLt
      split at h <;> cases h
      simp only [Task.stepsLeft, AfterPush.stepsLeft, encSteps, State.takeIn_inq, hq, List.length_cons]
      omega
  | push v n after =>
    simp only [Task.step, stepPush] at h
    cases n with
    | zero => cases after <;> cases h <;> simp [Task.stepsLeft, AfterPush.stepsLeft]
    | succ k =>
      dsimp only at h
      split at h <;> cases h
      next hp =>
      simp only [Task.stepsLeft, AfterPush.stepsLeft_congr (pushBit_inq hp)]
      omega
  | finish =>
    simp only [Task.step, stepFinish] at h
    split at h <;> cases h
  | rpre k =>
    simp only [Task.step, stepRpre] at h
    split at h <;> [split at h; skip] <;> cases h
    simp only [Task.stepsLeft]; omega
  | rtab k =>
    have hl := (s.lenOf (BitVec.ofNat 8 k)).isLt
    simp only [Task.step, stepRtab, endRtab] at h
    split at h
    · next hk =>
      have := symbolSteps_succ hk
      have hsym : (BitVec.ofNat 8 k).toNat = k := Nat.mod_eq_of_lt hk
      split at h <;> cases h <;> simp only [Task.stepsLeft, hsym] <;> omega
    · split at h <;> cases h
  | rtabCode sym n c =>
    simp only [Task.step, stepRtabCode] at h
    cases n with
    | zero => cases h; simp only [Task.stepsLeft]; omega
    | succ k =>
      dsimp only at h
      split at h <;> cases h
      simp only [Task.stepsLeft]; omega
  | dec limit =>
    simp only [Task.step, stepDec, decExhausted, decCandidate] at h
    split at h
    · cases h
    · split at h
      · cases h
      · split at h <;> [skip; split at h] <;> cases h
      · next b u hb =>
        have hu : bitsLeft (extendCand u b) + 1 = bitsLeft s := bitsLeft_nextBit (t := u) hb
        split at h <;> [skip; split at h] <;> cases h <;> simp only [Task.stepsLeft] <;> omega
  | decEmit limit sym =>
    simp only [Task.step, stepDecEmit] at h
    split at h <;> cases h
    next ho =>
    obtain ⟨-, rfl⟩ := State.outByte_some.1 ho
    exact Nat.lt_succ_self _
  | rbits n j =>
    simp only [Task.step, stepRbits] at h
    split at h <;> [split at h; skip] <;> cases h
    simp only [Task.stepsLeft]; omega

/-! ### The bound on turns is never what stops a command (log 16) -/

/-- The counts a task carries are those of a code or of R92: what bounds its steps. -/
def Task.countsOk : Task → Prop
  | .push _ n _ => n ≤ 255
  | .rtabCode _ n _ => n ≤ 255
  | .rbits n _ => n ≤ 32
  | _ => True

theorem TaskOk.countsOk {s : State} {t : Task} (h : TaskOk s t) : t.countsOk := by
  cases t with
  | push v n after => exact h.1
  | rtabCode sym n c =>
    obtain ⟨-, -, hn, -⟩ := h
    exact hn.trans (Nat.le_of_lt_succ (s.lenOf sym).isLt)
  | rbits n j => exact h.1
  | _ => trivial

theorem AfterPush.stepsLeft_le (after : AfterPush) (s : State) : after.stepsLeft s ≤ 65793 + 257 * s.inq.length := by
  cases after with
  | stop => exact Nat.zero_le _
  | wtab k => have := symbolSteps_le k; simp only [AfterPush.stepsLeft]; omega
  | enc => simp only [AfterPush.stepsLeft, encSteps]; omega

theorem Task.stepsLeft_lt_turnsFor {t : Task} (h : t.countsOk) (s : State) : t.stepsLeft s < turnsFor s := by
  unfold turnsFor
  cases t with
  | push v n after =>
    have hn : n ≤ 255 := h
    have := after.stepsLeft_le s
    simp only [Task.stepsLeft]; omega
  | rtabCode sym n c =>
    have hn : n ≤ 255 := h
    have := symbolSteps_le (sym.toNat + 1)
    simp only [Task.stepsLeft]; omega
  | rbits n j =>
    have hn : n ≤ 32 := h
    simp only [Task.stepsLeft]; omega
  | wtab k | rtab k => have := symbolSteps_le k; simp only [Task.stepsLeft]; omega
  | dec limit | decEmit limit sym => have := bitsLeft_le s; simp only [Task.stepsLeft]; omega
  | enc => simp only [Task.stepsLeft, encSteps]; omega
  | finish | wpre k | rpre k => simp only [Task.stepsLeft]; omega

/-- A command that starts or goes on at a task with its counts in range stops at its end, its error or a hold. -/
theorem runTask_turnsFor_settles (op : Byte) {t : Task} (h : t.countsOk) (s : State) :
    (runTask op (turnsFor s) t s).canAdvance = false :=
  runTask_settles op (fun _ _ => True) Task.stepsLeft (fun _ _ _ _ _ hs => ⟨trivial, Task.stepsLeft_go hs⟩)
    _ _ _ trivial (Task.stepsLeft_lt_turnsFor h s)

theorem canAdvance_of_idle {s : State} (h : s.engine = .idle) : s.canAdvance = false :=
  canAdvance_eq_false.2 (.inl h)

theorem start_settles {o : Opcode} {t : Task} {s : State} (h : t.countsOk) : (start o t s).canAdvance = false :=
  runTask_turnsFor_settles o.code h s

/-- A count that PUSH and RBITS do not refuse (R92). -/
theorem le_of_countLegal {n : BitVec 16} (h : ¬ (!countLegal n) = true) : n.toNat ≤ 32 := by
  simpa [countLegal] using h

/-- A command that answers a next state leaves the engine waiting, whatever the state it began in (R10, R72). -/
theorem exec_settles {i : Instr} {s t : State} (h : exec i s = .next t) : t.canAdvance = false := by
  cases i with
  | nop | reset | clrw | setw sym w | ralign => cases h; rfl
  | build =>
    simp only [exec, execBuild] at h
    split at h <;> cases h <;> rfl
  | assign =>
    simp only [exec, execAssign] at h
    split at h <;> [skip; split at h] <;> cases h <;> rfl
  | wtab | enc | rpre | dec limit =>
    simp only [exec, execWtab, execEnc, execRpre, execDec] at h
    split at h <;> cases h
    · rfl
    · exact start_settles trivial
  | wpre | rtab =>
    simp only [exec, execWpre, execRtab] at h
    split at h <;> [skip; split at h] <;> cases h
    · rfl
    · rfl
    · exact start_settles trivial
  | push n v =>
    simp only [exec, execPush] at h
    split at h <;> cases h
    · rfl
    · next hn => exact start_settles (show n.toNat ≤ 255 from (le_of_countLegal hn).trans (by decide))
  | fin => cases h; exact start_settles trivial
  | rbits n =>
    simp only [exec, execRbits] at h
    split at h <;> cases h
    · rfl
    · next hn => exact start_settles (show n.toNat ≤ 32 from le_of_countLegal hn)

/-- A command that goes on stops at its end, its error or a hold. -/
theorem advance_settles {s : State} (h : EngineOk s) : s.advance.canAdvance = false := by
  unfold EngineOk at h
  unfold State.advance
  cases he : s.engine with
  | idle => exact canAdvance_of_idle he
  | running op t =>
    rw [he] at h
    exact runTask_turnsFor_settles op h.countsOk s

/-- Settles O15: every step that goes on leaves fewer of a command's steps, and the bound on turns is above them all. -/
theorem commandRunsToEndOrHold : Obligations.CommandRunsToEndOrHold :=
  ⟨fun _ _ _ _ h => exec_settles h, fun _ h => advance_settles h⟩

end Sys2Proof.Machine
end

section
/-! PROOF. BUILD leaves a tree in the arena (41_tree_builder.md R123 to R125): the members of the queue stay the roots
of disjoint trees over the symbols that occur, and each turn of the merge loop joins two of them. The order `PopMin`
takes them in does not matter here. -/

namespace Sys2Proof.Machine

/-! ### `PopMin` and the merge loop as list operations (R123, R124) -/

theorem leastKey_mem (node : Vector Node 511) : ∀ (l : List Nat) (m : Nat), leastKey node m l ∈ m :: l := by
  intro l
  induction l with
  | nil => intro m; exact List.mem_singleton.2 rfl
  | cons i l ih =>
    intro m
    have h := ih (if lighter node i m then i else m)
    simp only [leastKey, List.mem_cons] at h ⊢
    split at h <;> grind

theorem popMin_eq_none {node : Vector Node 511} {pq : List Nat} : popMin node pq = none ↔ pq = [] := by
  cases pq <;> simp [popMin]

@[simp] theorem popMin_singleton (node : Vector Node 511) (i : Nat) : popMin node [i] = some (i, []) := by
  simp [popMin, leastKey]

/-- `PopMin` takes a member out of the queue. -/
theorem popMin_perm {node : Vector Node 511} {pq rest : List Nat} {m : Nat} (h : popMin node pq = some (m, rest)) :
    pq.Perm (m :: rest) := by
  cases pq with
  | nil => cases h
  | cons i l =>
    simp only [popMin, Option.some.injEq, Prod.mk.injEq] at h
    obtain ⟨rfl, rfl⟩ := h
    exact List.perm_cons_erase (leastKey_mem node l i)

theorem mergeStep_eq_some {a b : Arena} : mergeStep a = some b ↔ ∃ l p r q,
    popMin a.node a.pq = some (l, p) ∧ popMin a.node p = some (r, q) ∧
      b = { a with pq := q }.add (joinNode a.node l r) := by
  simp only [mergeStep, bind, Option.bind_eq_some_iff, pure, Option.some.injEq, Prod.exists, eq_comm (b := b)]
  grind

theorem mergeStep_eq_none {a : Arena} (h : mergeStep a = none) : a.pq.length ≤ 1 := by
  cases hp : popMin a.node a.pq with
  | none => simp [popMin_eq_none.1 hp]
  | some x =>
    have hq : popMin a.node x.2 = none := by
      cases hq : popMin a.node x.2 with
      | none => rfl
      | some y => exact absurd (mergeStep_eq_some.2 ⟨_, _, _, _, hp, hq, rfl⟩) (by simp [h])
    rw [(popMin_perm hp).length_eq, popMin_eq_none.1 hq]
    rfl

/-- The two members a turn of the merge loop takes out of the queue. -/
theorem mergeStep_perm {a b : Arena} (h : mergeStep a = some b) : ∃ l r q,
    a.pq.Perm (l :: r :: q) ∧ b = { a with pq := q }.add (joinNode a.node l r) := by
  obtain ⟨l, p, r, q, hl, hr, rfl⟩ := mergeStep_eq_some.1 h
  exact ⟨l, r, q, (popMin_perm hl).trans ((popMin_perm hr).cons l), rfl⟩

/-- The induction over the merge loop, once. -/
theorem mergeLoop_induction {P : Arena → Prop} (turn : ∀ a b, P a → mergeStep a = some b → P b) :
    ∀ n a, P a → P (mergeLoop n a) := by
  intro n
  induction n with
  | zero => exact fun _ h => h
  | succ n ih =>
    intro a h
    unfold mergeLoop
    split
    · exact h
    · next b hb => exact ih b (turn a b h hb)

/-- A turn of the merge loop leaves one member fewer. -/
theorem mergeStep_length {a b : Arena} (h : mergeStep a = some b) : b.pq.length + 1 = a.pq.length := by
  obtain ⟨l, r, q, hp, rfl⟩ := mergeStep_perm h
  simp [hp.length_eq, Arena.add]

/-- As many turns as there are members are enough to leave one. -/
theorem mergeLoop_length : ∀ n a, 1 ≤ a.pq.length → a.pq.length ≤ n + 1 → (mergeLoop n a).pq.length = 1 := by
  intro n
  induction n with
  | zero => intro a h1 h2; exact Nat.le_antisymm h2 h1
  | succ n ih =>
    intro a h1 h2
    unfold mergeLoop
    split
    · next h => exact Nat.le_antisymm (mergeStep_eq_none h) h1
    · next b hb =>
      have hlen := mergeStep_length hb
      obtain ⟨l, r, q, -, rfl⟩ := mergeStep_perm hb
      exact ih _ (by simp [Arena.add]) (by omega)

/-! ### Trees below an index -/

/-- Every internal node below index `k` stands over two earlier ones (R123). -/
def ClosedBelow (node : Vector Node 511) (k : Nat) : Prop :=
  ∀ i < k, (nodeAt node i).kind = .internal → (nodeAt node i).left.toNat < i ∧ (nodeAt node i).right.toNat < i

/-- A tree below index `k` is read off the entries below `k` alone. -/
theorem Spells.congr_below {node node' : Vector Node 511} {k : Nat} (hc : ClosedBelow node k)
    (hn : ∀ j < k, nodeAt node' j = nodeAt node j) {i : Nat} {t : Tree} (h : Spells node i t) :
    i < k → Spells node' i t := by
  induction h with
  | leaf i h hk =>
    intro hi
    rw [← hn i hi] at hk ⊢
    exact .leaf i h hk
  | node i h hk l r _ _ ihl ihr =>
    intro hi
    obtain ⟨hl, hr⟩ := hc i hi hk
    rw [← hn i hi] at hk hl hr ihl ihr
    exact .node i h hk l r (ihl (hl.trans hi)) (ihr (hr.trans hi))

section Add
variable {a : Arena} {n : Node} (room : a.next < 511)
include room

theorem nodeAt_add (j : Nat) : nodeAt (a.add n).node j = if a.next = j then n else nodeAt a.node j :=
  nodeAt_setIfInBounds a.node a.next j n room

theorem nodeAt_add_of_lt {j : Nat} (h : j < a.next) : nodeAt (a.add n).node j = nodeAt a.node j := by
  rw [nodeAt_add room, if_neg (by omega)]

theorem nodeAt_add_next : nodeAt (a.add n).node a.next = n := by
  rw [nodeAt_add room, if_pos rfl]

theorem closedBelow_add (h : ClosedBelow a.node a.next)
    (hn : n.kind = .internal → n.left.toNat < a.next ∧ n.right.toNat < a.next) :
    ClosedBelow (a.add n).node (a.next + 1) := by
  intro i hi
  rcases Nat.lt_succ_iff_lt_or_eq.1 hi with hlt | rfl
  · rw [nodeAt_add_of_lt room hlt]; exact h i hlt
  · rw [nodeAt_add_next room]; exact hn

/-- Appending a record keeps the trees there are. -/
theorem spells_add (hc : ClosedBelow a.node a.next) {i : Nat} {t : Tree} (hi : i < a.next) (h : Spells a.node i t) :
    Spells (a.add n).node i t :=
  h.congr_below hc (fun _ hj => nodeAt_add_of_lt room hj) hi

end Add

/-! ### The forest of the queue (R123) -/

/-- The members of the queue are the roots of trees over the symbols `leaves`, each symbol at one leaf, and the arena
holds nothing else. -/
structure ArenaOk (leaves : List Sym) (a : Arena) : Prop where
  closed : ClosedBelow a.node a.next
  members : ∀ i ∈ a.pq, i < a.next
  last : ∀ i, i + 1 = a.next → i ∈ a.pq
  count : a.next + a.pq.length = 2 * leaves.length
  forest : ∃ ts, List.Forall₂ (Spells a.node) a.pq ts ∧ (ts.flatMap Tree.leaves).Perm leaves

/-- The trees of members stay when a record is appended. -/
theorem forest_add {a : Arena} {n : Node} (room : a.next < 511) (hc : ClosedBelow a.node a.next) {pq : List Nat}
    {ts : List Tree} (hm : ∀ i ∈ pq, i < a.next) (h : List.Forall₂ (Spells a.node) pq ts) :
    List.Forall₂ (Spells (a.add n).node) pq ts := by
  rw [List.forall₂_iff_get] at h ⊢
  exact ⟨h.1, fun i hi hi' => spells_add room hc (hm _ (List.get_mem ..)) (h.2 i hi hi')⟩

/-- A new leaf is a tree of its own. -/
theorem arenaOk_addLeaf {leaves : List Sym} {a : Arena} (h : ArenaOk leaves a) (room : a.next < 511) (sym : Sym)
    (w : Word32) : ArenaOk (leaves ++ [sym]) (a.add (leafNode sym w)) := by
  obtain ⟨ts, hts, hperm⟩ := h.forest
  have hleaf : Spells (a.add (leafNode sym w)).node a.next (.leaf sym) := by
    have hn := nodeAt_add_next (n := leafNode sym w) room
    have hs := Spells.leaf (node := (a.add (leafNode sym w)).node) a.next room (by rw [hn]; rfl)
    rwa [hn] at hs
  refine ⟨closedBelow_add room h.closed nofun, ?_, ?_, ?_, ts ++ [.leaf sym], ?_, ?_⟩
  · intro i hi
    rcases List.mem_append.1 hi with hi | hi
    · exact Nat.lt_succ_of_lt (h.members i hi)
    · rw [List.mem_singleton.1 hi]; exact Nat.lt_succ_self _
  · intro i hi
    rw [Nat.succ.inj hi]
    exact List.mem_append_right _ (List.mem_singleton.2 rfl)
  · have := h.count
    simp only [Arena.add, List.length_append, List.length_singleton]
    omega
  · exact List.rel_append (forest_add room h.closed h.members hts) (.cons hleaf .nil)
  · simpa [Tree.leaves] using hperm.append_right [sym]

/-- A turn of the merge loop puts two trees under one new root. -/
theorem arenaOk_mergeStep {leaves : List Sym} {a b : Arena} (h : ArenaOk leaves a) (hle : leaves.length ≤ 256)
    (hs : mergeStep a = some b) : ArenaOk leaves b := by
  obtain ⟨l, r, q, hp, rfl⟩ := mergeStep_perm hs
  have hcount := h.count
  have hlen := hp.length_eq
  simp only [List.length_cons] at hlen
  have room : a.next < 511 := by omega
  have hl : l < a.next := h.members l (hp.mem_iff.2 (by simp))
  have hr : r < a.next := h.members r (hp.mem_iff.2 (by simp))
  have hq : ∀ i ∈ q, i < a.next := fun i hi => h.members i (hp.mem_iff.2 (by simp [hi]))
  have hleft : (joinNode a.node l r).left.toNat = l := by simp [joinNode]; omega
  have hright : (joinNode a.node l r).right.toNat = r := by simp [joinNode]; omega
  obtain ⟨us, hus, hperm⟩ := h.forest
  obtain ⟨_, htus, hperm'⟩ := List.perm_comp_forall₂ hp.symm hus
  obtain ⟨t, _, ht, huts, rfl⟩ := List.forall₂_cons_left_iff.1 htus
  obtain ⟨u, ts, hu, hts, rfl⟩ := List.forall₂_cons_left_iff.1 huts
  have hjoin : Spells ({ a with pq := q }.add (joinNode a.node l r)).node a.next (.node t u) := by
    have hn := nodeAt_add_next (a := { a with pq := q }) (n := joinNode a.node l r) room
    refine .node _ room (by rw [hn]; rfl) t u ?_ ?_
    · rw [hn, hleft]; exact spells_add room h.closed hl ht
    · rw [hn, hright]; exact spells_add room h.closed hr hu
  refine ⟨closedBelow_add room h.closed fun _ => ⟨by rw [hleft]; exact hl, by rw [hright]; exact hr⟩, ?_, ?_, ?_,
    ts ++ [.node t u], ?_, ?_⟩
  · intro i hi
    rcases List.mem_append.1 hi with hi | hi
    · exact Nat.lt_succ_of_lt (hq i hi)
    · rw [List.mem_singleton.1 hi]; exact Nat.lt_succ_self _
  · intro i hi
    rw [Nat.succ.inj hi]
    exact List.mem_append_right _ (List.mem_singleton.2 rfl)
  · simp only [Arena.add, List.length_append, List.length_singleton]
    omega
  · exact List.rel_append (forest_add room h.closed hq hts) (.cons hjoin .nil)
  · refine List.Perm.trans ?_ ((hperm'.flatMap_right _).trans hperm)
    simpa [Tree.leaves] using List.perm_append_comm (l₁ := ts.flatMap Tree.leaves) (l₂ := t.leaves ++ u.leaves)

/-! ### BUILD (R123) -/

theorem occurring_length_le (s : State) : (occurring s).length ≤ 256 :=
  (List.length_filter_le _ _).trans allSyms_length.le

theorem occurring_nodup (s : State) : (occurring s).Nodup := allSyms_nodup.filter _

/-- The first loop appends a leaf for each symbol that occurs, in the order of the symbols. -/
theorem foldl_addLeaf_ok (s : State) : ∀ (syms leaves : List Sym) (a : Arena), ArenaOk leaves a →
    a.next = leaves.length → leaves.length + syms.length ≤ 256 →
    ArenaOk (leaves ++ syms.filter fun sym => s.freqOf sym ≠ 0) (syms.foldl (addLeaf s) a) ∧
      (syms.foldl (addLeaf s) a).next = (leaves ++ syms.filter fun sym => s.freqOf sym ≠ 0).length := by
  intro syms
  induction syms with
  | nil => intro leaves a h hn _; simpa using ⟨h, hn⟩
  | cons sym syms ih =>
    intro leaves a h hn hle
    rw [List.length_cons] at hle
    rw [List.foldl_cons, addLeaf]
    split
    · next h0 => simpa [h0] using ih leaves a h hn (by omega)
    · next h0 =>
      have hadd := arenaOk_addLeaf h (by omega) sym (s.freqOf sym)
      rw [List.filter_cons_of_pos (by simpa using h0)]
      simpa using ih (leaves ++ [sym]) _ hadd (by simp [Arena.add, hn]) (by simp; omega)

theorem leafArena_ok (s : State) :
    ArenaOk (occurring s) (leafArena s) ∧ (leafArena s).next = (occurring s).length :=
  foldl_addLeaf_ok s allSyms [] { node := s.node, next := 0, pq := [] }
    ⟨nofun, nofun, nofun, rfl, [], .nil, .nil⟩ rfl (by simp [allSyms_length])

/-- The merge loop leaves one tree, and its root is the last entry made. -/
theorem mergeLoop_ok (s : State) (h : occurring s ≠ []) :
    let b := mergeLoop (leafArena s).pq.length (leafArena s)
    b.pq = [2 * (occurring s).length - 2] ∧ b.next = 2 * (occurring s).length - 1 ∧
      ∃ tree, Spells b.node (2 * (occurring s).length - 2) tree ∧ tree.leaves.Perm (occurring s) := by
  intro b
  obtain ⟨hok, hnext⟩ := leafArena_ok s
  have hpos := List.length_pos_iff.2 h
  have hcount := hok.count
  have hb : ArenaOk (occurring s) b :=
    mergeLoop_induction (fun _ _ h hs => arenaOk_mergeStep h (occurring_length_le s) hs) _ _ hok
  have hlen : b.pq.length = 1 := mergeLoop_length _ _ (by omega) (by omega)
  have hbcount := hb.count
  have hbnext : b.next = 2 * (occurring s).length - 1 := by omega
  obtain ⟨i, hi⟩ := List.length_eq_one_iff.1 hlen
  have hroot : 2 * (occurring s).length - 2 = i := by
    have := hb.last (2 * (occurring s).length - 2) (by omega)
    rwa [hi, List.mem_singleton] at this
  obtain ⟨ts, hts, hperm⟩ := hb.forest
  rw [hi] at hts
  obtain ⟨tree, _, htree, hnil, rfl⟩ := List.forall₂_cons_left_iff.1 hts
  rw [List.forall₂_nil_left_iff.1 hnil, List.flatMap_singleton] at hperm
  exact ⟨by rw [hi, hroot], hbnext, tree, hroot ▸ htree, hperm⟩

/-- The state BUILD leaves with a weight that is not 0 (R123). -/
def builtState (s : State) : State :=
  { s with
    node := (mergeLoop (leafArena s).pq.length (leafArena s)).node
    nleaf := BitVec.ofNat 9 (occurring s).length
    nnodes := BitVec.ofNat 9 (2 * (occurring s).length - 1)
    root := BitVec.ofNat 9 (2 * (occurring s).length - 2)
    pq := [], treeValid := true }

theorem execBuild_of_occurring {s : State} (h : occurring s ≠ []) : execBuild s = .next (builtState s).endCommand := by
  obtain ⟨hpq, hnext, -⟩ := mergeLoop_ok s h
  have hpos := List.length_pos_iff.2 h
  rw [execBuild, if_neg (by rw [(leafArena_ok s).2]; omega), takeRoot]
  simp only [hpq, hnext, popMin_singleton, (leafArena_ok s).2]
  rfl

/-- With every weight 0 BUILD raises EMPTY_INPUT, and no record is written (R123). -/
theorem execBuild_of_none {s : State} (h : occurring s = []) :
    execBuild s = .next ({ s with treeValid := false, pq := [], nleaf := 0, nnodes := 0, root := 0 }.raise
      Opcode.build.code .emptyInput 0) := by
  have hfold : ∀ (syms : List Sym) (a : Arena), (syms.filter fun sym => s.freqOf sym ≠ 0) = [] →
      syms.foldl (addLeaf s) a = a := by
    intro syms
    induction syms with
    | nil => exact fun _ _ => rfl
    | cons sym syms ih =>
      intro a hnil
      have h0 : s.freqOf sym = 0 := by simpa using List.filter_eq_nil_iff.1 hnil sym (by simp)
      rw [List.foldl_cons, addLeaf, if_pos h0]
      exact ih a (by simpa [h0] using hnil)
  have hleaf : leafArena s = { node := s.node, next := 0, pq := [] } := hfold allSyms _ h
  rw [execBuild, hleaf, if_pos rfl]
  rfl

/-- What BUILD leaves is a tree (R24, R29, R125). -/
theorem treeOk_builtState {s : State} (h : occurring s ≠ []) : TreeOk (builtState s) := by
  intro _
  obtain ⟨-, -, tree, htree, hperm⟩ := mergeLoop_ok s h
  have hpos := List.length_pos_iff.2 h
  have hle := occurring_length_le s
  have hleaf : (builtState s).nleaf.toNat = (occurring s).length := Nat.mod_eq_of_lt (by omega)
  have hnodes : (builtState s).nnodes.toNat = 2 * (occurring s).length - 1 := Nat.mod_eq_of_lt (by omega)
  have hroot : (builtState s).root.toNat = 2 * (occurring s).length - 2 := Nat.mod_eq_of_lt (by omega)
  refine ⟨tree, by rw [hroot]; exact htree, hperm.nodup_iff.2 (occurring_nodup s), ?_, ?_, ?_⟩
  · rw [hleaf, hperm.length_eq]
  · omega
  · omega

end Sys2Proof.Machine
end

section
/-! PROOF. ASSIGN gives every leaf of the tree its path as its code (42_code_assigner.md R141 to R144): the walk records
the paths one after the other, and no path begins another. -/

namespace Sys2Proof.Machine

/-! ### Paths (R144) -/

theorem Tree.leaves_length_pos (t : Tree) : 1 ≤ t.leaves.length := by
  induction t with
  | leaf sym => exact Nat.le_refl 1
  | node l r ihl _ => rw [Tree.leaves, List.length_append]; omega

theorem Tree.map_fst_paths (t : Tree) : t.paths.map Prod.fst = t.leaves := by
  induction t with
  | leaf sym => rfl
  | node l r ihl ihr => simp [Tree.paths, Tree.leaves, ← ihl, ← ihr, Function.comp_def]

theorem Tree.map_fst_codes (t : Tree) : t.codes.map Prod.fst = t.leaves := by
  cases t with
  | leaf sym => rfl
  | node l r => exact (Tree.node l r).map_fst_paths

/-- A path is shorter than the tree has leaves (R144(d)). -/
theorem Tree.length_lt_of_mem_paths {t : Tree} {p : Sym × List Bool} (h : p ∈ t.paths) :
    p.2.length < t.leaves.length := by
  induction t generalizing p with
  | leaf sym => rw [List.mem_singleton.1 h]; exact Nat.one_pos
  | node l r ihl ihr =>
    have hl := l.leaves_length_pos
    have hr := r.leaves_length_pos
    simp only [Tree.paths, List.mem_append, List.mem_map] at h
    rw [Tree.leaves, List.length_append]
    rcases h with ⟨q, hq, rfl⟩ | ⟨q, hq, rfl⟩
    · have := ihl hq; simp only [List.length_cons]; omega
    · have := ihr hq; simp only [List.length_cons]; omega

/-- A tree's code has a length from 1 to 255 when there are at most 256 leaves (R144(d)). -/
theorem Tree.length_of_mem_codes {t : Tree} (hle : t.leaves.length ≤ 256) {p : Sym × List Bool} (h : p ∈ t.codes) :
    1 ≤ p.2.length ∧ p.2.length ≤ 255 := by
  cases t with
  | leaf sym => rw [List.mem_singleton.1 h]; simp
  | node l r =>
    have hlt := Tree.length_lt_of_mem_paths h
    refine ⟨?_, by omega⟩
    simp only [Tree.codes, Tree.paths, List.mem_append, List.mem_map] at h
    rcases h with ⟨q, -, rfl⟩ | ⟨q, -, rfl⟩ <;> simp

@[simp] theorem prefixConflict_cons (b b' : Bool) (c d : List Bool) :
    prefixConflict (b :: c) (b' :: d) = (b == b' && prefixConflict c d) := by
  cases b <;> cases b' <;> simp [prefixConflict, List.isPrefixOf]

/-- No path of a tree begins another: the two part at the node above both leaves (R144(b)). -/
theorem Tree.paths_no_conflict {t : Tree} {p q : Sym × List Bool} (hp : p ∈ t.paths) (hq : q ∈ t.paths)
    (hne : p.1 ≠ q.1) : prefixConflict p.2 q.2 = false := by
  induction t generalizing p q with
  | leaf sym => exact absurd (by rw [List.mem_singleton.1 hp, List.mem_singleton.1 hq]) hne
  | node l r ihl ihr =>
    simp only [Tree.paths, List.mem_append, List.mem_map] at hp hq
    rcases hp with ⟨p, hp, rfl⟩ | ⟨p, hp, rfl⟩ <;> rcases hq with ⟨q, hq, rfl⟩ | ⟨q, hq, rfl⟩
    · simpa using ihl hp hq hne
    · simp
    · simp
    · simpa using ihr hp hq hne

theorem Tree.codes_no_conflict {t : Tree} {p q : Sym × List Bool} (hp : p ∈ t.codes) (hq : q ∈ t.codes)
    (hne : p.1 ≠ q.1) : prefixConflict p.2 q.2 = false := by
  cases t with
  | leaf sym => exact absurd (by rw [List.mem_singleton.1 hp, List.mem_singleton.1 hq]) hne
  | node l r => exact Tree.paths_no_conflict hp hq hne

/-- At most as many distinct symbols as there are. -/
theorem length_le_of_nodup {l : List Sym} (h : l.Nodup) : l.length ≤ 256 :=
  ((List.subperm_of_subset h fun a _ => mem_allSyms a).length_le).trans allSyms_length.le

/-! ### Recording codes (R143) -/

/-- A dictionary entry written for each symbol of a list, with its code string. -/
def recordCodes (s : State) (codes : List (Sym × List Bool)) : State :=
  codes.foldl (fun t p => recordCode t p.1 p.2.length (val p.2)) s

@[simp] theorem recordCodes_nil (s : State) : recordCodes s [] = s := rfl

@[simp] theorem recordCodes_cons (s : State) (p : Sym × List Bool) (codes : List (Sym × List Bool)) :
    recordCodes s (p :: codes) = recordCodes (recordCode s p.1 p.2.length (val p.2)) codes := rfl

theorem recordCodes_append (s : State) (c d : List (Sym × List Bool)) :
    recordCodes s (c ++ d) = recordCodes (recordCodes s c) d := List.foldl_append

/-- Recording codes writes `LEN` and `CODE` alone. -/
theorem recordCodes_frame (s : State) (codes : List (Sym × List Bool)) :
    recordCodes s codes = { s with len := (recordCodes s codes).len, code := (recordCodes s codes).code } := by
  induction codes generalizing s with
  | nil => rfl
  | cons p codes ih => rw [recordCodes_cons, ih]; rfl

theorem lenOf_recordCode (s : State) (a b : Sym) (d p : Nat) :
    (recordCode s a d p).lenOf b = if a = b then BitVec.ofNat 8 d else s.lenOf b := by
  simp [recordCode]

theorem codeOf_recordCode (s : State) (a b : Sym) (d p : Nat) :
    (recordCode s a d p).codeOf b = if a = b then BitVec.ofNat 256 p else s.codeOf b := by
  simp [recordCode]

/-- A symbol that is not recorded keeps its entry. -/
theorem entry_recordCodes_of_notMem {s : State} {codes : List (Sym × List Bool)} {a : Sym}
    (h : a ∉ codes.map Prod.fst) :
    (recordCodes s codes).lenOf a = s.lenOf a ∧ (recordCodes s codes).codeOf a = s.codeOf a := by
  induction codes generalizing s with
  | nil => exact ⟨rfl, rfl⟩
  | cons p codes ih =>
    rw [List.map_cons, List.mem_cons, not_or] at h
    obtain ⟨hp, hcodes⟩ := h
    obtain ⟨hl, hc⟩ := ih (s := recordCode s p.1 p.2.length (val p.2)) hcodes
    rw [recordCodes_cons, hl, hc, lenOf_recordCode, codeOf_recordCode, if_neg (Ne.symm hp), if_neg (Ne.symm hp)]
    exact ⟨rfl, rfl⟩

/-- A recorded symbol has the length and the code of its string. -/
theorem entry_recordCodes_of_mem {s : State} {codes : List (Sym × List Bool)} (hnd : (codes.map Prod.fst).Nodup)
    {p : Sym × List Bool} (h : p ∈ codes) :
    (recordCodes s codes).lenOf p.1 = BitVec.ofNat 8 p.2.length ∧
      (recordCodes s codes).codeOf p.1 = BitVec.ofNat 256 (val p.2) := by
  induction codes generalizing s with
  | nil => cases h
  | cons q codes ih =>
    rw [List.map_cons, List.nodup_cons] at hnd
    rcases List.mem_cons.1 h with rfl | h
    · obtain ⟨hl, hc⟩ := entry_recordCodes_of_notMem (s := recordCode s p.1 p.2.length (val p.2)) hnd.1
      rw [recordCodes_cons, hl, hc, lenOf_recordCode, codeOf_recordCode, if_pos rfl, if_pos rfl]
      exact ⟨rfl, rfl⟩
    · exact ih hnd.2 h

/-- The code string of an entry with a length in range (R27). -/
theorem codeBits_of_entry {s : State} {a : Sym} {c : List Bool} (hc : c.length ≤ 255)
    (hl : s.lenOf a = BitVec.ofNat 8 c.length) (hv : s.codeOf a = BitVec.ofNat 256 (val c)) : s.codeBits a = c := by
  have hlen : (s.lenOf a).toNat = c.length := by rw [hl, BitVec.toNat_ofNat]; omega
  have hval : (s.codeOf a).toNat = val c := by
    rw [hv, BitVec.toNat_ofNat, Nat.mod_eq_of_lt]
    exact (val_lt c).trans_le (Nat.pow_le_pow_right (by norm_num) (by omega))
  rw [State.codeBits, hlen, hval, bits_val]

/-- The entries written are in range (R44(e)). -/
theorem codesOk_recordCodes {codes : List (Sym × List Bool)} (hlen : ∀ p ∈ codes, p.2.length ≤ 255) {s : State}
    (h : CodesOk s) : CodesOk (recordCodes s codes) := by
  induction codes generalizing s with
  | nil => exact h
  | cons p codes ih =>
    refine ih (fun q hq => hlen q (List.mem_cons_of_mem _ hq)) fun a => ?_
    have hp := hlen p List.mem_cons_self
    rw [lenOf_recordCode, codeOf_recordCode]
    split
    · rw [BitVec.toNat_ofNat, BitVec.toNat_ofNat, Nat.mod_eq_of_lt (show p.2.length < 2 ^ 8 by omega)]
      exact (Nat.mod_le _ _).trans_lt (val_lt p.2)
    · exact h a

/-! ### The walk (R141 to R143) -/

/-- From a node that is reached by the bits `c`, the walk records the paths of its subtree behind `c`. A path of a tree
passes through no more nodes than the tree has leaves. -/
theorem walk_of_spells {node : Vector Node 511} {i : Nat} {tree : Tree} (h : Spells node i tree) :
    ∀ (steps : Nat) (c : List Bool) (s : State), s.node = node → tree.leaves.length ≤ steps →
      walk steps i c.length (val c) s = some (recordCodes s (tree.paths.map fun p => (p.1, c ++ p.2))) := by
  induction h with
  | leaf i _ hk =>
    intro steps c s hs hle
    obtain _ | steps := steps
    · exact absurd hle (Nat.not_succ_le_zero 0)
    rw [walk, hs]
    simp only [hk]
    simp [Tree.paths]
  | node i _ hk l r _ _ ihl ihr =>
    intro steps c s hs hle
    have hl := l.leaves_length_pos
    have hr := r.leaves_length_pos
    rw [Tree.leaves, List.length_append] at hle
    obtain _ | steps := steps
    · omega
    have hleft := ihl steps (c ++ [false]) s hs (by omega)
    have hframe := recordCodes_frame s (l.paths.map fun p => (p.1, (c ++ [false]) ++ p.2))
    have hright := ihr steps (c ++ [true]) (recordCodes s (l.paths.map fun p => (p.1, (c ++ [false]) ++ p.2)))
      (by rw [hframe]; exact hs) (by omega)
    simp only [List.length_append, List.length_singleton, val_concat, Bool.toNat_false, Bool.toNat_true,
      Nat.add_zero] at hleft hright
    rw [walk, hs]
    simp only [hk, hleft, hright, ← recordCodes_append]
    simp [Tree.paths, Function.comp_def]

/-- ASSIGN's walk from `ROOT` records the tree's codes (R141, R142). -/
theorem assignCodes_of_spells {s : State} {tree : Tree} (h : Spells s.node s.root.toNat tree)
    (hnd : tree.leaves.Nodup) : assignCodes s = some (recordCodes s tree.codes) := by
  have hle := length_le_of_nodup hnd
  unfold assignCodes
  cases h with
  | leaf _ hi hk => simp only [hk]; rfl
  | node _ hi hk l r hl hr =>
    simp only [hk]
    have hw := walk_of_spells (.node _ hi hk l r hl hr) 511 [] s rfl (by omega)
    simpa [Tree.codes] using hw

/-! ### ASSIGN (R141) -/

/-- The dictionary of a tree: its codes, and no entry for another symbol (R141). -/
def treeDict (s : State) (tree : Tree) : State :=
  recordCodes { s.clearDict with dictValid := false, preValid := false } tree.codes

theorem execAssign_of_spells {s : State} {tree : Tree} (hv : s.treeValid = true) (h : Spells s.node s.root.toNat tree)
    (hnd : tree.leaves.Nodup) : execAssign s =
      .next ({ treeDict s tree with maxlen := largestLen (treeDict s tree), dictValid := true }.endCommand) := by
  have hw : assignCodes { s.clearDict with dictValid := false, preValid := false } = some (treeDict s tree) :=
    assignCodes_of_spells h hnd
  rw [execAssign, if_neg (by simp [Precondition.holds, hv]), hw]

theorem treeDict_frame (s : State) (tree : Tree) : treeDict s tree =
    { s with len := (treeDict s tree).len, code := (treeDict s tree).code, dictValid := false, preValid := false } :=
  recordCodes_frame _ _

/-- A symbol that is not in the tree has no code (R141). -/
theorem entry_treeDict_of_notMem {s : State} {tree : Tree} {a : Sym} (h : a ∉ tree.leaves) :
    (treeDict s tree).lenOf a = 0 ∧ (treeDict s tree).codeOf a = 0 := by
  obtain ⟨hl, hc⟩ := entry_recordCodes_of_notMem (s := { s.clearDict with dictValid := false, preValid := false })
    (codes := tree.codes) (by rwa [tree.map_fst_codes])
  exact ⟨hl.trans (State.lenOf_clearDict s a), hc.trans (State.codeOf_clearDict s a)⟩

section TreeDict
variable {s : State} {tree : Tree} (hnd : tree.leaves.Nodup)
include hnd

theorem codeBits_treeDict {p : Sym × List Bool} (hp : p ∈ tree.codes) : (treeDict s tree).codeBits p.1 = p.2 := by
  obtain ⟨hl, hc⟩ := entry_recordCodes_of_mem (s := { s.clearDict with dictValid := false, preValid := false })
    (by rwa [tree.map_fst_codes]) hp
  exact codeBits_of_entry (Tree.length_of_mem_codes (length_le_of_nodup hnd) hp).2 hl hc

theorem codesOk_treeDict : CodesOk (treeDict s tree) := by
  refine codesOk_recordCodes (fun p hp => (Tree.length_of_mem_codes (length_le_of_nodup hnd) hp).2) fun a => ?_
  show (s.clearDict.codeOf a).toNat < 2 ^ (s.clearDict.lenOf a).toNat
  rw [State.codeOf_clearDict, State.lenOf_clearDict]
  decide

/-- Exactly the symbols of the tree have a code (R144(a)). -/
theorem coded_treeDict {a : Sym} : (treeDict s tree).coded a = true ↔ a ∈ tree.leaves := by
  constructor
  · intro h
    by_contra hn
    exact (State.coded_iff _ a).1 h (entry_treeDict_of_notMem hn).1
  · intro h
    rw [← tree.map_fst_codes, List.mem_map] at h
    obtain ⟨p, hp, rfl⟩ := h
    have hpos := (Tree.length_of_mem_codes (length_le_of_nodup hnd) hp).1
    rw [← codeBits_treeDict (s := s) hnd hp, State.codeBits, bits_length] at hpos
    rw [State.coded_iff]
    intro h0
    simp [h0] at hpos

/-- No code of a tree begins another (R144(b)). -/
theorem prefixFree_treeDict : PrefixFree (treeDict s tree) := by
  intro a b hab ha hb
  rw [coded_treeDict hnd, ← tree.map_fst_codes, List.mem_map] at ha hb
  obtain ⟨p, hp, rfl⟩ := ha
  obtain ⟨q, hq, rfl⟩ := hb
  rw [codeBits_treeDict hnd hp, codeBits_treeDict hnd hq]
  exact Tree.codes_no_conflict hp hq hab

end TreeDict

end Sys2Proof.Machine
end

section
/-! PROOF. What a command that runs steps does, said once: it raises at once, or its preconditions hold and it starts at
its first task from the state it sets up (43_container_write.md to 45_bitstream.md). -/

namespace Sys2Proof.Machine

/-- The task a command starts at; `none` for the commands that are done in one step. -/
def firstTask : Instr → Option Task
  | .wpre => some (.wpre 0)
  | .wtab => some (.wtab 0)
  | .enc => some .enc
  | .push n v => some (.push (v.setWidth 256) n.toNat .stop)
  | .fin => some .finish
  | .rpre => some (.rpre 0)
  | .rtab => some (.rtab 0)
  | .dec limit => some (.dec limit)
  | .rbits n => some (.rbits n.toNat 0)
  | .nop | .reset | .clrw | .setw _ _ | .build | .assign | .ralign => none

/-- What a command writes before its first task (R171, R173, R203). -/
def setUp (i : Instr) (s : State) : State :=
  match i with
  | .rpre => { s.clearDict with preValid := false, dictValid := false, maxlen := 0 }
  | .dec _ => { s with dcount := 0, clen := 0, cand := 0 }
  | .rbits _ => { s with rdata := 0 }
  | _ => s

/-- What holds when a command starts: its preconditions in R221's row 3, its count in range (R92), and a codebook that
is not empty (R172). -/
def StartsFrom (s : State) : Instr → Prop
  | .wpre => s.dictValid = true ∧ s.wcnt = 0
  | .wtab | .enc | .dec _ => s.dictValid = true
  | .push n _ | .rbits n => n.toNat ≤ 32
  | .rpre => s.rmask = 0
  | .rtab => s.preValid = true ∧ ∃ sym, s.coded sym = true
  | _ => True

/-- A precondition that is not refused holds (R221). -/
theorem dictValid_of_holds {s : State} (h : ¬ (!Precondition.dictionary.holds s) = true) : s.dictValid = true := by
  simpa [Precondition.holds] using h

theorem wcnt_of_holds {s : State} (h : ¬ (!Precondition.writerAligned.holds s) = true) : s.wcnt = 0 := by
  simpa [Precondition.holds] using h

theorem rmask_of_holds {s : State} (h : ¬ (!Precondition.readerAligned.holds s) = true) : s.rmask = 0 := by
  simpa [Precondition.holds] using h

theorem preValid_of_holds {s : State} (h : ¬ (!Precondition.preamble.holds s) = true) : s.preValid = true := by
  simpa [Precondition.holds] using h

/-- A command that runs steps raises at once, and then writes nothing else, or it starts. -/
theorem exec_of_firstTask {i : Instr} {task : Task} {s t : State} (hi : firstTask i = some task)
    (h : exec i s = .next t) :
    (∃ e info, t = s.raise i.opcode.code e info) ∨ (StartsFrom s i ∧ t = start i.opcode task (setUp i s)) := by
  cases i with
  | nop | reset | clrw | setw sym w | build | assign | ralign => cases hi
  | wpre =>
    cases hi
    simp only [exec, execWpre] at h
    split at h <;> [skip; split at h] <;> cases h
    · exact .inl ⟨_, _, rfl⟩
    · exact .inl ⟨_, _, rfl⟩
    · next hd hw => exact .inr ⟨⟨dictValid_of_holds hd, wcnt_of_holds hw⟩, rfl⟩
  | wtab | enc | dec limit =>
    cases hi
    simp only [exec, execWtab, execEnc, execDec] at h
    split at h <;> cases h
    · exact .inl ⟨_, _, rfl⟩
    · next hd => exact .inr ⟨dictValid_of_holds hd, rfl⟩
  | push n v | rbits n =>
    cases hi
    simp only [exec, execPush, execRbits] at h
    split at h <;> cases h
    · exact .inl ⟨_, _, rfl⟩
    · next hn => exact .inr ⟨le_of_countLegal hn, rfl⟩
  | fin => cases hi; cases h; exact .inr ⟨trivial, rfl⟩
  | rpre =>
    cases hi
    simp only [exec, execRpre] at h
    split at h <;> cases h
    · exact .inl ⟨_, _, rfl⟩
    · next hr => exact .inr ⟨rmask_of_holds hr, rfl⟩
  | rtab =>
    cases hi
    simp only [exec, execRtab] at h
    split at h <;> [skip; split at h] <;> cases h
    · exact .inl ⟨_, _, rfl⟩
    · exact .inl ⟨_, _, rfl⟩
    · next hp hc => exact .inr ⟨⟨preValid_of_holds hp, by simpa using hc⟩, rfl⟩

end Sys2Proof.Machine
end

section
/-! PROOF. The block's invariant (10_state.md R44): it holds at reset, and every step keeps it. A running command keeps
it by `runTask_keepsInv`; here stand what each command sets up, the acceptance of a word and the host's actions. -/

namespace Sys2Proof.Machine

/-! ### Reset (R43) -/

@[simp] theorem freqOf_resetInternal (s : State) (sym : Sym) : s.resetInternal.freqOf sym = 0 := by
  simp only [State.freqOf, State.resetInternal_freq, Vector.getElem_replicate]

@[simp] theorem lenOf_resetInternal (s : State) (sym : Sym) : s.resetInternal.lenOf sym = 0 := by
  simp only [State.lenOf, State.resetInternal_len, Vector.getElem_replicate]

@[simp] theorem codeOf_resetInternal (s : State) (sym : Sym) : s.resetInternal.codeOf sym = 0 := by
  simp only [State.codeOf, State.resetInternal_code, Vector.getElem_replicate]

theorem blockInv_resetInternal {s : State} (h : PortsOk s) : BlockInv s.resetInternal where
  writer := ⟨Nat.zero_le _, Nat.one_pos⟩
  reader := List.mem_cons_self
  queue := rfl
  cand := Nat.one_pos
  codes sym := by
    rw [codeOf_resetInternal, lenOf_resetInternal]
    exact Nat.one_pos
  ports := h
  errors := ⟨fun _ => ⟨rfl, rfl, rfl⟩, nofun⟩
  tree := nofun
  dict := ⟨nofun, fun _ => rfl⟩
  engine := trivial

theorem portsOk_reset : PortsOk State.reset :=
  ⟨Nat.succ_pos _, Nat.succ_pos _, Nat.zero_le _, Nat.zero_le _⟩

/-- Settles O58: every register of the reset state is 0, and both depths are at least 1. -/
theorem resetMeetsInv : Obligations.ResetMeetsInv := blockInv_resetInternal portsOk_reset

theorem blockInv_powerOn {s : State} (h : PortsOk s) : BlockInv s.powerOn := by
  obtain ⟨hin, hout, -, -⟩ := h
  exact blockInv_resetInternal (s := { s with inq := [], ineos := false, outq := [] })
    ⟨hin, hout, Nat.zero_le _, Nat.zero_le _⟩

/-! ### What the host and an error may write -/

/-- With `ERR = 0` the parts a running command keeps hold. -/
theorem BlockInv.runBase {s : State} (h : BlockInv s) (he : s.err = false) : RunBase s :=
  ⟨h.writer, h.reader, h.queue, h.cand, h.codes, h.ports, h.tree, h.dict, he, h.errors.1 he⟩

/-- The queues, end of input, the parameters and the host's side are in no part of the invariant but `PortsOk`. -/
theorem BlockInv.of_ports {s t : State} (h : BlockInv s) (hp : PortsOk t)
    (ht : t = { s with inq := t.inq, ineos := t.ineos, outq := t.outq, params := t.params, host := t.host }) :
    BlockInv t := by
  obtain ⟨hw, hr, hq, hcand, hcodes, -, herr, htree, hdict, heng⟩ := h
  rw [ht] at hp ⊢
  refine ⟨hw, hr, hq, hcand, hcodes, hp, herr, htree, hdict, ?_⟩
  unfold EngineOk at heng ⊢
  cases he : s.engine with
  | idle => trivial
  | running op task =>
    rw [he] at heng
    cases task <;> exact heng

theorem blockInv_raise {s : State} (op : Byte) (e : ErrName) (info : Word32) (h : BlockInv s) :
    BlockInv (s.raise op e info) :=
  ⟨h.writer, h.reader, h.queue, h.cand, h.codes, h.ports,
    ⟨nofun, fun _ => ⟨(errName_code e).1, (errName_code e).2, rfl⟩⟩, h.tree, h.dict, trivial⟩

theorem blockInv_withScript {s : State} (script : List HostAction) (h : BlockInv s) : BlockInv (s.withScript script) :=
  h.of_ports h.ports rfl

/-! ### What a command sets up (R110 to R204) -/

/-- The weights are in no part of the invariant. -/
theorem runBase_freq {s : State} (freq : Vector Word32 256) (h : RunBase s) : RunBase { s with freq := freq } :=
  ⟨h.writer, h.reader, h.queue, h.cand, h.codes, h.ports, h.tree, h.dict, h.err⟩

/-- BUILD leaves a tree, or none (R123). -/
theorem runBase_tree {s t : State} (h : RunBase s) (ht : TreeOk t) (hq : t.pq = [])
    (hf : t = { s with
      node := t.node, nleaf := t.nleaf, nnodes := t.nnodes, root := t.root, pq := t.pq, treeValid := t.treeValid }) :
    RunBase t := by
  obtain ⟨hw, hr, -, hcand, hcodes, hports, -, hdict, herr⟩ := h
  rw [hf] at ht hq ⊢
  exact ⟨hw, hr, hq, hcand, hcodes, hports, ht, hdict, herr⟩

theorem execBuild_keepsInv {s t : State} (h : RunBase s) (he : execBuild s = .next t) : BlockInv t := by
  by_cases hocc : occurring s = []
  · rw [execBuild_of_none hocc] at he
    cases he
    have hnone : RunBase { s with treeValid := false, pq := [], nleaf := 0, nnodes := 0, root := 0 } :=
      runBase_tree h nofun rfl rfl
    exact runBase_raise _ _ _ hnone
  · rw [execBuild_of_occurring hocc] at he
    cases he
    exact runBase_endCommand (runBase_tree h (treeOk_builtState hocc) rfl rfl)

/-- The dictionary of a tree meets the invariant (R28, R31, R44(e), R144(b)). -/
theorem runBase_treeDict {s : State} {tree : Tree} (m : Byte) (h : RunBase s) (hnd : tree.leaves.Nodup)
    (hm : m = largestLen (treeDict s tree)) :
    RunBase { treeDict s tree with maxlen := m, dictValid := true } := by
  obtain ⟨a, ha⟩ := List.exists_mem_of_length_pos tree.leaves_length_pos
  have hcoded : (treeDict s tree).coded a = true := (coded_treeDict hnd).2 ha
  have hfree := prefixFree_treeDict (s := s) hnd
  have hcodes := codesOk_treeDict (s := s) hnd
  rw [treeDict_frame] at hcoded hfree hcodes hm ⊢
  exact ⟨h.writer, h.reader, h.queue, h.cand, hcodes, h.ports, h.tree,
    ⟨fun _ => ⟨rfl, ⟨a, hcoded⟩, hfree, hm.trans (largestLen_congr rfl)⟩, nofun⟩, h.err⟩

theorem execAssign_keepsInv {s t : State} (h : RunBase s) (he : execAssign s = .next t) : BlockInv t := by
  cases hv : s.treeValid with
  | false =>
    rw [execAssign, if_pos (by simp [Precondition.holds, hv])] at he
    cases he
    exact runBase_raise _ _ _ h
  | true =>
    obtain ⟨tree, hspells, hnd, -⟩ := h.tree hv
    rw [execAssign_of_spells hv hspells hnd] at he
    cases he
    exact runBase_endCommand (runBase_treeDict _ h hnd rfl)

/-- A command that starts meets its first task's needs in the state it has set up. -/
theorem runInv_setUp {i : Instr} {task : Task} {s : State} (hi : firstTask i = some task) (hs : StartsFrom s i)
    (h : RunBase s) : RunInv task (setUp i s) := by
  cases i with
  | nop | reset | clrw | setw sym w | build | assign | ralign => cases hi
  | wpre => cases hi; exact ⟨h, hs.1, Nat.zero_le _⟩
  | wtab => cases hi; exact ⟨h, hs, Nat.zero_le _⟩
  | enc => cases hi; exact ⟨h, hs⟩
  | push n v => cases hi; exact ⟨h, le_trans hs (by decide), trivial⟩
  | fin => cases hi; exact ⟨h, trivial⟩
  | rpre =>
    cases hi
    have hzero : ∀ sym, s.clearDict.codeOf sym = 0 := State.codeOf_clearDict s
    have hcodes : CodesOk s.clearDict := fun sym => by
      rw [hzero sym]
      exact Nat.two_pow_pos _
    exact ⟨⟨h.writer, h.reader, h.queue, h.cand, hcodes, h.ports, h.tree, ⟨nofun, fun _ => rfl⟩, h.err⟩,
      rfl, rfl, hzero, Nat.zero_le _⟩
  | rtab =>
    cases hi
    obtain ⟨hpre, hcoded⟩ := hs
    exact ⟨h, hpre, hcoded, Nat.zero_le _⟩
  | dec limit =>
    cases hi
    exact ⟨⟨h.writer, h.reader, h.queue, Nat.one_pos, h.codes, h.ports, h.tree, h.dict, h.err⟩, hs, Nat.zero_le _⟩
  | rbits n =>
    cases hi
    exact ⟨⟨h.writer, h.reader, h.queue, h.cand, h.codes, h.ports, h.tree, h.dict, h.err⟩, hs, Nat.zero_le _⟩

theorem exec_firstTask_keepsInv {i : Instr} {task : Task} {s t : State} (hi : firstTask i = some task) (h : RunBase s)
    (he : exec i s = .next t) : BlockInv t := by
  rcases exec_of_firstTask hi he with ⟨e, info, rfl⟩ | ⟨hs, rfl⟩
  · exact runBase_raise _ _ _ h
  · exact runTask_keepsInv _ _ _ _ (runInv_setUp hi hs h)

/-- Every command but RESET, accepted with `ERR = 0`, leaves the invariant. -/
theorem exec_keepsInv {i : Instr} {s t : State} (h : RunBase s) (hi : i ≠ .reset) (he : exec i s = .next t) :
    BlockInv t := by
  cases i with
  | nop => cases he; exact runBase_endCommand h
  | reset => exact absurd rfl hi
  | clrw | setw sym w => cases he; exact runBase_endCommand (runBase_freq _ h)
  | build => exact execBuild_keepsInv h he
  | assign => exact execAssign_keepsInv h he
  | ralign => cases he; exact runBase_endCommand (runBase_rAlign h)
  | wpre | wtab | enc | push n v | fin | rpre | rtab | dec limit | rbits n => exact exec_firstTask_keepsInv rfl h he

/-! ### The acceptance of a word (R96) -/

/-- The command a word decodes to has the word's opcode. -/
theorem opField_of_decode {w : CmdWord} {i : Instr} (h : decode w = .command i) : opField w = i.opcode.code := by
  unfold decode at h
  split at h
  · cases h
  · next o ho =>
    have hcode : o.code = opField w := by simpa using List.find?_some ho
    split at h <;> [skip; split at h] <;> cases h
    rw [← hcode]
    cases o <;> rfl

theorem eq_reset_of_code {i : Instr} (h : i.opcode.code = Opcode.reset.code) : i = .reset := by
  cases i <;> simp [Instr.opcode, Opcode.code] at h ⊢

theorem accept_keepsInv {w : CmdWord} {s t : State} (h : BlockInv s) (ha : accept w s = .next t) : BlockInv t := by
  unfold accept at ha
  split at ha
  · cases ha; exact h
  · next hdisc =>
    split at ha
    · cases ha; exact blockInv_raise _ _ _ h
    · cases ha; exact blockInv_raise _ _ _ h
    · next i hd =>
      by_cases hi : i = .reset
      · subst hi
        cases ha
        exact blockInv_resetInternal h.ports
      · have herr : s.err = false := by
          by_contra hne
          rw [Bool.not_eq_false] at hne
          have hop : opField w = Opcode.reset.code := by simpa [discarded, hne] using hdisc
          exact hi (eq_reset_of_code ((opField_of_decode hd).symm.trans hop))
        exact exec_keepsInv (h.runBase herr) hi ha

/-! ### The host's actions and the step (R70 to R73) -/

theorem portsOk_drainOne {s : State} (h : PortsOk s) : PortsOk s.drainOne := by
  unfold State.drainOne
  obtain ⟨hin, hout, hinq, houtq⟩ := h
  split
  · exact ⟨hin, hout, hinq, houtq⟩
  · next b rest hq =>
    rw [hq, List.length_cons] at houtq
    exact ⟨hin, hout, hinq, Nat.le_of_succ_le houtq⟩

theorem drainOne_frame (s : State) :
    s.drainOne = { s with outq := s.drainOne.outq, host := s.drainOne.host } := by
  unfold State.drainOne
  split <;> rfl

theorem perform_keepsInv {a : HostAction} {s t : State} (h : BlockInv s) (hen : a.enabled s = true)
    (hp : a.perform s = .next t) : BlockInv t := by
  cases a with
  | issue w => exact accept_keepsInv h hp
  | feed b =>
    cases hp
    obtain ⟨hin, hout, -, houtq⟩ := h.ports
    have hroom : s.inq.length < s.params.inDepth := by
      simp only [HostAction.enabled, Bool.and_eq_true, decide_eq_true_eq] at hen
      exact hen.2
    refine h.of_ports ⟨hin, hout, ?_, houtq⟩ rfl
    simpa using hroom
  | endInput | reopen | read a => cases hp; exact h.of_ports h.ports rfl
  | drain => cases hp; exact h.of_ports (portsOk_drainOne h.ports) (by rw [drainOne_frame])
  | powerOnReset => cases hp; exact blockInv_powerOn h.ports

theorem hostTurn_keepsInv {s t : State} (h : BlockInv s) (hs : hostTurn s = .next t) : BlockInv t := by
  unfold hostTurn at hs
  split at hs
  · cases hs; exact h
  · next a rest _ =>
    split at hs
    · next hen => exact perform_keepsInv (blockInv_withScript rest h) (by cases a <;> exact hen) hs
    · cases hs

theorem advance_keepsInv {s : State} (h : BlockInv s) : BlockInv s.advance := by
  unfold State.advance
  cases he : s.engine with
  | idle => exact h
  | running op task =>
    have herr : s.err = false := by
      by_contra hne
      obtain ⟨-, -, hidle⟩ := h.errors.2 (by simpa using hne)
      simp [he] at hidle
    have htask := h.engine
    rw [EngineOk, he] at htask
    exact runTask_keepsInv _ _ _ _ ⟨h.runBase herr, htask⟩

/-- Settles O59: a running command keeps the invariant step by step, and so does each action of the host; of the
commands only BUILD and ASSIGN need an argument of their own, that the arena spells a tree and that no path of a tree
begins another. -/
theorem stepKeepsInv : Obligations.StepKeepsInv := by
  intro s t h hs
  unfold step at hs
  split at hs
  · cases hs; exact advance_keepsInv h
  · exact hostTurn_keepsInv h hs

end Sys2Proof.Machine
end

section
/-! PROOF. The frames of R45: what a command leaves unchanged, whatever path it takes, and how the streams move
(10_state.md R35, R45, 20_memory.md R66). The frame of each step of a running command is `Task.step_writes`. -/

namespace Sys2Proof.Machine

/-! ### A run of a command's steps writes its row, the engine and the error registers (R45) -/

theorem restWrites_self (t : Task) (s : State) : restWrites t s s = s := by
  cases t with
  | push v n after => cases after <;> rfl
  | _ => rfl

/-- The rest of a command reads neither the engine nor the error registers of what it left. -/
theorem withErrors_restWrites (t : Task) (s u : State) : withErrors (restWrites t s (withErrors u s)) u =
    withErrors (restWrites t s u) u := by
  cases t with
  | push v n after => cases after <;> rfl
  | _ => rfl

/-- No step of a command writes the engine or the error registers: only its end and its error do. -/
theorem withErrors_of_step {t : Task} {s s' : State} (h : (t.step s).state? = some s') : withErrors s' s = s' := by
  have hkeep : withErrors (streamWrites s s') s = streamWrites s s' := rfl
  rwa [← Task.step_frame h] at hkeep

theorem runTask_restWrites (op : Byte) : ∀ n t s,
    withErrors (runTask op n t s) s = restWrites t s (withErrors (runTask op n t s) s) := by
  have hpark : ∀ t s, withErrors (s.park op t) s = restWrites t s (withErrors (s.park op t) s) :=
    fun t s => (restWrites_self t s).symm
  intro n
  induction n with
  | zero => exact hpark
  | succ n ih =>
    intro t s
    cases hs : t.step s with
    | go t' s' =>
      have hkeep : withErrors s' s = s' := withErrors_of_step (by rw [hs]; rfl)
      have hu : withErrors (runTask op n t' s') s' = withErrors (runTask op n t' s') s := by rw [← hkeep]; rfl
      have h' := ih t' s'
      rw [hu] at h'
      rw [runTask_go hs]
      exact Task.step_go_writes hs h'
    | done s' =>
      have hkeep : withErrors s'.endCommand s = s' := withErrors_of_step (t := t) (by rw [hs]; rfl)
      rw [runTask_done hs, hkeep]
      exact Task.step_writes (by rw [hs]; rfl)
    | raise e info s' =>
      have hkeep : withErrors (s'.raise op e info) s = s' := withErrors_of_step (t := t) (by rw [hs]; rfl)
      rw [runTask_raise hs, hkeep]
      exact Task.step_writes (by rw [hs]; rfl)
    | hold => rw [runTask_hold hs]; exact hpark t s

theorem runTask_frame (op : Byte) (n : Nat) (t : Task) (s : State) :
    runTask op n t s = withErrors (restWrites t s (runTask op n t s)) (runTask op n t s) := by
  calc
    runTask op n t s = withErrors (withErrors (runTask op n t s) s) (runTask op n t s) := rfl
    _ = withErrors (restWrites t s (runTask op n t s)) (runTask op n t s) := by
      rw [runTask_restWrites op n t s, withErrors_restWrites]

theorem start_frame {o : Opcode} {task : Task} {s t : State} (h : start o task s = t) :
    t = withErrors (restWrites task s t) t := by
  subst h
  exact runTask_frame o.code (turnsFor s) task s

/-- Settles O23: the steps that are left write only their row, by induction on the run. -/
theorem advanceFrame : Obligations.AdvanceFrame := by
  constructor
  · intro s op t he
    have h : s.advance = runTask op (turnsFor s) t s := by rw [State.advance, he]
    rw [h]
    exact runTask_frame op (turnsFor s) t s
  · intro s he
    rw [State.advance, he]

/-! ### The commands on the weights, the tree and the dictionary (R45) -/

/-- The walk writes `LEN` and `CODE` alone, on any arena (R143). -/
theorem walk_frame : ∀ (steps i d p : Nat) (s t : State), walk steps i d p s = some t →
    t = { s with len := t.len, code := t.code } := by
  intro steps
  induction steps with
  | zero => intro i d p s t h; cases h
  | succ steps ih =>
    intro i d p s t h
    rw [walk] at h
    split at h
    · cases h; rfl
    · split at h
      · cases h
      · next u hu =>
        rw [ih _ _ _ _ _ h, ih _ _ _ _ _ hu]

theorem assignCodes_frame {s t : State} (h : assignCodes s = some t) : t = { s with len := t.len, code := t.code } := by
  unfold assignCodes at h
  dsimp only at h
  split at h
  · cases h; rfl
  · exact walk_frame _ _ _ _ _ _ h

theorem execAssign_frame {s t : State} (h : execAssign s = .next t) : t = withErrors { s with
    len := t.len, code := t.code, maxlen := t.maxlen, dictValid := t.dictValid, preValid := t.preValid } t := by
  unfold execAssign at h
  split at h
  · cases h; rfl
  · split at h
    · cases h
    · next u hu =>
      cases h
      rw [assignCodes_frame hu]
      rfl

theorem execBuild_frame {s t : State} (h : execBuild s = .next t) : t = withErrors { s with
    node := t.node, nleaf := t.nleaf, nnodes := t.nnodes, root := t.root, pq := t.pq, treeValid := t.treeValid } t := by
  by_cases hocc : occurring s = []
  · rw [execBuild_of_none hocc] at h; cases h; rfl
  · rw [execBuild_of_occurring hocc] at h; cases h; rfl

/-- Settles O19, command by command. -/
theorem framesOfTreeAndCode : Obligations.FramesOfTreeAndCode := by
  intro s t
  refine ⟨fun h => ?_, fun h => ?_, fun sym w h => ?_, execBuild_frame, execAssign_frame⟩
  · cases h; rfl
  · cases h; rfl
  · cases h
    refine ⟨rfl, fun other hne => ?_⟩
    exact (State.freqOf_setFreq s sym other w).trans (if_neg hne.symm)

/-! ### The commands on the streams (R45) -/

/-- A command that runs steps writes what it sets up and what its steps write, besides the engine and the error
registers. -/
theorem exec_firstTask_frame {i : Instr} {task : Task} {s t : State} (hi : firstTask i = some task)
    (h : exec i s = .next t) : t = withErrors s t ∨ t = withErrors (restWrites task (setUp i s) t) t := by
  rcases exec_of_firstTask hi h with ⟨e, info, rfl⟩ | ⟨-, ht⟩
  · exact .inl rfl
  · exact .inr (start_frame ht.symm)

/-- Settles O20: either only the error registers are written, or the row of the command's first task. -/
theorem framesOfWriters : Obligations.FramesOfWriters := by
  intro s t
  refine ⟨fun h => ?_, fun h => ?_, fun h => ?_, fun n v h => ?_, fun h => ?_⟩ <;>
    (rcases exec_firstTask_frame rfl h with h | h <;> rw [h] <;> rfl)

/-- Settles O21: as for the writers; RPRE, DEC and RBITS set up registers of their own rows before their first task. -/
theorem framesOfReaders : Obligations.FramesOfReaders := by
  intro s t
  refine ⟨fun h => ?_, fun h => ?_, fun limit h => ?_, fun n h => ?_, fun h => by cases h; rfl⟩ <;>
    (rcases exec_firstTask_frame rfl h with h | h <;> rw [h] <;> rfl)

/-! ### The streams (R35, R66, R74, R75) -/

/-- From `s` to `t` bytes were taken off the front of IN and put on the end of OUT, and the counters counted them. -/
def StreamsForward (s t : State) : Prop :=
  ∃ taken emitted, s.inq = taken ++ t.inq ∧ t.outq = s.outq ++ emitted ∧
    t.incnt = s.incnt + BitVec.ofNat 32 taken.length ∧ t.outcnt = s.outcnt + BitVec.ofNat 32 emitted.length

theorem StreamsForward.refl (s : State) : StreamsForward s s := ⟨[], [], by simp⟩

theorem StreamsForward.of_fields {s t : State} (hin : t.inq = s.inq) (hout : t.outq = s.outq) (hic : t.incnt = s.incnt)
    (hoc : t.outcnt = s.outcnt) : StreamsForward s t := ⟨[], [], by simp [hin, hout, hic, hoc]⟩

theorem StreamsForward.trans {s t u : State} (h : StreamsForward s t) (h' : StreamsForward t u) :
    StreamsForward s u := by
  obtain ⟨taken, emitted, hin, hout, hic, hoc⟩ := h
  obtain ⟨taken', emitted', hin', hout', hic', hoc'⟩ := h'
  refine ⟨taken ++ taken', emitted ++ emitted', ?_, ?_, ?_, ?_⟩
  · rw [hin, hin', List.append_assoc]
  · rw [hout', hout, List.append_assoc]
  · rw [hic', hic, List.length_append, BitVec.ofNat_add, BitVec.add_assoc]
  · rw [hoc', hoc, List.length_append, BitVec.ofNat_add, BitVec.add_assoc]

theorem takeIn_forward {s : State} {b : Byte} {rest : List Byte} (h : s.inq = b :: rest) :
    StreamsForward s (s.takeIn rest) := ⟨[b], [], by simp [h]⟩

theorem putOut_forward (s : State) (v : Byte) : StreamsForward s (s.putOut v) := ⟨[], [v], by simp⟩

theorem inByte_forward {s t : State} {b : Byte} (h : s.inByte = .byte b t) : StreamsForward s t := by
  obtain ⟨rest, hq, rfl⟩ := State.inByte_byte.1 h
  exact takeIn_forward hq

theorem outByte_forward {s t : State} {v : Byte} (h : s.outByte v = some t) : StreamsForward s t := by
  obtain ⟨-, rfl⟩ := State.outByte_some.1 h
  exact putOut_forward s v

theorem pushBit_forward {s t : State} {b : Bool} (h : s.pushBit b = some t) : StreamsForward s t := by
  rcases State.pushBit_some.1 h with ⟨-, rfl⟩ | ⟨-, -, rfl⟩
  · exact .refl s
  · exact putOut_forward s _

theorem finish_forward {s t : State} (h : s.finish = some t) : StreamsForward s t := by
  rcases State.finish_some.1 h with ⟨-, rfl⟩ | ⟨-, -, rfl⟩
  · exact .refl _
  · exact putOut_forward s _

theorem nextBit_forward {s t : State} {b : Bool} (h : s.nextBit = .bit b t) : StreamsForward s t := by
  rcases State.nextBit_bit.1 h with ⟨-, -, rfl⟩ | ⟨-, x, rest, hq, -, rfl⟩
  · exact .refl s
  · exact takeIn_forward hq

/-- Each step takes or emits at most what its one stream operation does. -/
theorem Task.step_forward {t : Task} {s s' : State} (h : (t.step s).state? = some s') : StreamsForward s s' := by
  cases t with
  | wpre k =>
    simp only [Task.step, stepWpre] at h
    split at h
    · split at h
      · cases h
      · next ho => cases h; exact (outByte_forward ho :)
    · cases h; exact .refl s
  | wtab k =>
    simp only [Task.step, stepWtab] at h
    split at h <;> [split at h; skip] <;> cases h <;> exact .refl s
  | enc =>
    simp only [Task.step, stepEnc] at h
    split at h
    · cases h
    · cases h; exact .refl s
    · next hb => split at h <;> cases h <;> exact (inByte_forward hb :)
  | push v n after =>
    simp only [Task.step, stepPush] at h
    cases n with
    | zero => cases after <;> cases h <;> exact .refl s
    | succ k =>
      dsimp only at h
      split at h
      · cases h
      · next hp => cases h; exact (pushBit_forward hp :)
  | finish =>
    simp only [Task.step, stepFinish] at h
    split at h
    · cases h
    · next hp => cases h; exact (finish_forward hp :)
  | rpre k =>
    simp only [Task.step, stepRpre] at h
    split at h
    · split at h
      · cases h
      · cases h; exact .refl s
      · next hb => cases h; exact (inByte_forward hb :)
    · cases h; exact .refl s
  | rtab k =>
    simp only [Task.step, stepRtab, endRtab] at h
    split at h <;> split at h <;> cases h <;> exact .of_fields rfl rfl rfl rfl
  | rtabCode sym n c =>
    simp only [Task.step, stepRtabCode] at h
    cases n with
    | zero => cases h; exact .refl s
    | succ k =>
      dsimp only at h
      split at h
      · cases h
      · cases h; exact .refl s
      · next hb => cases h; exact (nextBit_forward hb :)
  | dec limit =>
    simp only [Task.step, stepDec] at h
    split at h
    · cases h; exact .refl s
    · split at h
      · cases h
      · unfold decExhausted at h
        split at h <;> [skip; split at h] <;> cases h <;> exact .refl s
      · next hb =>
        unfold decCandidate at h
        split at h <;> [skip; split at h] <;> cases h <;> exact (nextBit_forward hb :)
  | decEmit limit sym =>
    simp only [Task.step, stepDecEmit] at h
    split at h
    · cases h
    · next ho => cases h; exact (outByte_forward ho :)
  | rbits n j =>
    simp only [Task.step, stepRbits] at h
    split at h
    · split at h
      · cases h
      · cases h; exact .refl s
      · next hb => cases h; exact (nextBit_forward hb :)
    · cases h; exact .refl s

theorem runTask_forward (op : Byte) (n : Nat) (t : Task) (s : State) : StreamsForward s (runTask op n t s) :=
  runTask_induction op (fun _ u => StreamsForward s u) (StreamsForward s)
    (fun _ _ _ _ h hs => h.trans (Task.step_forward (by rw [hs]; rfl)))
    (fun _ _ s' h hs => (h.trans (Task.step_forward (s' := s') (by rw [hs]; rfl)) :))
    (fun _ _ _ _ s' h hs => (h.trans (Task.step_forward (s' := s') (by rw [hs]; rfl)) :))
    (fun _ _ h => h) n t s (.refl s)

theorem start_forward {o : Opcode} {task : Task} {s t : State} (h : start o task s = t) : StreamsForward s t := by
  subst h
  exact runTask_forward o.code (turnsFor s) task s

/-- What a command sets up is no part of the streams. -/
theorem setUp_forward (i : Instr) (s : State) : StreamsForward s (setUp i s) := by
  cases i <;> exact .of_fields rfl rfl rfl rfl

theorem exec_firstTask_forward {i : Instr} {task : Task} {s t : State} (hi : firstTask i = some task)
    (h : exec i s = .next t) : StreamsForward s t := by
  rcases exec_of_firstTask hi h with ⟨e, info, rfl⟩ | ⟨-, ht⟩
  · exact .of_fields rfl rfl rfl rfl
  · exact (setUp_forward i s).trans (start_forward ht.symm)

/-- Settles O22: the running commands move the streams step by step, the others leave them. -/
theorem streamsMoveForward : Obligations.StreamsMoveForward := by
  intro i s t hi h
  show StreamsForward s t
  cases i with
  | nop | clrw | setw sym w | ralign => cases h; exact .of_fields rfl rfl rfl rfl
  | reset => exact absurd rfl hi
  | build => rw [execBuild_frame h]; exact .of_fields rfl rfl rfl rfl
  | assign => rw [execAssign_frame h]; exact .of_fields rfl rfl rfl rfl
  | wpre | wtab | enc | push n v | fin | rpre | rtab | dec limit | rbits n => exact exec_firstTask_forward rfl h

end Sys2Proof.Machine
end

section
/-! PROOF. The values at reset and the register window (10_state.md R39 to R43). -/

namespace Sys2Proof.Machine

/-! ### Reset (R43) -/

theorem nodeAt_replicate_zero (i : Nat) : nodeAt (Vector.replicate 511 Node.zero) i = Node.zero := by
  unfold nodeAt
  rw [Vector.getElem?_replicate]
  split <;> rfl

theorem internalAtReset_resetInternal (s : State) : InternalAtReset s.resetInternal where
  freq := freqOf_resetInternal s
  node := nodeAt_replicate_zero
  arena := ⟨rfl, rfl, rfl⟩
  pq := rfl
  dictionary sym := ⟨lenOf_resetInternal s sym, codeOf_resetInternal s sym⟩
  maxlen := rfl
  flags := ⟨rfl, rfl, rfl⟩
  writer := ⟨rfl, rfl⟩
  reader := ⟨rfl, rfl⟩
  rdata := rfl
  decoder := ⟨rfl, rfl, rfl⟩
  counters := ⟨rfl, rfl⟩
  busy := rfl
  errors := ⟨rfl, rfl, rfl, rfl⟩

/-- Settles O5: the three resets write the same values, and only power-on empties the queues. -/
theorem resetValues : Obligations.ResetValues := by
  refine ⟨⟨internalAtReset_resetInternal State.reset, rfl, rfl, rfl⟩, fun s => ⟨?_, rfl, rfl, rfl⟩, fun s => ?_⟩
  · exact internalAtReset_resetInternal { s with inq := [], ineos := false, outq := [] }
  · exact ⟨s.resetInternal, rfl, internalAtReset_resetInternal s, rfl, rfl, rfl⟩

/-! ### Reads while `BUSY = 1` (R42) -/

theorem readWord_busy {s : State} (h : s.busy = true) (a : WinAddr) : readWord s a = busyRead s a := if_pos h

theorem readWord_idle {s : State} (h : s.busy = false) (a : WinAddr) : readWord s a = windowWord s a :=
  if_neg (by simp [h])

theorem busyRead_status (s : State) : busyRead s 0x0001 = Config.busyWord s.host.draws ||| 1 := if_pos rfl

/-- Settles O18: STATUS is the free word with its lowest bit set. -/
theorem busyReadsAreFree : Obligations.BusyReadsAreFree := by
  intro s hb
  refine ⟨fun a => ⟨rfl, rfl, rfl⟩, ?_, fun k hk => ?_, fun a ha => ?_, fun a => if_pos hb⟩
  · rw [readWord_busy hb, busyRead_status, BitVec.getLsbD_or]
    simp
  · have hone : (1 : Word32).getLsbD k = false := by simp; omega
    rw [readWord_busy hb, busyRead_status, BitVec.getLsbD_or, hone, Bool.or_false]
  · rw [readWord_busy hb]
    exact if_neg ha

/-! ### The fields of a window word (R40, R41) -/

/-- Two registers side by side in a window word. -/
theorem toNat_beside {m n : Nat} (a : BitVec m) (b : BitVec n) (k : Nat) (hm : m ≤ k) (hn : n + k ≤ 32) :
    (a.setWidth 32 ||| b.setWidth 32 <<< k : Word32).toNat = a.toNat + 2 ^ k * b.toNat := by
  have ha : a.toNat < 2 ^ k := a.isLt.trans_le (Nat.pow_le_pow_right Nat.two_pos hm)
  have hb : b.toNat * 2 ^ k < 2 ^ 32 :=
    calc
      b.toNat * 2 ^ k < 2 ^ n * 2 ^ k := Nat.mul_lt_mul_of_pos_right b.isLt (Nat.two_pow_pos k)
      _ = 2 ^ (n + k) := (Nat.pow_add 2 n k).symm
      _ ≤ 2 ^ 32 := Nat.pow_le_pow_right Nat.two_pos hn
  have ha' : a.toNat < 2 ^ 32 := ha.trans_le (Nat.pow_le_pow_right Nat.two_pos (by omega))
  have hb' : b.toNat < 2 ^ 32 := (Nat.le_mul_of_pos_right _ (Nat.two_pow_pos k)).trans_lt hb
  rw [BitVec.toNat_or, BitVec.toNat_shiftLeft, BitVec.toNat_setWidth, BitVec.toNat_setWidth, Nat.mod_eq_of_lt ha',
    Nat.mod_eq_of_lt hb', Nat.shiftLeft_eq, Nat.mod_eq_of_lt hb, Nat.or_comm, ← Nat.shiftLeft_eq,
    ← Nat.shiftLeft_add_eq_or_of_lt ha, Nat.shiftLeft_eq, Nat.add_comm, Nat.mul_comm]

/-- A register narrower than a window word stands in the word's lowest bits. -/
theorem toNat_of_eq_setWidth {n : Nat} {w : Word32} (v : BitVec n) (hn : n ≤ 32) (h : w = v.setWidth 32) :
    w.toNat = v.toNat := by
  rw [h, BitVec.toNat_setWidth_of_le hn]

/-- The `k`-th 32-bit slice of a 256-bit register. -/
theorem toNat_slice {n : Nat} (v : BitVec n) (k : Nat) :
    (v.extractLsb' (32 * k) 32).toNat = v.toNat / 2 ^ (32 * k) % 2 ^ 32 := by
  rw [BitVec.extractLsb'_toNat, Nat.shiftRight_eq_div_pow]

/-- STATUS while `BUSY = 0`, flag by flag (R41). -/
theorem toNat_statusWord {s : State} (h : s.busy = false) : (statusWord s).toNat =
    2 * s.err.toNat + 4 * s.treeValid.toNat + 8 * s.preValid.toNat + 16 * s.dictValid.toNat + 32 * s.ineos.toNat := by
  have flags : ∀ e t p d i : Bool, (flagBit false 0 ||| flagBit e 1 ||| flagBit t 2 ||| flagBit p 3 ||| flagBit d 4 |||
      flagBit i 5).toNat = 2 * e.toNat + 4 * t.toNat + 8 * p.toNat + 16 * d.toNat + 32 * i.toNat := by decide
  rw [statusWord, h]
  exact flags ..

/-- The kind and the symbol of a record (R40). -/
theorem toNat_nodeWord_zero (n : Node) :
    (nodeWord n 0).toNat = (if n.kind = .internal then 1 else 0) + 256 * n.sym.toNat := by
  have hkind : (BitVec.ofBool (decide (n.kind = .internal))).toNat = if n.kind = .internal then 1 else 0 := by
    split <;> simp [*]
  rw [← hkind]
  have hb := toNat_beside (BitVec.ofBool (decide (n.kind = .internal))) n.sym 8 (by decide) (by decide)
  simpa [nodeWord, flagBit] using hb

theorem toNat_nodeWord_one (n : Node) : (nodeWord n 1).toNat = n.weight.toNat % 2 ^ 32 := by
  rw [nodeWord, BitVec.extractLsb'_toNat, Nat.shiftRight_zero]

theorem toNat_nodeWord_two (n : Node) : (nodeWord n 2).toNat = n.weight.toNat / 2 ^ 32 := by
  have hw : n.weight.toNat / 2 ^ 32 < 2 ^ 8 := Nat.div_lt_of_lt_mul n.weight.isLt
  rw [nodeWord, BitVec.toNat_setWidth_of_le (by decide), BitVec.extractLsb'_toNat, Nat.shiftRight_eq_div_pow,
    Nat.mod_eq_of_lt hw]

theorem toNat_nodeWord_three (n : Node) : (nodeWord n 3).toNat = n.left.toNat + 65536 * n.right.toNat :=
  toNat_beside n.left n.right 16 (by decide) (by decide)

/-! ### The ranges of the window (R40) -/

section Ranges
variable (s : State) {a : WinAddr}

theorem scalarWord_unmapped {k : Nat} (h : 0x000F ≤ k) : scalarWord s k = 0 := by
  obtain ⟨j, rfl⟩ := Nat.exists_eq_add_of_le' h
  rfl

theorem windowWord_freq {sym : Sym} (h : a.toNat = 0x0100 + sym.toNat) : windowWord s a = s.freqOf sym := by
  have hs := sym.isLt
  unfold windowWord
  dsimp only
  rw [if_neg (by omega), if_pos (by omega), h, Nat.add_sub_cancel_left, BitVec.ofNat_toNat, BitVec.setWidth_eq]

theorem windowWord_len {sym : Sym} (h : a.toNat = 0x0200 + sym.toNat) :
    windowWord s a = (s.lenOf sym).setWidth 32 := by
  have hs := sym.isLt
  unfold windowWord
  dsimp only
  rw [if_neg (by omega), if_neg (by omega), if_pos (by omega), h, Nat.add_sub_cancel_left, BitVec.ofNat_toNat,
    BitVec.setWidth_eq]

theorem windowWord_node {i k : Nat} (hi : i < 511) (hk : k < 4) (h : a.toNat = 0x1000 + 4 * i + k) :
    windowWord s a = nodeWord (nodeAt s.node i) k := by
  have hdiv : (a.toNat - 0x1000) / 4 = i := by omega
  have hmod : (a.toNat - 0x1000) % 4 = k := by omega
  unfold windowWord
  dsimp only
  rw [if_neg (by omega), if_neg (by omega), if_neg (by omega), if_neg (by omega), if_pos (by omega), hdiv, hmod]

theorem windowWord_code {sym : Sym} {k : Nat} (hk : k < 8) (h : a.toNat = 0x2000 + 8 * sym.toNat + k) :
    windowWord s a = (s.codeOf sym).extractLsb' (32 * k) 32 := by
  have hs := sym.isLt
  have hdiv : (a.toNat - 0x2000) / 8 = sym.toNat := by omega
  have hmod : (a.toNat - 0x2000) % 8 = k := by omega
  unfold windowWord
  dsimp only
  rw [if_neg (by omega), if_neg (by omega), if_neg (by omega), if_neg (by omega), if_neg (by omega), if_neg (by omega),
    if_pos (by omega), hdiv, hmod, BitVec.ofNat_toNat, BitVec.setWidth_eq]

theorem windowWord_cand {k : Nat} (hk : k < 8) (h : a.toNat = 0x3000 + k) :
    windowWord s a = s.cand.extractLsb' (32 * k) 32 := by
  unfold windowWord
  dsimp only
  rw [if_neg (by omega), if_neg (by omega), if_neg (by omega), if_neg (by omega), if_neg (by omega), if_neg (by omega),
    if_neg (by omega), if_neg (by omega), if_pos (by omega), h, Nat.add_sub_cancel_left]

/-- The addresses between the ranges of the map (R39, R40). -/
theorem windowWord_unmapped (h : (0x000F ≤ a.toNat ∧ a.toNat ≤ 0x00FF) ∨ (0x0300 ≤ a.toNat ∧ a.toNat ≤ 0x0FFF) ∨
    (0x17FC ≤ a.toNat ∧ a.toNat ≤ 0x1FFF) ∨ (0x2800 ≤ a.toNat ∧ a.toNat ≤ 0x2FFF) ∨ 0x3008 ≤ a.toNat) :
    windowWord s a = 0 := by
  unfold windowWord
  dsimp only
  -- In the order of the map: `h` rules the named ranges out, and the others read 0.
  split_ifs <;> [exact scalarWord_unmapped s (by omega); omega; omega; rfl; omega; rfl; omega; rfl; omega; rfl]

end Ranges

/-- Settles O17, range by range. -/
theorem windowMap : Obligations.WindowMap := by
  intro s hb
  have hread : ∀ a, readWord s a = windowWord s a := readWord_idle hb
  have haddr : ∀ k, k < 2 ^ 14 → (BitVec.ofNat 14 k).toNat = k := fun k hk => Nat.mod_eq_of_lt hk
  simp only [hread]
  refine ⟨rfl, toNat_statusWord hb, toNat_beside s.errcode s.errop 8 (by decide) (by decide), rfl,
    ⟨toNat_of_eq_setWidth s.nleaf (by decide) rfl, toNat_of_eq_setWidth s.nnodes (by decide) rfl,
      toNat_of_eq_setWidth s.root (by decide) rfl, toNat_of_eq_setWidth s.maxlen (by decide) rfl⟩,
    toNat_beside s.wacc s.wcnt 8 (by decide) (by decide), toNat_beside s.rbyte s.rmask 8 (by decide) (by decide),
    ⟨rfl, rfl, toNat_of_eq_setWidth s.clen (by decide) rfl, rfl, rfl⟩, fun sym => ?_, fun i hi => ?_,
    fun sym k hk => ?_, fun k hk => ?_, fun a ha => windowWord_unmapped s ha⟩
  · have hs := sym.isLt
    rw [windowWord_freq s (haddr _ (by omega)), windowWord_len s (haddr _ (by omega))]
    exact ⟨rfl, BitVec.toNat_setWidth_of_le (by decide)⟩
  · have hnode : ∀ k, k < 4 → windowWord s (BitVec.ofNat 14 (0x1000 + 4 * i + k)) = nodeWord (nodeAt s.node i) k :=
      fun k hk => windowWord_node s hi hk (haddr _ (by omega))
    have hnode0 := hnode 0 (by decide)
    rw [Nat.add_zero] at hnode0
    rw [hnode0, hnode 1 (by decide), hnode 2 (by decide), hnode 3 (by decide)]
    exact ⟨toNat_nodeWord_zero _, toNat_nodeWord_one _, toNat_nodeWord_two _, toNat_nodeWord_three _⟩
  · have hs := sym.isLt
    rw [windowWord_code s hk (haddr _ (by omega)), toNat_slice]
  · rw [windowWord_cand s hk (haddr _ (by omega)), toNat_slice]

end Sys2Proof.Machine
end

section
/-! PROOF. The host's actions and the waiting block (20_memory.md R70 to R73, 70_reset_and_hazards.md R234). -/

namespace Sys2Proof.Machine

/-- Drain hands over the head of a queue that is not empty (R71). -/
theorem drainOne_of_cons {s : State} {b : Byte} {rest : List Byte} (h : s.outq = b :: rest) :
    s.drainOne = { s with outq := rest, host := { s.host with drained := s.host.drained ++ [b] } } := by
  rw [State.drainOne, h]

/-- Settles O13: the conditions are R71's, read as propositions, and the effects are the model's own, action by action. -/
theorem hostActionTable : Obligations.HostActionTable := by
  intro s
  refine ⟨fun w => ⟨?_, rfl⟩, fun b => ⟨?_, rfl⟩, ⟨?_, rfl⟩, ⟨?_, rfl⟩, ⟨?_, fun b rest h => ?_⟩,
    fun a => ⟨rfl, _, rfl⟩, rfl, rfl⟩
  · simp [HostAction.enabled]
  · simp [HostAction.enabled]
  · simp [HostAction.enabled]
  · simp [HostAction.enabled, and_assoc]
  · simp [HostAction.enabled]
  · exact congrArg Host.Outcome.next (drainOne_of_cons h)

/-- A block that waits gives the host its turn (R70). -/
theorem step_of_waiting {s : State} (h : s.canAdvance = false) : step s = hostTurn s := by
  rw [step, h]
  exact if_neg Bool.false_ne_true

theorem hostTurn_of_nil {s : State} (h : s.host.script = []) : hostTurn s = .next s := by
  rw [hostTurn, h]

theorem hostTurn_of_enabled {s : State} {a : HostAction} {rest : List HostAction} (h : s.host.script = a :: rest)
    (hen : a.enabled s = true) : hostTurn s = a.perform (s.withScript rest) := by
  rw [hostTurn, h]
  exact if_pos hen

/-- Settles O14: a waiting block's step is the host's turn, and an idle engine waits. -/
theorem waitingKeepsState : Obligations.WaitingKeepsState :=
  ⟨fun _ hw hs => (step_of_waiting hw).trans (hostTurn_of_nil hs), fun _ => canAdvance_of_idle,
    fun _ _ _ hw hs hen => (step_of_waiting hw).trans (hostTurn_of_enabled hs hen)⟩

end Sys2Proof.Machine
end

section
/-! PROOF. A command whose preconditions hold starts: the other direction of `exec_of_firstTask`. -/

namespace Sys2Proof.Machine

/-- A count in range is one that PUSH and RBITS do not refuse (R92). -/
theorem countLegal_of_le {n : BitVec 16} (h : n.toNat ≤ 32) : countLegal n = true := by
  simpa [countLegal] using h

/-- A command whose preconditions hold starts at its first task from the state it sets up. -/
theorem exec_of_startsFrom {i : Instr} {task : Task} {s : State} (hi : firstTask i = some task)
    (h : StartsFrom s i) : exec i s = .next (start i.opcode task (setUp i s)) := by
  cases i with
  | nop | reset | clrw | setw sym w | build | assign | ralign => cases hi
  | wpre =>
    cases hi
    obtain ⟨hd, hw⟩ := h
    rw [exec, execWpre, if_neg (by simp [Precondition.holds, hd]), if_neg (by simp [Precondition.holds, hw])]
    rfl
  | wtab | enc | dec limit =>
    cases hi
    have hd : s.dictValid = true := h
    simp only [exec, execWtab, execEnc, execDec]
    rw [if_neg (by simp [Precondition.holds, hd])]
    rfl
  | push n v | rbits n =>
    cases hi
    simp only [exec, execPush, execRbits]
    rw [if_neg (by simp [countLegal_of_le h])]
    rfl
  | fin => cases hi; rfl
  | rpre =>
    cases hi
    have hr : s.rmask = 0 := h
    rw [exec, execRpre, if_neg (by simp [Precondition.holds, hr])]
    rfl
  | rtab =>
    cases hi
    obtain ⟨hp, hc⟩ := h
    rw [exec, execRtab, if_neg (by simp [Precondition.holds, hp]), if_neg (by simpa using hc)]
    rfl

/-- A command that is done in one step leaves the engine idle. -/
theorem idle_of_exec {i : Instr} {s t : State} (hi : firstTask i = none) (h : exec i s = .next t) :
    t.engine = .idle := by
  cases i with
  | nop | reset | clrw | setw sym w | ralign => cases h; rfl
  | build =>
    simp only [exec, execBuild] at h
    split at h <;> cases h <;> rfl
  | assign =>
    simp only [exec, execAssign] at h
    split at h <;> [skip; split at h] <;> cases h <;> rfl
  | wpre | wtab | enc | push n v | fin | rpre | rtab | dec limit | rbits n => cases hi

/-- The bound on turns is above what any loop over the symbols takes (log 16). -/
theorem turnsFor_large (s : State) : 131072 ≤ turnsFor s := Nat.le_add_right ..

theorem busy_eq_false {s : State} : s.busy = false ↔ s.engine = .idle := by
  simp [State.busy]

@[simp] theorem busy_park (s : State) (op : Byte) (t : Task) : (s.park op t).busy = true := by
  simp [State.busy]

theorem advance_of_running {s : State} {op : Byte} {t : Task} (h : s.engine = .running op t) :
    s.advance = runTask op (turnsFor s) t s := by
  rw [State.advance, h]

/-- The end of a command changes nothing when the engine is idle. -/
theorem endCommand_of_idle {s : State} (h : s.engine = .idle) : s.endCommand = s := by
  rw [State.endCommand, ← h]

end Sys2Proof.Machine
end

section
/-! PROOF. WPRE holds when OUT is full and goes on (20_memory.md R72, R75, 43_container_write.md R151). -/

namespace Sys2Proof.Machine

@[simp] theorem emitBytes_nil (s : State) : emitBytes s [] = s := by
  simp [emitBytes]

/-- Emitting one byte and then others (R75). -/
theorem emitBytes_putOut (s : State) (b : Byte) (bytes : List Byte) :
    emitBytes (s.putOut b) bytes = emitBytes s (b :: bytes) := by
  have hcount : s.outcnt + 1 + BitVec.ofNat 32 bytes.length = s.outcnt + BitVec.ofNat 32 (b :: bytes).length := by
    rw [List.length_cons, Nat.add_comm, BitVec.ofNat_add, BitVec.add_assoc]
    rfl
  simp only [emitBytes, State.putOut, List.append_assoc, List.singleton_append, hcount]

theorem preambleBytes_length (s : State) : (preambleBytes s).length = 256 := by
  rw [preambleBytes, List.length_map, allSyms_length]

/-- The preamble from symbol `k` on. -/
theorem preambleBytes_drop (s : State) {k : Nat} (h : k < 256) :
    (preambleBytes s).drop k = s.lenOf (BitVec.ofNat 8 k) :: (preambleBytes s).drop (k + 1) := by
  rw [List.drop_eq_getElem_cons (by rwa [preambleBytes_length])]
  simp only [preambleBytes, List.getElem_map, allSyms_getElem]

/-- With room for `r` more bytes WPRE's loop emits them, a turn for each (R151). -/
theorem runTask_wpre (op : Byte) : ∀ r m k s, k + r ≤ 256 → roomFor s r →
    runTask op (m + r) (.wpre k) s =
      runTask op m (.wpre (k + r)) (emitBytes s (((preambleBytes s).drop k).take r)) := by
  intro r
  induction r with
  | zero => intro m k s _ _; rw [List.take_zero, emitBytes_nil]; rfl
  | succ r ih =>
    intro m k s hk room
    unfold roomFor at room
    have hstep : (Task.wpre k).step s = .go (.wpre (k + 1)) (s.putOut (s.lenOf (BitVec.ofNat 8 k))) := by
      have hout : s.outByte (s.lenOf (BitVec.ofNat 8 k)) = some _ := State.outByte_some.2 ⟨by omega, rfl⟩
      simp only [Task.step, stepWpre, if_pos (show k < 256 by omega), hout]
    have hroom : roomFor (s.putOut (s.lenOf (BitVec.ofNat 8 k))) r := by
      simp only [roomFor, State.putOut_outq, State.putOut_params, List.length_append, List.length_singleton]
      omega
    rw [← Nat.add_assoc, runTask_go hstep, ih m (k + 1) _ (by omega) hroom, emitBytes_putOut,
      preambleBytes_drop s (by omega), List.take_succ_cons, Nat.add_right_comm]
    rfl

theorem emitBytes_outq (s : State) (bytes : List Byte) : (emitBytes s bytes).outq = s.outq ++ bytes := rfl

/-- Settles O38: both clauses run WPRE's loop as far as there is room; then its next `OutByte` holds, or it is done. -/
theorem wpreHoldsAndGoesOn : Obligations.WpreHoldsAndGoesOn := by
  constructor
  · intro s r _ hd hw hfull hr
    have hturns := turnsFor_large s
    obtain ⟨m, hm⟩ : ∃ m, turnsFor s = m + r := Nat.exists_eq_add_of_le' (by omega)
    have hhold : (Task.wpre r).step (emitBytes s ((preambleBytes s).take r)) = .hold := by
      refine Task.step_hold.2 ⟨hr, ?_⟩
      rw [emitBytes_outq, List.length_append, List.length_take, preambleBytes_length, min_eq_left hr.le, hfull]
      rfl
    have hrun := runTask_wpre 0x20 r m 0 s (by omega) hfull.le
    rw [List.drop_zero, Nat.zero_add, runTask_hold hhold, ← hm] at hrun
    rw [exec_of_startsFrom (i := .wpre) rfl ⟨hd, hw⟩]
    exact congrArg Host.Outcome.next hrun
  · intro s k he hk room
    have hturns := turnsFor_large s
    obtain ⟨n, hn⟩ : ∃ n, turnsFor s = n + (1 + (256 - k)) := Nat.exists_eq_add_of_le' (by omega)
    have hall : ((preambleBytes s).drop k).take (256 - k) = (preambleBytes s).drop k := by
      rw [List.take_of_length_le]
      rw [List.length_drop, preambleBytes_length]
    have hrun := runTask_wpre 0x20 (256 - k) (n + 1) k s (by omega) room
    rw [hall, Nat.add_sub_cancel' hk] at hrun
    rw [advance_of_running he, hn, ← Nat.add_assoc, hrun, runTask_done rfl]
    rfl

end Sys2Proof.Machine
end

section
/-! PROOF. Bits are packed most significant first (20_memory.md R62, R76 to R79). -/

namespace Sys2Proof.Machine

/-! ### Bytes as bit strings (R62) -/

/-- `bits(v, n)` begins with the highest of the `n` bits (R8). -/
theorem bits_getElem? (v : Nat) : ∀ n m, m < n → (bits v n)[m]? = some (v.testBit (n - 1 - m)) := by
  intro n
  induction n with
  | zero => intro m h; exact absurd h (Nat.not_lt_zero m)
  | succ n ih =>
    intro m h
    rw [bits_succ]
    cases m with
    | zero => rfl
    | succ m => rw [List.getElem?_cons_succ, ih m (by omega)]; congr 2; omega

/-- Bit `8·j + m` of the bits of a list of bytes is bit `7 − m` of its `j`-th byte (R62). -/
theorem flatMap_byteBits_getElem? {m : Nat} (hm : m < 8) : ∀ (l : List Byte) (j : Nat), j < l.length →
    (l.flatMap byteBits)[8 * j + m]? = some ((l.getD j 0).getLsbD (7 - m)) := by
  intro l
  induction l with
  | nil => intro j h; exact absurd h (Nat.not_lt_zero j)
  | cons b l ih =>
    intro j h
    rw [List.flatMap_cons]
    cases j with
    | zero =>
      rw [Nat.mul_zero, Nat.zero_add, List.getElem?_append_left (by simpa using hm)]
      exact bits_getElem? b.toNat 8 m hm
    | succ j =>
      rw [List.getElem?_append_right (by rw [byteBits_length]; omega), byteBits_length,
        show 8 * (j + 1) + m - 8 = 8 * j + m by omega, ih j (Nat.lt_of_succ_lt_succ h), List.getD_cons_succ]

/-- Bit `8·j + m` of a bit string is bit `7 − m` of the `j`-th byte it packs into (R62). -/
theorem packBytes_getLsbD (c : List Bool) {j m : Nat} (hj : j < (packBytes c).length) (hm : m < 8) :
    ((packBytes c).getD j 0).getLsbD (7 - m) = c.getD (8 * j + m) false := by
  have hlen := flatMap_byteBits_length (packBytes c)
  have hbit := flatMap_byteBits_getElem? hm (packBytes c) j hj
  rw [← List.getElem?_append_left (l₂ := leftBits c) (by omega), packBytes_bits] at hbit
  rw [List.getD_eq_getElem?_getD (l := c), hbit, Option.getD_some]

/-! ### PUSH after PUSH (R76, R77) -/

/-- PUSH with room for the bytes it completes pushes its bits (R201). -/
theorem exec_push_of_room {s : State} {n : BitVec 16} (v : Word32) (hidle : s.engine = .idle) (w : WriterOk s)
    (hn : n.toNat ≤ 32) (room : s.outq.length + (s.wcnt.toNat + n.toNat) / 8 ≤ s.params.outDepth) :
    exec (.push n v) s = .next (writeBits s (bits v.toNat n.toNat)) := by
  have hturns := turnsFor_large s
  obtain ⟨m, hm⟩ : ∃ m, turnsFor s = m + (1 + n.toNat) := Nat.exists_eq_add_of_le' (by omega)
  have hv : (v.setWidth 256).toNat = v.toNat := BitVec.toNat_setWidth_of_le (by decide)
  have hrun := runTask_push Opcode.push.code (v.setWidth 256) .stop n.toNat (m + 1) s w room
  have hend := endCommand_of_idle (s := writeBits s (bits v.toNat n.toNat)) hidle
  rw [runTask_done rfl, hv, hend, Nat.add_assoc, ← hm] at hrun
  rw [exec_of_startsFrom (i := .push n v) rfl hn]
  exact congrArg Host.Outcome.next hrun

/-- Several PUSH commands push their bits one after the other, as one string (R82, R201). -/
theorem execAll_push : ∀ (pushes : List (BitVec 16 × Word32)) (s : State), s.engine = .idle → WriterOk s →
    (∀ p ∈ pushes, p.1.toNat ≤ 32) →
    s.outq.length + (s.wcnt.toNat + countSum (pushes.map Prod.fst)) / 8 ≤ s.params.outDepth →
    execAll (pushes.map fun p => .push p.1 p.2) s = .next (writeBits s (pushedBits pushes)) := by
  intro pushes
  induction pushes with
  | nil => intro s _ w _ _; rw [pushedBits_nil, writeBits_nil w]; rfl
  | cons p pushes ih =>
    intro s hidle w hle room
    rw [List.map_cons, countSum_cons] at room
    have hp := exec_push_of_room p.2 hidle w (hle p List.mem_cons_self) (by omega)
    have hrest := ih (writeBits s (bits p.2.toNat p.1.toNat)) hidle (writeBits_pending s _).2
      (fun q hq => hle q (List.mem_cons_of_mem _ hq)) (by
        rw [writeBits_outq_length, writeBits_wcnt, bits_length]
        show _ ≤ s.params.outDepth
        omega)
    rw [List.map_cons, execAll, hp]
    rw [pushedBits_cons, ← writeBits_append]
    exact hrest

/-! ### `NextBit` and RBITS 1 (R79, R203) -/

/-- The bit under the mask that leaves `8 − m` bits is bit `7 − m`. -/
theorem and_mask_ne_zero (x : Byte) {m : Nat} (hm : m < 8) :
    decide (x &&& 0x80#8 >>> m ≠ 0) = x.getLsbD (7 - m) := by
  have hmask : ∀ k < 8, 0x80#8 >>> k = BitVec.twoPow 8 (7 - k) ∧ BitVec.twoPow 8 (7 - k) ≠ 0 := by decide
  obtain ⟨heq, hne⟩ := hmask m hm
  rw [heq, BitVec.and_twoPow]
  cases x.getLsbD (7 - m)
  · rfl
  · exact decide_eq_true hne

/-- The bits ahead of a reader on a byte boundary are those of the queued bytes (R79). -/
theorem inputBits_of_aligned {s : State} (h : s.rmask = 0) : inputBits s = s.inq.flatMap byteBits := by
  rw [inputBits, unreadCount, if_pos h]
  rfl

/-- One bit as a window word. -/
def bitWord (b : Bool) : Word32 := if b then 1 else 0

theorem shiftData_zero (b : Bool) : shiftData 0 b = bitWord b := by cases b <;> rfl

/-- `RDATA <- d` (R33). -/
def setData (s : State) (d : Word32) : State := { s with rdata := d }

/-- Reading bits neither looks at `RDATA` nor writes it. -/
theorem afterBits_setData (s : State) (d : Word32) (n : Nat) : afterBits (setData s d) n = setData (afterBits s n) d := by
  by_cases h : n ≤ unreadCount s
  · rw [afterBits_le h, afterBits_le (s := setData s d) h]
    rfl
  · rw [afterBits_gt (Nat.lt_of_not_le h), afterBits_gt (s := setData s d) (Nat.lt_of_not_le h)]
    rfl

theorem afterBits_engine (s : State) (n : Nat) : (afterBits s n).engine = s.engine := by
  by_cases h : n ≤ unreadCount s
  · rw [afterBits_le h]
  · rw [afterBits_gt (Nat.lt_of_not_le h)]

/-- RBITS 1 with a bit on the input reads it into `RDATA` (R203). -/
theorem exec_rbits_one {s : State} (hidle : s.engine = .idle) (hr : ReaderOk s) {b : Bool} {rest : List Bool}
    (hb : inputBits s = b :: rest) : exec (.rbits 1) s = .next (setData (afterBits s 1) (bitWord b)) := by
  have hturns := turnsFor_large (setData s 0)
  obtain ⟨m, hm⟩ : ∃ m, turnsFor (setData s 0) = m + 2 := Nat.exists_eq_add_of_le' (by omega)
  have hnext : (setData s 0).nextBit = .bit b (setData (afterBits s 1) 0) := by
    rw [← afterBits_setData]
    exact (nextBit_reads (s := setData s 0) hr hb).1
  have hstep : (Task.rbits 1 0).step (setData s 0) = .go (.rbits 1 1) (setData (afterBits s 1) (bitWord b)) := by
    simp only [Task.step, stepRbits, if_pos Nat.one_pos, hnext]
    rw [← shiftData_zero]
    rfl
  have hrun : start .rbits (.rbits 1 0) (setData s 0) = setData (afterBits s 1) (bitWord b) := by
    rw [start, hm, runTask_go hstep, runTask_done rfl]
    exact endCommand_of_idle ((afterBits_engine s 1).trans hidle)
  rw [exec_of_startsFrom (i := .rbits 1) rfl (show (1 : BitVec 16).toNat ≤ 32 by decide)]
  exact congrArg Host.Outcome.next hrun

/-- After `n + 1` commands RBITS 1, `RDATA` is the last bit read (R82, R203). -/
theorem execAll_rbits_one : ∀ (n : Nat) (s : State), s.engine = .idle → ReaderOk s → ∀ b, (inputBits s)[n]? = some b →
    execAll (List.replicate (n + 1) (.rbits 1)) s = .next (setData (afterBits s (n + 1)) (bitWord b)) := by
  intro n
  induction n with
  | zero =>
    intro s hidle hr b hb
    obtain ⟨rest, hrest⟩ : ∃ rest, inputBits s = b :: rest := List.head?_eq_some_iff.1 (List.head?_eq_getElem?.trans hb)
    rw [List.replicate_succ, execAll, exec_rbits_one hidle hr hrest]
    rfl
  | succ n ih =>
    intro s hidle hr b hb
    cases hi : inputBits s with
    | nil => simp [hi] at hb
    | cons c rest =>
      have hread := (nextBit_reads hr hi).2
      rw [hi, List.getElem?_cons_succ, ← hread] at hb
      have hrest := ih (setData (afterBits s 1) (bitWord c)) ((afterBits_engine s 1).trans hidle) (afterBits_ok hr 1) b hb
      rw [afterBits_setData, afterBits_add hr, Nat.add_comm 1] at hrest
      rw [List.replicate_succ, execAll, exec_rbits_one hidle hr hi]
      exact hrest

/-- Settles O44: both directions read bit `8·j + m` off bit `7 − m` of byte `j`, the writer's by `packBytes_getLsbD`, the
reader's by `and_mask_ne_zero` and, bit after bit, by `execAll_rbits_one`. -/
theorem bitsArePackedMsbFirst : Obligations.BitsArePackedMsbFirst := by
  refine ⟨fun s pushes hidle hcnt hacc hle room => ?_, fun s b rest hm hq => ?_, fun s m hm hmask => ?_,
    fun u j m hidle hmask hj hm => ?_⟩
  · have hcnt0 : s.wcnt.toNat = 0 := by rw [hcnt]; rfl
    have w : WriterOk s := ⟨by omega, by rw [hacc, hcnt]; decide⟩
    have hpending : pendingBits s = [] := by rw [pendingBits, hcnt0, bits_zero]
    refine ⟨_, packBytes (pushedBits pushes), execAll_push pushes s hidle w hle ?_, ?_, ?_, fun j m hj hm => ?_⟩
    · rw [hcnt0, Nat.zero_add]; exact room
    · rw [writeBits_eq, hpending, List.nil_append]
    · rw [packBytes_length, pushedBits_length]
    · exact packBytes_getLsbD _ hj hm
  · exact State.nextBit_bit.2 (.inr ⟨hm, b, rest, hq, (and_mask_ne_zero b (m := 0) (by decide)).symm, rfl⟩)
  · have hne : ∀ k < 8, 0x80#8 >>> k ≠ 0 := by decide
    refine State.nextBit_bit.2 (.inl ⟨by rw [hmask]; exact hne m hm, ?_, rfl⟩)
    rw [hmask, and_mask_ne_zero _ hm]
  · have hunread : unreadCount u = 0 := if_pos hmask
    have hr : ReaderOk u := (readerOk_iff u).2 (by rw [hmask]; rfl)
    have hbit := flatMap_byteBits_getElem? hm u.inq j hj
    rw [← inputBits_of_aligned hmask] at hbit
    refine ⟨_, execAll_rbits_one (8 * j + m) u hidle hr _ hbit, rfl, ?_⟩
    show (afterBits u (8 * j + m + 1)).inq = _
    rw [afterBits_gt (by omega), hunread, show (8 * j + m + 1 - 0 + 7) / 8 = j + 1 by omega]

end Sys2Proof.Machine
end

section
/-! PROOF. The host's timing and the depths change when a command holds, never what it does (20_memory.md R73): a command
and the same command with more on its input keep in step, up to where one of them holds. -/

namespace Sys2Proof.Machine

/-! ### Two states that differ at the ports (R73) -/

/-- `s` with the ports and the engine of `u`, but its own input, followed by `more`. -/
def withPortsOf (s : State) (more : List Byte) (u : State) : State :=
  { s with
    inq := s.inq ++ more, ineos := u.ineos, engine := u.engine, outq := u.outq, params := u.params, host := u.host }

/-- `s'` has `more` input behind that of `s`, and the rest of its ports may differ; but where the input of `s` has ended, so
has that of `s'`. The engine is not compared: it is not read by a step. -/
structure FedMore (more : List Byte) (s s' : State) : Prop where
  block : s' = withPortsOf s more s'
  emitted : s.host.drained ++ s.outq = s'.host.drained ++ s'.outq
  ended : s.ineos = true → more = [] ∧ s'.ineos = true

theorem fedMore_of_fedWith {more : List Byte} {s s' : State} (h : fedWith s more s')
    (hend : s.ineos = true → more = [] ∧ s'.ineos = true) : FedMore more s s' := by
  obtain ⟨hblock, hemitted⟩ := h
  exact ⟨by rw [hblock]; rfl, hemitted, hend⟩

theorem fedMore_of_sameButPorts {s s' : State} (h : sameButPorts s s') : FedMore [] s s' := by
  obtain ⟨hblock, hemitted⟩ := h
  refine ⟨?_, hemitted, fun he => ⟨rfl, by rw [hblock]; exact he⟩⟩
  rw [hblock]
  simp [withPortsOf]

/-- With nothing more on the input, and the same engine and end of input, only the OUT side differs. -/
theorem FedMore.same_but_ports {s s' : State} (h : FedMore [] s s') (hend : s'.ineos = s.ineos)
    (hengine : s'.engine = s.engine) : sameButPorts s s' := by
  refine ⟨?_, h.emitted⟩
  have hblock := h.block
  rw [withPortsOf, hend, hengine, List.append_nil] at hblock
  exact hblock

section Ports
variable {more : List Byte} {s s' : State}

/-- What is read off the block's registers is the same. -/
theorem FedMore.value {α : Type} {v : State → α} (h : FedMore more s s')
    (hv : ∀ s more u, v (withPortsOf s more u) = v s) : v s' = v s := by
  rw [h.block, hv]

/-- Writing registers keeps the relation. -/
theorem FedMore.map {f : State → State} (h : FedMore more s s')
    (hf : ∀ s more u, f (withPortsOf s more u) = withPortsOf (f s) more u) : FedMore more (f s) (f s') := by
  have hself : ∀ s, withPortsOf s [] s = s := fun s => by simp [withPortsOf]
  have hkeep : ∀ s, f s = withPortsOf (f s) [] s := fun s => by rw [← hf, hself]
  refine ⟨?_, ?_, ?_⟩
  · conv_lhs => rw [h.block, hf]
    rw [hkeep s']
    rfl
  · rw [hkeep s, hkeep s']
    exact h.emitted
  · rw [hkeep s, hkeep s']
    exact h.ended

theorem FedMore.takeIn {b : Byte} {rest : List Byte} (h : FedMore more s s') (hq : s.inq = b :: rest) :
    s'.inq = b :: (rest ++ more) ∧ FedMore more (s.takeIn rest) (s'.takeIn (rest ++ more)) := by
  refine ⟨?_, ?_, h.emitted, h.ended⟩
  · rw [h.block]
    show s.inq ++ more = _
    rw [hq, List.cons_append]
  · rw [h.block]
    rfl

theorem FedMore.putOut (h : FedMore more s s') (v : Byte) : FedMore more (s.putOut v) (s'.putOut v) := by
  refine ⟨?_, ?_, h.ended⟩
  · rw [h.block]
    rfl
  · show s.host.drained ++ (s.outq ++ [v]) = s'.host.drained ++ (s'.outq ++ [v])
    rw [← List.append_assoc, h.emitted, List.append_assoc]

theorem FedMore.setWriter (h : FedMore more s s') (acc : Byte) (cnt : BitVec 4) :
    FedMore more (s.setWriter acc cnt) (s'.setWriter acc cnt) :=
  h.map (f := fun u => u.setWriter acc cnt) fun _ _ _ => rfl

theorem FedMore.setReader (h : FedMore more s s') (byte mask : Byte) :
    FedMore more (s.setReader byte mask) (s'.setReader byte mask) :=
  h.map (f := fun u => u.setReader byte mask) fun _ _ _ => rfl

theorem FedMore.endCommand (h : FedMore more s s') : FedMore more s.endCommand s'.endCommand :=
  ⟨by rw [h.block]; rfl, h.emitted, h.ended⟩

theorem FedMore.raise (h : FedMore more s s') (op : Byte) (e : ErrName) (info : Word32) :
    FedMore more (s.raise op e info) (s'.raise op e info) :=
  ⟨by rw [h.block]; rfl, h.emitted, h.ended⟩

/-- Two steps that do the same, unless one of them holds. -/
inductive InStep (more : List Byte) : Micro → Micro → Prop where
  | holdsLeft (m : Micro) : InStep more .hold m
  | holdsRight (m : Micro) : InStep more m .hold
  | go (t : Task) {s s' : State} (h : FedMore more s s') : InStep more (.go t s) (.go t s')
  | done {s s' : State} (h : FedMore more s s') : InStep more (.done s) (.done s')
  | raise (e : ErrName) (info : Word32) {s s' : State} (h : FedMore more s s') :
    InStep more (.raise e info s) (.raise e info s')

/-! ### The stream primitives in step (R74 to R79) -/

/-- What ends the input of `s` ends that of `s'`. -/
theorem FedMore.input_ended (h : FedMore more s s') (hq : s.inq = []) (he : s.ineos = true) :
    s'.inq = [] ∧ s'.ineos = true := by
  obtain ⟨rfl, he'⟩ := h.ended he
  refine ⟨?_, he'⟩
  rw [h.block]
  show s.inq ++ [] = []
  rw [hq, List.append_nil]

/-- A step that begins with `InByte` (R74): `ends` at exhaustion, `goes` with a byte. -/
theorem FedMore.inByte (h : FedMore more s s') {ends : State → Micro} {goes : Byte → State → Micro}
    (hends : InStep more (ends s) (ends s'))
    (hgoes : ∀ b {t t'}, FedMore more t t' → InStep more (goes b t) (goes b t')) :
    InStep more (match s.inByte with | .hold => .hold | .exhausted => ends s | .byte b t => goes b t)
      (match s'.inByte with | .hold => .hold | .exhausted => ends s' | .byte b t => goes b t) := by
  cases hin : s.inByte with
  | hold => exact .holdsLeft _
  | exhausted =>
    obtain ⟨hq, he⟩ := State.inByte_exhausted.1 hin
    rw [State.inByte_exhausted.2 (h.input_ended hq he)]
    exact hends
  | byte b t =>
    obtain ⟨rest, hq, rfl⟩ := State.inByte_byte.1 hin
    obtain ⟨hq', hfed⟩ := h.takeIn hq
    rw [State.inByte_byte.2 ⟨_, hq', rfl⟩]
    exact hgoes b hfed

/-- A step that begins with `NextBit` (R79): `ends` at exhaustion, `goes` with a bit. -/
theorem FedMore.nextBit (h : FedMore more s s') {ends : State → Micro} {goes : Bool → State → Micro}
    (hends : InStep more (ends s) (ends s'))
    (hgoes : ∀ b {t t'}, FedMore more t t' → InStep more (goes b t) (goes b t')) :
    InStep more (match s.nextBit with | .hold => .hold | .exhausted => ends s | .bit b t => goes b t)
      (match s'.nextBit with | .hold => .hold | .exhausted => ends s' | .bit b t => goes b t) := by
  have hmask : s'.rmask = s.rmask := h.value (v := State.rmask) fun _ _ _ => rfl
  have hbyte : s'.rbyte = s.rbyte := h.value (v := State.rbyte) fun _ _ _ => rfl
  cases hnext : s.nextBit with
  | hold => exact .holdsLeft _
  | exhausted =>
    obtain ⟨hm, hq, he⟩ := State.nextBit_exhausted.1 hnext
    rw [State.nextBit_exhausted.2 ⟨hmask.trans hm, h.input_ended hq he⟩]
    exact hends
  | bit b t =>
    rcases State.nextBit_bit.1 hnext with ⟨hm, rfl, rfl⟩ | ⟨hm, x, rest, hq, rfl, rfl⟩
    · rw [State.nextBit_bit.2 (.inl ⟨by rwa [hmask], rfl, rfl⟩), hmask, hbyte]
      exact hgoes _ (h.setReader _ _)
    · obtain ⟨hq', hfed⟩ := h.takeIn hq
      rw [State.nextBit_bit.2 (.inr ⟨hmask.trans hm, x, _, hq', rfl, rfl⟩)]
      exact hgoes _ (hfed.setReader _ _)

/-- Two writes that do the same, unless one of them holds. -/
def BothWrite (more : List Byte) (o o' : Option State) : Prop :=
  o = none ∨ o' = none ∨ ∃ t t', o = some t ∧ o' = some t' ∧ FedMore more t t'

/-- A step that begins with such a write. -/
theorem BothWrite.inStep {goes : State → Micro} (hgoes : ∀ {t t'}, FedMore more t t' → InStep more (goes t) (goes t'))
    {o o' : Option State} : BothWrite more o o' →
    InStep more (match o with | none => .hold | some t => goes t) (match o' with | none => .hold | some t => goes t) := by
  rintro (rfl | rfl | ⟨t, t', rfl, rfl, hfed⟩)
  · exact .holdsLeft _
  · exact .holdsRight _
  · exact hgoes hfed

theorem FedMore.outByte (h : FedMore more s s') (v : Byte) : BothWrite more (s.outByte v) (s'.outByte v) := by
  cases hout : s.outByte v with
  | none => exact .inl rfl
  | some t =>
    cases hout' : s'.outByte v with
    | none => exact .inr (.inl rfl)
    | some t' =>
      obtain ⟨-, rfl⟩ := State.outByte_some.1 hout
      obtain ⟨-, rfl⟩ := State.outByte_some.1 hout'
      exact .inr (.inr ⟨_, _, rfl, rfl, h.putOut v⟩)

/-- Emptying the writer after the byte it emits. -/
theorem BothWrite.emptied {o o' : Option State} (h : BothWrite more o o') :
    BothWrite more (o.map fun t => t.setWriter 0 0) (o'.map fun t => t.setWriter 0 0) := by
  rcases h with rfl | rfl | ⟨t, t', rfl, rfl, hfed⟩
  · exact .inl rfl
  · exact .inr (.inl rfl)
  · exact .inr (.inr ⟨_, _, rfl, rfl, hfed.setWriter 0 0⟩)

theorem FedMore.pushBit (h : FedMore more s s') (b : Bool) : BothWrite more (s.pushBit b) (s'.pushBit b) := by
  have hacc : s'.wacc = s.wacc := h.value (v := State.wacc) fun _ _ _ => rfl
  have hcnt : s'.wcnt = s.wcnt := h.value (v := State.wcnt) fun _ _ _ => rfl
  unfold State.pushBit
  rw [hacc, hcnt]
  dsimp only
  split
  · exact (h.outByte _).emptied
  · exact .inr (.inr ⟨_, _, rfl, rfl, h.setWriter _ _⟩)

theorem FedMore.finish (h : FedMore more s s') : BothWrite more s.finish s'.finish := by
  have hcnt : s'.wcnt = s.wcnt := h.value (v := State.wcnt) fun _ _ _ => rfl
  have hbyte : paddedByte s' = paddedByte s := h.value (v := paddedByte) fun _ _ _ => rfl
  unfold State.finish
  rw [hcnt, hbyte]
  split
  · exact .inr (.inr ⟨_, _, rfl, rfl, h⟩)
  · exact (h.outByte _).emptied

/-! ### A step of a running command (R73) -/

/-- ENC with a byte taken (R153). -/
theorem FedMore.encByte (h : FedMore more s s') (b : Byte) :
    InStep more (if s.coded b then .go (pushCode s b .enc) s else .raise .noCode (b.setWidth 32) s)
      (if s'.coded b then .go (pushCode s' b .enc) s' else .raise .noCode (b.setWidth 32) s') := by
  have hcoded : s'.coded b = s.coded b := h.value (v := fun u => u.coded b) fun _ _ _ => rfl
  have hpush : pushCode s' b .enc = pushCode s b .enc := h.value (v := fun u => pushCode u b .enc) fun _ _ _ => rfl
  rw [hcoded, hpush]
  split
  · exact .go _ h
  · exact .raise _ _ h

theorem FedMore.decCandidate (limit : Word32) (h : FedMore more s s') :
    InStep more (decCandidate limit s) (decCandidate limit s') := by
  have hmatch : matchSym s' = matchSym s := h.value (v := matchSym) fun _ _ _ => rfl
  have hviable : viable s' = viable s := h.value (v := viable) fun _ _ _ => rfl
  have hpad : padLike s' = padLike s := h.value (v := padLike) fun _ _ _ => rfl
  have hcount : s'.dcount = s.dcount := h.value (v := State.dcount) fun _ _ _ => rfl
  unfold Machine.decCandidate
  rw [hmatch, hviable, hpad, hcount]
  split
  · exact .go _ h
  · split
    · exact .raise _ _ h
    · exact .go _ h

theorem FedMore.decExhausted (limit : Word32) (h : FedMore more s s') :
    InStep more (decExhausted limit s) (decExhausted limit s') := by
  have hclen : s'.clen = s.clen := h.value (v := State.clen) fun _ _ _ => rfl
  have hpad : padLike s' = padLike s := h.value (v := padLike) fun _ _ _ => rfl
  have hcount : s'.dcount = s.dcount := h.value (v := State.dcount) fun _ _ _ => rfl
  unfold Machine.decExhausted
  rw [hclen, hpad, hcount]
  split
  · exact .raise _ _ h
  · split
    · exact .raise _ _ h
    · exact .done h

/-- The first conflict is read off the codes alone. -/
theorem firstConflict_congr {u u' : State} (h : ∀ a, u'.codeBits a = u.codeBits a) (l : List Sym) :
    firstConflict u' l = firstConflict u l := by
  induction l with
  | nil => rfl
  | cons a l ih => simp only [firstConflict, h, ih]

theorem FedMore.endRtab (h : FedMore more s s') : InStep more (endRtab s) (endRtab s') := by
  have hfed : FedMore more s.rAlign s'.rAlign := h.map (f := State.rAlign) fun _ _ _ => rfl
  have hconflict : firstConflict s'.rAlign (codedSyms s'.rAlign) = firstConflict s.rAlign (codedSyms s.rAlign) :=
    hfed.value (v := fun u => firstConflict u (codedSyms u)) fun u more p =>
      firstConflict_congr (u := u) (u' := withPortsOf u more p) (fun _ => rfl) (codedSyms u)
  unfold Machine.endRtab
  dsimp only
  rw [hconflict]
  split
  · exact .raise _ _ hfed
  · exact .done (hfed.map
      (f := fun u => { u with maxlen := largestLen u, preValid := false, dictValid := true }) fun _ _ _ => rfl)

/-- A command does the same step whatever follows its input, unless one of the two holds. -/
theorem FedMore.step (h : FedMore more s s') (t : Task) : InStep more (t.step s) (t.step s') := by
  have hlen : ∀ a, s'.lenOf a = s.lenOf a := fun a => h.value (v := fun u => u.lenOf a) fun _ _ _ => rfl
  have hcode : ∀ a, s'.codeOf a = s.codeOf a := fun a => h.value (v := fun u => u.codeOf a) fun _ _ _ => rfl
  have hcoded : ∀ a, s'.coded a = s.coded a := fun a => h.value (v := fun u => u.coded a) fun _ _ _ => rfl
  cases t with
  | wpre k =>
    simp only [Task.step, stepWpre, hlen]
    split
    · exact BothWrite.inStep (.go _) (h.outByte _)
    · exact .done h
  | wtab k =>
    simp only [Task.step, stepWtab, pushCode, hcoded, hcode, hlen]
    split
    · split <;> exact .go _ h
    · exact .go _ h
  | enc => exact h.inByte (.go _ h) fun b _ _ hfed => hfed.encByte b
  | push v n after =>
    cases n with
    | zero => cases after <;> [exact .done h; exact .go _ h; exact .go _ h]
    | succ k => exact BothWrite.inStep (.go _) (h.pushBit (v.getLsbD k))
  | finish => exact BothWrite.inStep .done h.finish
  | rpre k =>
    simp only [Task.step, stepRpre]
    split
    · exact h.inByte (.raise _ _ h) fun b _ _ hfed =>
        .go _ (hfed.map (f := fun u => u.setLen (BitVec.ofNat 8 k) b) fun _ _ _ => rfl)
    · exact .done (h.map (f := fun u => { u with preValid := true }) fun _ _ _ => rfl)
  | rtab k =>
    simp only [Task.step, stepRtab, hcoded, hlen]
    split
    · split <;> exact .go _ h
    · exact h.endRtab
  | rtabCode sym n c =>
    cases n with
    | zero => exact .go _ (h.map (f := fun u => u.setCode sym c) fun _ _ _ => rfl)
    | succ k => exact h.nextBit (.raise _ _ h) fun _ _ _ hfed => .go _ hfed
  | dec limit =>
    have hcount : s'.dcount = s.dcount := h.value (v := State.dcount) fun _ _ _ => rfl
    simp only [Task.step, stepDec, hcount]
    split
    · exact .done h
    · exact h.nextBit (h.decExhausted limit) fun b _ _ hfed =>
        (hfed.map (f := fun u => extendCand u b) fun _ _ _ => rfl).decCandidate limit
  | decEmit limit sym =>
    exact BothWrite.inStep (fun hfed =>
      .go _ (hfed.map (f := fun u => { u with dcount := u.dcount + 1, clen := 0, cand := 0 }) fun _ _ _ => rfl))
      (h.outByte sym)
  | rbits n j =>
    simp only [Task.step, stepRbits]
    split
    · exact h.nextBit (.raise _ _ h) fun b _ _ hfed =>
        .go _ (hfed.map (f := fun u => { u with rdata := shiftData u.rdata b }) fun _ _ _ => rfl)
    · exact .done h

end Ports

/-- No step of a command writes the engine or end of input. -/
theorem Task.step_keeps_engine {t : Task} {s s' : State} (h : (t.step s).state? = some s') :
    s'.engine = s.engine ∧ s'.ineos = s.ineos := by
  rw [Task.step_frame h]
  exact ⟨rfl, rfl⟩

/-- R73's first sentence, step by step. -/
theorem microAgrees_step (t : Task) {s s' : State} (h : sameButPorts s s') : microAgrees (t.step s) (t.step s') := by
  have hengine : s'.engine = s.engine ∧ s'.ineos = s.ineos := by rw [h.1]; exact ⟨rfl, rfl⟩
  have hsame : ∀ {u u'}, (t.step s).state? = some u → (t.step s').state? = some u' → FedMore [] u u' →
      sameButPorts u u' := by
    intro u u' hu hu' hfed
    obtain ⟨he, hi⟩ := Task.step_keeps_engine hu
    obtain ⟨he', hi'⟩ := Task.step_keeps_engine hu'
    exact hfed.same_but_ports (by rw [hi', hi, hengine.2]) (by rw [he', he, hengine.1])
  have hstep := (fedMore_of_sameButPorts h).step t
  generalize t.step s = m at hstep hsame
  generalize t.step s' = m' at hstep hsame
  cases hstep with
  | holdsLeft => trivial
  | holdsRight => cases m <;> trivial
  | go t' hfed => exact ⟨rfl, hsame rfl rfl hfed⟩
  | done hfed => exact hsame rfl rfl hfed
  | raise e info hfed => exact ⟨rfl, rfl, hsame rfl rfl hfed⟩

/-! ### A run of a command's steps (R73) -/

theorem restWrites_ineos (t : Task) (s u : State) : (restWrites t s u).ineos = s.ineos := by
  cases t with
  | push v n after => cases after <;> rfl
  | _ => rfl

theorem runTask_ineos (op : Byte) (n : Nat) (t : Task) (s : State) : (runTask op n t s).ineos = s.ineos := by
  rw [runTask_frame]
  exact restWrites_ineos t s _

/-- A run that is not left in a task has a turn. -/
theorem exists_turn_of_not_busy {op : Byte} {n : Nat} {t : Task} {s : State} (h : (runTask op n t s).busy = false) :
    t.step s ≠ .hold ∧ ∃ m, n = m + 1 := by
  constructor
  · intro hs
    rw [runTask_hold hs, busy_park] at h
    cases h
  · cases n with
    | zero => rw [runTask_zero, busy_park] at h; cases h
    | succ m => exact ⟨m, rfl⟩

/-- Two runs that both end, end in step. -/
theorem FedMore.runTask_ends {more : List Byte} {op : Byte} : ∀ (n n' : Nat) (t : Task) (s s' : State),
    FedMore more s s' → (runTask op n t s).busy = false → (runTask op n' t s').busy = false →
    FedMore more (runTask op n t s) (runTask op n' t s') := by
  intro n
  induction n with
  | zero => intro n' t s s' _ hend _; rw [runTask_zero, busy_park] at hend; cases hend
  | succ n ih =>
    intro n' t s s' h hend hend'
    obtain ⟨hgoes, -⟩ := exists_turn_of_not_busy hend
    obtain ⟨hgoes', n', rfl⟩ := exists_turn_of_not_busy hend'
    have hstep := h.step t
    generalize hm : t.step s = m at hstep hgoes
    generalize hm' : t.step s' = m' at hstep hgoes'
    cases hstep with
    | holdsLeft => exact absurd rfl hgoes
    | holdsRight => exact absurd rfl hgoes'
    | go t' hfed =>
      rw [runTask_go hm] at hend ⊢
      rw [runTask_go hm'] at hend' ⊢
      exact ih n' t' _ _ hfed hend hend'
    | done hfed =>
      rw [runTask_done hm, runTask_done hm']
      exact hfed.endCommand
    | raise e info hfed =>
      rw [runTask_raise hm, runTask_raise hm']
      exact hfed.raise op e info

/-- A run that is left in a task, beside one that ends: the latter passes through the task in step. -/
theorem FedMore.runTask_holds {more : List Byte} {op : Byte} : ∀ (n n' : Nat) (t : Task) (s s' : State),
    FedMore more s s' → (runTask op n t s).busy = true → (runTask op n' t s').busy = false →
    ∃ m t₁ s₁ s₁', runTask op n t s = s₁.park op t₁ ∧ FedMore more s₁ s₁' ∧
      runTask op m t₁ s₁' = runTask op n' t s' := by
  intro n
  induction n with
  | zero => intro n' t s s' h _ _; exact ⟨n', t, s, s', rfl, h, rfl⟩
  | succ n ih =>
    intro n' t s s' h hbusy hend
    obtain ⟨hgoes, m, rfl⟩ := exists_turn_of_not_busy hend
    have hstep := h.step t
    generalize hm : t.step s = m at hstep
    generalize hm' : t.step s' = m' at hstep hgoes
    cases hstep with
    | holdsLeft => exact ⟨_, t, s, s', runTask_hold hm, h, rfl⟩
    | holdsRight => exact absurd rfl hgoes
    | go t' hfed =>
      rw [runTask_go hm] at hbusy ⊢
      rw [runTask_go hm'] at hend ⊢
      exact ih _ t' _ _ hfed hbusy hend
    | done hfed => rw [runTask_done hm] at hbusy; cases hbusy
    | raise e info hfed => rw [runTask_raise hm] at hbusy; cases hbusy

/-! ### Left at a hold and gone on (R71 to R73) -/

section GoesOn
variable {more : List Byte} {s s' u : State}

/-- What the host has made of a held block, beside a block that had it all from the start. -/
theorem FedMore.of_hold {op : Byte} {t : Task} (h : FedMore more s s') (hu : fedWith (s.park op t) more u)
    (hend : u.ineos = s'.ineos) : FedMore [] u s' ∧ u.engine = .running op t := by
  obtain ⟨hblock, hemitted⟩ := hu
  refine ⟨⟨?_, hemitted.symm.trans h.emitted, fun he => ⟨rfl, hend.symm.trans he⟩⟩, by rw [hblock]; rfl⟩
  rw [withPortsOf, List.append_nil, hblock]
  exact h.block

/-- A run left in a task and gone on with what the host has brought ends as the run that had it all from the start. -/
theorem FedMore.goes_on {op : Byte} {n n' : Nat} {t : Task} (h : FedMore more s s')
    (hbusy : (runTask op n t s).busy = true) (hu : fedWith (runTask op n t s) more u) (heos : u.ineos = s'.ineos)
    (hend' : (runTask op n' t s').busy = false) (hend : u.advance.busy = false) :
    sameButPorts u.advance (runTask op n' t s') := by
  obtain ⟨m, t₁, s₁, s₁', hpark, h₁, hrest⟩ := FedMore.runTask_holds n n' t s s' h hbusy hend'
  have heos₁ : s₁'.ineos = s'.ineos := by rw [← runTask_ineos op m t₁ s₁', hrest, runTask_ineos]
  rw [hpark] at hu
  obtain ⟨hfed, hengine⟩ := h₁.of_hold hu (heos.trans heos₁.symm)
  rw [advance_of_running hengine] at hend ⊢
  rw [← hrest] at hend' ⊢
  refine (FedMore.runTask_ends _ m t₁ u s₁' hfed hend hend').same_but_ports ?_ ?_
  · rw [runTask_ineos, runTask_ineos, heos, heos₁]
  · rw [busy_eq_false.1 hend, busy_eq_false.1 hend']

/-- What lets a command start does not lie at the ports. -/
theorem FedMore.startsFrom {i : Instr} (h : FedMore more s s') (hs : StartsFrom s i) : StartsFrom s' i := by
  rw [h.block]
  cases i <;> exact hs

theorem FedMore.setUp (h : FedMore more s s') (i : Instr) : FedMore more (setUp i s) (setUp i s') :=
  h.map fun _ _ _ => by cases i <;> rfl

theorem setUp_ineos (i : Instr) (s : State) : (setUp i s).ineos = s.ineos := by
  cases i <;> rfl

/-- A command that is left in a task has started, from the state it sets up. -/
theorem exec_busy {i : Instr} {t : State} (h : exec i s = .next t) (hbusy : t.busy = true) :
    ∃ task, firstTask i = some task ∧ StartsFrom s i ∧ t = start i.opcode task (setUp i s) := by
  cases hi : firstTask i with
  | none =>
    have hidle := busy_eq_false.2 (idle_of_exec hi h)
    rw [hbusy] at hidle
    cases hidle
  | some task =>
    rcases exec_of_firstTask hi h with ⟨e, info, rfl⟩ | ⟨hs, rfl⟩
    · cases hbusy
    · exact ⟨task, rfl, hs, rfl⟩

end GoesOn

/-- Settles O16: a state and the state with all the input and the room are in step (`FedMore.step`) up to where the former
is left, and from there on to the end. -/
theorem hostTimingOnlyHolds : Obligations.HostTimingOnlyHolds := by
  refine ⟨fun t s s' h => microAgrees_step t h, ?_, ?_⟩
  · intro i s t u s' t' more _ heos hfed ht hbusy hu hueos ht' hend' hend
    have h := fedMore_of_fedWith hfed heos
    obtain ⟨task, hi, hs, rfl⟩ := exec_busy ht hbusy
    rw [exec_of_startsFrom hi (h.startsFrom hs)] at ht'
    cases ht'
    exact (h.setUp i).goes_on hbusy hu (by rw [setUp_ineos, hueos]) hend' hend
  · intro s u s' more hbusy heos hfed hleft hu hueos hend' hend
    cases hengine : s.engine with
    | idle => rw [busy_eq_false.2 hengine] at hbusy; cases hbusy
    | running op task =>
      have hengine' : s'.engine = .running op task := by rw [hfed.1]; exact hengine
      rw [advance_of_running hengine] at hleft hu
      rw [advance_of_running hengine'] at hend' ⊢
      exact (fedMore_of_fedWith hfed heos).goes_on hleft hu hueos hend' hend

end Sys2Proof.Machine
end

section
/-! PROOF. Decoding and encoding are each other's inverse, and every other word decodes to its error (30_encoding.md R90 to
R96). -/

namespace Sys2Proof

/-! ### The opcode map (R93, R95) -/

@[simp] theorem Opcode.ofByte_code (o : Opcode) : Opcode.ofByte o.code = some o := by
  cases o <;> rfl

/-- A reserved opcode is one that no row of R93 has. -/
theorem Opcode.ofByte_eq_none {op : Byte} : Opcode.ofByte op = none ↔ ∀ o : Opcode, op ≠ o.code := by
  constructor
  · rintro h o rfl
    rw [ofByte_code] at h
    cases h
  · intro h
    refine List.find?_eq_none.2 fun o _ ho => h o ?_
    exact (of_decide_eq_true ho).symm

/-- The bytes that no row of R93 has are R95's four ranges. -/
theorem Opcode.reserved_iff (op : Byte) : (∀ o : Opcode, op ≠ o.code) ↔
    ((0x02 ≤ op ∧ op ≤ 0x0F) ∨ (0x14 ≤ op ∧ op ≤ 0x1F) ∨ (0x25 ≤ op ∧ op ≤ 0x2F) ∨ 0x35 ≤ op) := by
  constructor
  · intro h
    have hall : ∀ o ∈ Opcode.all, op ≠ o.code := fun o _ => h o
    simp only [Opcode.all, List.forall_mem_cons, Opcode.code] at hall
    bv_omega
  · intro h o
    cases o <;> simp only [Opcode.code] <;> bv_omega

@[simp] theorem Opcode.opcode_instr (o : Opcode) (a : Byte) (b : BitVec 16) (imm : Word32) :
    (o.instr a b imm).opcode = o := by
  cases o <;> rfl

/-- An opcode's command is well formed when the count it takes is one R92 allows. -/
theorem Opcode.wellFormed_instr (o : Opcode) (a : Byte) (b : BitVec 16) (imm : Word32) :
    (o.instr a b imm).wellFormed = true ↔ (o.takesCount = true → b.toNat ≤ 32) := by
  cases o <;> simp [instr, Instr.wellFormed, takesCount, countLegal]

/-! ### The word of a command (R90, R91) -/

/-- A word is its four fields (R90). -/
theorem assembleWord_fields (w : CmdWord) : assembleWord (opField w) (aField w) (bField w) (immField w) = w := by
  apply BitVec.eq_of_getLsbD_eq
  intro k hk
  simp only [getLsbD_assembleWord, opField, aField, bField, immField, BitVec.getLsbD_extractLsb']
  split_ifs with himm hb ha
  · simp [himm]
  · simp [hb, show 32 + (k - 32) = k by omega]
  · simp [ha, show 48 + (k - 32 - 16) = k by omega]
  · simp [show k - 32 - 16 - 8 < 8 by omega, show 56 + (k - 32 - 16 - 8) = k by omega]

/-- The word of any command carries its opcode, passes its opcode's mask and has its operands in its fields. -/
theorem encode_fields (i : Instr) : Laws.EncodeFields.Statement i := by
  cases i with
  | nop => exact Laws.EncodeFields.nop
  | reset => exact Laws.EncodeFields.reset
  | clrw => exact Laws.EncodeFields.clrw
  | setw s w => exact Laws.EncodeFields.setw s w
  | build => exact Laws.EncodeFields.build
  | assign => exact Laws.EncodeFields.assign
  | wpre => exact Laws.EncodeFields.wpre
  | wtab => exact Laws.EncodeFields.wtab
  | enc => exact Laws.EncodeFields.enc
  | push n v => exact Laws.EncodeFields.push n v
  | fin => exact Laws.EncodeFields.fin
  | rpre => exact Laws.EncodeFields.rpre
  | rtab => exact Laws.EncodeFields.rtab
  | dec limit => exact Laws.EncodeFields.dec limit
  | rbits n => exact Laws.EncodeFields.rbits n
  | ralign => exact Laws.EncodeFields.ralign

/-- Outside an opcode's mask stand the operands of its format, and nothing else (R91, R94). -/
theorem encode_instr_and_not_mask (o : Opcode) (op a : Byte) (b : BitVec 16) (imm : Word32) :
    encode (o.instr a b imm) &&& ~~~o.mask = assembleWord op a b imm &&& ~~~o.mask := by
  cases o with
  | setw =>
    show assembleWord 0x11 a 0 imm &&& assembleWord 0 0xFF 0 0xFFFFFFFF = _ &&& assembleWord 0 0xFF 0 0xFFFFFFFF
    simp [assembleWord_and]
  | push =>
    show assembleWord 0x23 0 b imm &&& assembleWord 0 0 0xFFFF 0xFFFFFFFF = _ &&& assembleWord 0 0 0xFFFF 0xFFFFFFFF
    simp [assembleWord_and]
  | dec =>
    show assembleWord 0x32 0 0 imm &&& assembleWord 0 0 0 0xFFFFFFFF = _ &&& assembleWord 0 0 0 0xFFFFFFFF
    simp [assembleWord_and]
  | rbits =>
    show assembleWord 0x33 0 b 0 &&& assembleWord 0 0 0xFFFF 0 = _ &&& assembleWord 0 0 0xFFFF 0
    simp [assembleWord_and]
  | nop | reset | clrw | build | assign | wpre | wtab | enc | fin | rpre | rtab | ralign =>
    exact BitVec.and_zero.trans BitVec.and_zero.symm

/-- Words that agree under a mask and outside it are equal. -/
theorem eq_of_and_eq {n : Nat} {v w mask : BitVec n} (hin : v &&& mask = w &&& mask)
    (hout : v &&& ~~~mask = w &&& ~~~mask) : v = w := by
  apply BitVec.eq_of_getLsbD_eq
  intro k hk
  have bit_in := congrArg (·.getLsbD k) hin
  have bit_out := congrArg (·.getLsbD k) hout
  simp only [BitVec.getLsbD_and, BitVec.getLsbD_not, hk, decide_true, Bool.true_and] at bit_in bit_out
  cases h : mask.getLsbD k with
  | false => simpa only [h, Bool.not_false, Bool.and_true] using bit_out
  | true => simpa only [h, Bool.and_true] using bit_in

/-- A word that passes an opcode's mask is the word of the command its fields give. -/
theorem encode_of_mask {o : Opcode} {w : CmdWord} (h : w &&& o.mask = o.matchBits) :
    encode (o.instr (aField w) (bField w) (immField w)) = w := by
  obtain ⟨-, hmask, -⟩ := encode_fields (o.instr (aField w) (bField w) (immField w))
  rw [Opcode.opcode_instr] at hmask
  refine eq_of_and_eq (hmask.trans h.symm) ?_
  rw [encode_instr_and_not_mask o (opField w), assembleWord_fields]

/-! ### What a word decodes to (R96) -/

section Decode
variable {o : Opcode} {w : CmdWord}

theorem decode_of_reserved (h : ∀ o : Opcode, opField w ≠ o.code) : decode w = .illegalOpcode := by
  rw [decode, Opcode.ofByte_eq_none.2 h]

theorem decode_of_bad_mask (hop : opField w = o.code) (hmask : w &&& o.mask ≠ o.matchBits) :
    decode w = .illegalOperand 0 := by
  simp only [decode, hop, Opcode.ofByte_code, if_pos hmask]

theorem decode_of_bad_count (hop : opField w = o.code) (hmask : w &&& o.mask = o.matchBits)
    (htakes : o.takesCount = true) (hcount : 32 < (bField w).toNat) :
    decode w = .illegalOperand ((bField w).setWidth 32) := by
  have hbad : countLegal (bField w) = false := by simpa [countLegal] using hcount
  simp [decode, hop, hmask, htakes, hbad]

theorem decode_of_good_fields (hop : opField w = o.code) (hmask : w &&& o.mask = o.matchBits)
    (hcount : o.takesCount = true → (bField w).toNat ≤ 32) :
    decode w = .command (o.instr (aField w) (bField w) (immField w)) := by
  have hgood : (o.takesCount && !countLegal (bField w)) = false := by
    simpa [countLegal] using hcount
  simp [decode, hop, hmask, hgood]

end Decode

/-- The words that decode to a command: its opcode stands in OP, the mask is passed, the count is in range, and the
command's operands are the fields of its format. -/
theorem decode_eq_command {w : CmdWord} {i : Instr} : decode w = .command i ↔
    opField w = i.opcode.code ∧ w &&& i.opcode.mask = i.opcode.matchBits ∧ i.wellFormed = true ∧
      i.opcode.instr (aField w) (bField w) (immField w) = i := by
  constructor
  · intro h
    have hop := Machine.opField_of_decode h
    by_cases hmask : w &&& i.opcode.mask = i.opcode.matchBits
    · by_cases hcount : i.opcode.takesCount = true → (bField w).toNat ≤ 32
      · have hi := Decoded.command.inj ((decode_of_good_fields hop hmask hcount).symm.trans h)
        have hwf := (Opcode.wellFormed_instr _ (aField w) _ (immField w)).2 hcount
        exact ⟨hop, hmask, hi ▸ hwf, hi⟩
      · rw [Classical.not_imp, Nat.not_le] at hcount
        cases (decode_of_bad_count hop hmask hcount.1 hcount.2).symm.trans h
    · cases (decode_of_bad_mask hop hmask).symm.trans h
  · rintro ⟨hop, hmask, hwf, hi⟩
    rw [← hi, Opcode.wellFormed_instr] at hwf
    rw [decode_of_good_fields hop hmask hwf, hi]

/-- Settles O1: the fields of a command's word are those `decode_eq_command` asks for. -/
theorem decodeOfEncode : Obligations.DecodeOfEncode := by
  intro i hwf
  obtain ⟨hop, hmask, hfields⟩ := encode_fields i
  exact decode_eq_command.2 ⟨hop, hmask, hwf, hfields⟩

/-- Settles O2: the word's mask leaves it no bit but those of the command's word. -/
theorem encodeOfDecode : Obligations.EncodeOfDecode := by
  intro w i h
  obtain ⟨-, hmask, hwf, hfields⟩ := decode_eq_command.1 h
  exact ⟨hwf, by rw [← encode_of_mask hmask, hfields]⟩

/-- Settles O3: the reserved bytes are those of no row, and the three conditions are those of R96, in its order. -/
theorem illegalWordsByName : Obligations.IllegalWordsByName := by
  intro w
  refine ⟨Opcode.reserved_iff _, decode_of_reserved, fun o hop => ⟨decode_of_bad_mask hop, decode_of_bad_count hop, ?_⟩⟩
  intro hmask hcount
  exact ⟨_, decode_of_good_fields hop hmask hcount, Opcode.opcode_instr ..⟩

end Sys2Proof
end

section
/-! PROOF. The acceptance of a word, and the step in which the host issues it (30_encoding.md R96, R99, 20_memory.md R71). -/

namespace Sys2Proof.Machine

/-! ### The acceptance of a word (R96) -/

section Accept
variable {s : State} {w : CmdWord}

theorem discarded_of_no_error (w : CmdWord) (h : s.err = false) : discarded s w = false := by
  rw [discarded, h, Bool.false_and]

theorem accept_of_illegalOpcode (hkept : discarded s w = false) (h : decode w = .illegalOpcode) :
    accept w s = .next (s.raise (opField w) .illegalOpcode 0) := by
  simp [accept, hkept, h]

theorem accept_of_illegalOperand {info : Word32} (hkept : discarded s w = false) (h : decode w = .illegalOperand info) :
    accept w s = .next (s.raise (opField w) .illegalOperand info) := by
  simp [accept, hkept, h]

theorem accept_of_command {i : Instr} (hkept : discarded s w = false) (h : decode w = .command i) :
    accept w s = exec i s := by
  simp [accept, hkept, h]

end Accept

/-- Settles O8: error entry writes what R225 says. -/
theorem decodeErrorsRaise : Obligations.DecodeErrorsRaise :=
  fun _ _ hkept => ⟨accept_of_illegalOpcode hkept, fun _ => accept_of_illegalOperand hkept⟩

/-- Settles O4: the words of the five commands are written out and decode by the round trip; the three others decode to
their errors, which a block with `ERR = 0` raises. -/
theorem exampleWordsDecode : Obligations.ExampleWordsDecode := by
  have opcode : decode 0x0500000000000000 = .illegalOpcode := by decide
  have operand : decode 0x1200000000000001 = .illegalOperand 0 := by decide
  have count : decode 0x2300002100000000 = .illegalOperand 33 := by decide
  refine ⟨rfl, rfl, rfl, rfl, rfl, decodeOfEncode (.setw 0x41 5) rfl, decodeOfEncode (.push 3 0b101) rfl,
    decodeOfEncode (.rbits 4) rfl, decodeOfEncode (.dec 11) rfl, decodeOfEncode .build rfl, opcode, operand, count,
    fun s hs => ⟨?_, ?_, ?_⟩⟩
  · exact accept_of_illegalOpcode (discarded_of_no_error _ hs) opcode
  · exact accept_of_illegalOperand (discarded_of_no_error _ hs) operand
  · exact accept_of_illegalOperand (discarded_of_no_error _ hs) count

/-! ### The step of an issued word (R71) -/

theorem enabled_issue_of_idle {s : State} (w : CmdWord) (h : s.engine = .idle) :
    HostAction.enabled s (.issue w) = true := by
  simp [HostAction.enabled, busy_eq_false.2 h]

/-- An idle block's step accepts the word its host issues. -/
theorem step_of_issue {s : State} {w : CmdWord} {rest : List HostAction} (hidle : s.engine = .idle)
    (hscript : s.host.script = .issue w :: rest) : step s = accept w (s.withScript rest) :=
  (step_of_waiting (canAdvance_of_idle hidle)).trans (hostTurn_of_enabled hscript (enabled_issue_of_idle w hidle))

/-- A table row of 64 bits stands for the word itself. -/
@[simp] theorem tableWord_toNat (w : CmdWord) : tableWord 64 w.toNat = w := by
  rw [tableWord, Nat.mod_eq_of_lt w.isLt, BitVec.ofNat_toNat, BitVec.setWidth_eq]

/-- The action that `withFetchWord` puts before the script is taken off it again, and an idle block is left as it was. -/
theorem withScript_withFetchWord {s : State} (nbits w : Nat) (hidle : s.engine = .idle) :
    (s.withFetchWord nbits w).withScript s.host.script = s :=
  endCommand_of_idle hidle

/-- Settles O9: the step accepts the issued word, and `withFetchWord` issues the command's own word, which decodes to the
command. -/
theorem stepRunsDecoded : Obligations.StepRunsDecoded := by
  have issued : ∀ (s : State) w rest i, s.engine = .idle → s.host.script = .issue w :: rest → discarded s w = false →
      decode w = .command i → step s = exec i (s.withScript rest) := by
    intro s w rest i hidle hscript hkept hdecode
    rw [step_of_issue hidle hscript]
    exact accept_of_command hkept hdecode
  refine ⟨issued, fun s i hidle herr hwf => ?_⟩
  have hdecode : decode (tableWord 64 (encode i).toNat) = .command i := by
    rw [tableWord_toNat]
    exact decodeOfEncode i hwf
  have hstep := issued (s.withFetchWord 64 (encode i).toNat) _ s.host.script i rfl rfl
    (discarded_of_no_error _ herr) hdecode
  rwa [withScript_withFetchWord _ _ hidle] at hstep

end Sys2Proof.Machine
end

section
/-! PROOF. NOP and RESET (40_control.md R111, R112), and what a block with `ERR = 1` or `BUSY = 1` answers to a word and to
the host (20_memory.md R71, 30_encoding.md R96, 60_exceptions.md R224). -/

namespace Sys2Proof.Machine

/-! ### Words with bad fields, and words while `ERR = 1` (R95, R96, R224) -/

section Words
variable {s : State} {w : CmdWord}

/-- A RESET word is never discarded, whatever its fields. -/
theorem discarded_of_reset_opcode (s : State) (h : opField w = Opcode.reset.code) : discarded s w = false := by
  simp [discarded, h]

theorem accept_of_error (herr : s.err = true) (h : opField w ≠ Opcode.reset.code) : accept w s = .next s :=
  if_pos (by simp [discarded, herr, h])

/-- The word of a command with an encoding is executed when it is not discarded. -/
theorem accept_encode {i : Instr} (hwf : i.wellFormed = true) (hkept : discarded s (encode i) = false) :
    accept (encode i) s = exec i s :=
  accept_of_command hkept (decodeOfEncode i hwf)

end Words

/-- A word whose must-be-zero fields are not all zero raises, for every opcode. -/
theorem badFieldsRaise (o : Opcode) : BadFieldsRaise o := by
  intro s w hkept hop hmask
  have hdisc : discarded s w = false := by
    rcases hkept with herr | rfl
    · exact discarded_of_no_error w herr
    · exact discarded_of_reset_opcode s hop
  rw [accept_of_illegalOperand hdisc (decode_of_bad_mask hop hmask), hop]

/-! ### NOP (R111) -/

theorem exec_nop_of_idle {s : State} (h : s.engine = .idle) : exec .nop s = .next s :=
  congrArg Host.Outcome.next (endCommand_of_idle h)

/-- Settles O24: the command of an idle block only ends, and with `ERR = 1` its word is discarded. -/
theorem nopDoesNothing : Obligations.NopDoesNothing := by
  refine ⟨rfl, fun s hidle => ⟨exec_nop_of_idle hidle, ?_⟩, badFieldsRaise .nop⟩
  cases herr : s.err with
  | false => exact (accept_encode rfl (discarded_of_no_error _ herr)).trans (exec_nop_of_idle hidle)
  | true => exact accept_of_error herr (by decide)

/-! ### RESET (R112) -/

theorem exec_reset (s : State) : exec .reset s = .next s.resetInternal := rfl

/-- The reset state's one flag is the `IN_EOS` it keeps (R41, R112). -/
theorem statusWord_resetInternal (s : State) : statusWord s.resetInternal = if s.ineos then 0x20 else 0x00 := by
  have flags : ∀ e : Bool, (flagBit false 0 ||| flagBit false 1 ||| flagBit false 2 ||| flagBit false 3 |||
      flagBit false 4 ||| flagBit e 5) = if e then 0x20 else 0x00 := by decide
  exact flags s.ineos

/-! ### The host's actions on a held command (R71) -/

theorem enabled_issue_of_busy {s : State} (w : CmdWord) (h : s.busy = true) :
    HostAction.enabled s (.issue w) = false := by
  simp [HostAction.enabled, h]

/-- Of the actions the host has on a busy block, all but power-on reset leave the running command where it is. -/
theorem perform_keeps_engine {s t : State} {a : HostAction} (hbusy : s.busy = true) (hen : a.enabled s = true)
    (hp : a.perform s = .next t) (hne : a ≠ .powerOnReset) : t.engine = s.engine := by
  cases a with
  | issue w =>
    rw [enabled_issue_of_busy w hbusy] at hen
    cases hen
  | feed b | endInput | reopen | read addr => cases hp; rfl
  | drain =>
    cases hp
    rw [drainOne_frame]
  | powerOnReset => exact absurd rfl hne

/-- Settles O6: a RESET word passes the `ERR` test, its command leaves the reset state with the queues kept, and a running
command outlives every action of the host but power-on reset. -/
theorem resetCommand : Obligations.ResetCommand := by
  refine ⟨rfl, fun _ => rfl, fun s => ?_, badFieldsRaise .reset, fun _ _ => accept_of_error,
    fun _ => enabled_issue_of_busy, fun s t a hbusy hen hp hidle => ?_, fun _ => ⟨rfl, rfl, rfl⟩, fun s t h => ?_⟩
  · exact accept_encode rfl (discarded_of_reset_opcode s (encode_fields .reset).1)
  · by_contra hne
    have hsame : t.busy = s.busy := by rw [State.busy, perform_keeps_engine hbusy hen hp hne, State.busy]
    rw [hsame, hbusy] at hidle
    cases hidle
  · rw [exec_reset] at h
    cases h
    exact ⟨rfl, rfl, rfl, rfl, freqOf_resetInternal s, statusWord_resetInternal s⟩

end Sys2Proof.Machine
end

section
/-! PROOF. CLRW and SETW, BUILD without a weight (41_tree_builder.md R121 to R123), and that no step faults: ASSIGN is the
only command that can, and its walk ends on a tree (42_code_assigner.md R143). -/

namespace Sys2Proof.Machine

/-! ### CLRW and SETW (R121, R122) -/

/-- The weights are determined by the symbols' weights. -/
theorem freq_eq_of_freqOf {s t : State} (h : ∀ sym, s.freqOf sym = t.freqOf sym) : s.freq = t.freq := by
  refine Vector.ext fun i hi => ?_
  have hsym := h (BitVec.ofNat 8 i)
  simpa only [State.freqOf, BitVec.toNat_ofNat, Nat.mod_eq_of_lt (show i < 2 ^ 8 from hi)] using hsym

theorem freqOf_cleared (s : State) (sym : Sym) :
    State.freqOf { s with freq := Vector.replicate 256 0 } sym = 0 := by
  rw [State.freqOf, Vector.getElem_replicate]

theorem exec_clrw_of_idle {s : State} (h : s.engine = .idle) :
    exec .clrw s = .next { s with freq := Vector.replicate 256 0 } :=
  congrArg Host.Outcome.next (endCommand_of_idle h)

theorem exec_setw_of_idle {s : State} (sym : Sym) (w : Word32) (h : s.engine = .idle) :
    exec (.setw sym w) s = .next (s.setFreq sym w) :=
  congrArg Host.Outcome.next (endCommand_of_idle h)

/-- The last weight written to a symbol is the one it has (R122). -/
theorem setFreq_setFreq (s : State) (sym : Sym) (w w' : Word32) :
    (s.setFreq sym w).setFreq sym w' = s.setFreq sym w' := by
  simp only [State.setFreq, Vector.set_set]

/-- Settles O25: CLRW writes the vector of zeros, which is the old one when every weight is 0. -/
theorem clrwClears : Obligations.ClrwClears := by
  refine ⟨rfl, fun s hidle => ⟨_, exec_clrw_of_idle hidle, freqOf_cleared s, rfl⟩, fun s hidle h0 => ?_,
    badFieldsRaise .clrw⟩
  have hfreq : Vector.replicate 256 0 = s.freq :=
    freq_eq_of_freqOf (s := { s with freq := Vector.replicate 256 0 }) fun sym =>
      (freqOf_cleared s sym).trans (h0 sym).symm
  rw [exec_clrw_of_idle hidle, hfreq]

/-- Settles O26: SETW writes one entry of `FREQ`, and the second of two writes to an entry is the one that stays. -/
theorem setwSets : Obligations.SetwSets := by
  refine ⟨fun s sym w hidle => ⟨_, exec_setw_of_idle sym w hidle, ?_, fun other hne => ?_, rfl⟩,
    fun s sym w w' hidle => ?_, decodeOfEncode (.setw 0x41 5) rfl, rfl, rfl, badFieldsRaise .setw⟩
  · rw [State.freqOf_setFreq, if_pos rfl]
  · rw [State.freqOf_setFreq, if_neg hne.symm]
  · have hidle' : (s.setFreq sym w).engine = .idle := hidle
    simp only [execAll, exec_setw_of_idle _ _ hidle, exec_setw_of_idle _ _ hidle', setFreq_setFreq]

/-! ### BUILD without a weight (R123) -/

theorem occurring_eq_nil {s : State} : occurring s = [] ↔ ∀ sym, s.freqOf sym = 0 := by
  simp [occurring, List.filter_eq_nil_iff]

theorem occurring_ne_nil {s : State} : occurring s ≠ [] ↔ ∃ sym, s.freqOf sym ≠ 0 := by
  simp [occurring_eq_nil]

/-- Settles O27: with no symbol that occurs the first loop writes no record. -/
theorem buildEmptyInput : Obligations.BuildEmptyInput :=
  fun _ _ h0 => execBuild_of_none (occurring_eq_nil.2 h0)

/-! ### No step faults (R125(b), R143) -/

/-- ASSIGN is the only command that can fault (log 7). -/
theorem eq_assign_of_fault {i : Instr} {s : State} {f : Fault} (h : exec i s = .fault f) : i = .assign := by
  cases i with
  | assign => rfl
  | nop | reset | clrw | setw sym w | ralign | fin => cases h
  | build =>
    simp only [exec, execBuild] at h
    split at h <;> cases h
  | wtab | enc | dec limit =>
    simp only [exec, execWtab, execEnc, execDec] at h
    split at h <;> cases h
  | push n v | rbits n =>
    simp only [exec, execPush, execRbits] at h
    split at h <;> cases h
  | rpre =>
    simp only [exec, execRpre] at h
    split at h <;> cases h
  | wpre | rtab =>
    simp only [exec, execWpre, execRtab] at h
    split at h <;> [skip; split at h] <;> cases h

/-- On a tree, or with none, ASSIGN's walk ends. -/
theorem execAssign_ne_fault {s : State} (h : TreeOk s) (f : Fault) : execAssign s ≠ .fault f := by
  intro hf
  cases hv : s.treeValid with
  | false =>
    rw [execAssign, if_pos (by simp [Precondition.holds, hv])] at hf
    cases hf
  | true =>
    obtain ⟨tree, hspells, hnd, -⟩ := h hv
    rw [execAssign_of_spells hv hspells hnd] at hf
    cases hf

theorem exec_ne_fault {s : State} (h : TreeOk s) (i : Instr) (f : Fault) : exec i s ≠ .fault f := by
  intro hf
  cases eq_assign_of_fault hf
  exact execAssign_ne_fault h f hf

theorem accept_ne_fault {s : State} (h : TreeOk s) (w : CmdWord) (f : Fault) : accept w s ≠ .fault f := by
  intro hf
  unfold accept at hf
  split at hf
  · cases hf
  · split at hf
    · cases hf
    · cases hf
    · next i _ => exact exec_ne_fault h i f hf

theorem perform_ne_fault {s : State} (h : TreeOk s) (a : HostAction) (f : Fault) : a.perform s ≠ .fault f := by
  intro hf
  cases a with
  | issue w => exact accept_ne_fault h w f hf
  | feed b | endInput | reopen | drain | read addr | powerOnReset => cases hf

theorem hostTurn_ne_fault {s : State} (h : TreeOk s) (f : Fault) : hostTurn s ≠ .fault f := by
  intro hf
  unfold hostTurn at hf
  split at hf
  · cases hf
  · next a rest _ =>
    split at hf
    · exact perform_ne_fault (s := s.withScript rest) h a f hf
    · cases hf

/-- Settles O60: only an issued ASSIGN could fault, and the invariant has a tree in the arena when `TREE_VALID = 1`. -/
theorem stepNeverFaults : Obligations.StepNeverFaults := by
  intro s f h hf
  unfold step at hf
  split at hf
  · cases hf
  · exact hostTurn_ne_fault h.tree f hf

end Sys2Proof.Machine
end

section
/-! PROOF. `PopMin` takes the least key, and a merge is a fact about the arena (41_tree_builder.md R123, R124): which nodes
wait in the queue can be read off the arena itself, as those that no internal node made so far has as a child. -/

namespace Sys2Proof.Machine

/-! ### `PopMin` takes the least key (R124) -/

/-- The weight of an arena entry, as a number. -/
abbrev weightAt (node : Vector Node 511) (i : Nat) : Nat := (nodeAt node i).weight.toNat

section Keys
variable {node : Vector Node 511} {i j k : Nat}

theorem lighter_iff : lighter node i j = true ↔ keyBefore node i j := by
  simp [lighter, keyBefore, BitVec.lt_def, BitVec.toNat_inj]

theorem keyBefore.trans (h : keyBefore node i j) (h' : keyBefore node j k) : keyBefore node i k := by
  unfold keyBefore at *
  omega

theorem keyBefore.asymm (h : keyBefore node i j) : ¬ keyBefore node j i := by
  unfold keyBefore at *
  omega

theorem keyBefore_trichotomy : keyBefore node i j ∨ i = j ∨ keyBefore node j i := by
  unfold keyBefore
  omega

theorem keyBefore.weight_le (h : keyBefore node i j) : weightAt node i ≤ weightAt node j := by
  rcases h with hlt | ⟨heq, -⟩
  · exact hlt.le
  · exact heq.le

end Keys

theorem leastKey_least (node : Vector Node 511) : ∀ (l : List Nat) (m j : Nat), j ∈ m :: l →
    j = leastKey node m l ∨ keyBefore node (leastKey node m l) j := by
  intro l
  induction l with
  | nil => exact fun m j hj => .inl (List.mem_singleton.1 hj)
  | cons i l ih =>
    intro m j hj
    rw [leastKey]
    rw [List.mem_cons, List.mem_cons] at hj
    -- `ih` speaks of the lighter of `m` and `i`, and of the rest; the heavier of the two comes after the lighter
    split
    · next him =>
      rw [lighter_iff] at him
      rcases hj with rfl | hj
      · rcases ih i i List.mem_cons_self with hi | hi
        · exact .inr (hi ▸ him)
        · exact .inr (hi.trans him)
      · exact ih i j (List.mem_cons.2 hj)
    · next him =>
      rw [lighter_iff] at him
      rcases hj with rfl | rfl | hj
      · exact ih j j List.mem_cons_self
      · rcases keyBefore_trichotomy.resolve_left him with rfl | hmj
        · exact ih j j List.mem_cons_self
        · rcases ih m m List.mem_cons_self with hm | hm
          · exact .inr (hm ▸ hmj)
          · exact .inr (hm.trans hmj)
      · exact ih m j (List.mem_cons_of_mem m hj)

/-- The member `PopMin` takes comes before all it leaves. -/
theorem popMin_least {node : Vector Node 511} {pq rest : List Nat} {m : Nat} (hnd : pq.Nodup)
    (h : popMin node pq = some (m, rest)) : ∀ j ∈ rest, keyBefore node m j := by
  cases pq with
  | nil => cases h
  | cons i l =>
    simp only [popMin, Option.some.injEq, Prod.mk.injEq] at h
    obtain ⟨rfl, rfl⟩ := h
    intro j hj
    obtain ⟨hne, hmem⟩ := hnd.mem_erase_iff.1 hj
    exact (leastKey_least node l i j hmem).resolve_left hne

/-- Settles O28: the member taken is one of the queue, and no other member has a smaller key. -/
theorem popMinTakesLeast : Obligations.PopMinTakesLeast := by
  intro node pq hne hnd
  cases h : popMin node pq with
  | none => exact absurd (popMin_eq_none.1 h) hne
  | some x => exact ⟨x.1, x.2, rfl, popMin_perm h, popMin_least hnd h⟩

/-! ### Merges as facts about the arena (R123) -/

/-- With the leaves below index `n` and the internal nodes up to `k` made, index `j` is in the queue: it is no child of
one of them. -/
def Waiting (node : Vector Node 511) (n k j : Nat) : Prop :=
  j < k ∧ ∀ i, n ≤ i → i < k → ¬ isChild node i j

/-- Entry `i` joins the two members of the queue with the least keys, LEFT the first of them (R123, R124). -/
structure MergedAt (node : Vector Node 511) (n i : Nat) : Prop where
  kind : (nodeAt node i).kind = .internal
  sym : (nodeAt node i).sym = 0
  left : Waiting node n i (nodeAt node i).left.toNat
  right : Waiting node n i (nodeAt node i).right.toNat
  ne : (nodeAt node i).left.toNat ≠ (nodeAt node i).right.toNat
  weight : weightAt node i = weightAt node (nodeAt node i).left.toNat + weightAt node (nodeAt node i).right.toNat
  least : ∀ j, Waiting node n i j → j ≠ (nodeAt node i).left.toNat →
    keyBefore node (nodeAt node i).left.toNat j ∧
      (j ≠ (nodeAt node i).right.toNat → keyBefore node (nodeAt node i).right.toNat j)

/-- While the only entries are leaves, all of them are in the queue. -/
theorem waiting_leaves {node : Vector Node 511} {n j : Nat} : Waiting node n n j ↔ j < n :=
  ⟨fun h => h.1, fun h => ⟨h, fun _ hle hlt => absurd hle (Nat.not_le.2 hlt)⟩⟩

section Merged
variable {node : Vector Node 511} {n i j : Nat}

theorem MergedAt.child_lt (h : MergedAt node n i) (hc : isChild node i j) : j < i := by
  rcases hc.2 with rfl | rfl
  · exact h.left.1
  · exact h.right.1

theorem MergedAt.isChild_iff (h : MergedAt node n i) :
    isChild node i j ↔ j = (nodeAt node i).left.toNat ∨ j = (nodeAt node i).right.toNat := by
  simp only [isChild, h.kind, true_and, eq_comm]

/-- A child of a merge was in the queue until then. -/
theorem MergedAt.waiting_of_isChild (h : MergedAt node n i) (hc : isChild node i j) : Waiting node n i j := by
  rcases h.isChild_iff.1 hc with rfl | rfl
  · exact h.left
  · exact h.right

theorem MergedAt.left_le_right (h : MergedAt node n i) :
    weightAt node (nodeAt node i).left.toNat ≤ weightAt node (nodeAt node i).right.toNat :=
  (h.least _ h.right h.ne.symm).1.weight_le

theorem MergedAt.right_le (h : MergedAt node n i) : weightAt node (nodeAt node i).right.toNat ≤ weightAt node i := by
  rw [h.weight]
  exact Nat.le_add_left ..

end Merged

/-- A merge takes its two children out of the queue and puts the new node in. -/
theorem waiting_succ {node : Vector Node 511} {n i j : Nat} (hm : ∀ i', n ≤ i' → i' < i + 1 → MergedAt node n i')
    (hi : n ≤ i) : Waiting node n (i + 1) j ↔ j = i ∨
      (Waiting node n i j ∧ j ≠ (nodeAt node i).left.toNat ∧ j ≠ (nodeAt node i).right.toNat) := by
  have hmi := hm i hi (Nat.lt_succ_self i)
  constructor
  · intro ⟨hj, hc⟩
    rcases Nat.lt_succ_iff_lt_or_eq.1 hj with hlt | rfl
    · have hnot := hc i hi (Nat.lt_succ_self i)
      rw [hmi.isChild_iff, not_or] at hnot
      exact .inr ⟨⟨hlt, fun i' hle hi' => hc i' hle (Nat.lt_succ_of_lt hi')⟩, hnot⟩
    · exact .inl rfl
  · rintro (rfl | ⟨⟨hj, hc⟩, hnot⟩)
    · refine ⟨Nat.lt_succ_self j, fun i' hle hi' hchild => ?_⟩
      have := (hm i' hle hi').child_lt hchild
      omega
    · refine ⟨Nat.lt_succ_of_lt hj, fun i' hle hi' => ?_⟩
      rcases Nat.lt_succ_iff_lt_or_eq.1 hi' with hlt | rfl
      · exact hc i' hle hlt
      · rwa [hmi.isChild_iff, not_or]

/-! ### Entries above do not matter -/

section Congr
variable {node node' : Vector Node 511} {n k i j : Nat} (hn : ∀ j < k, nodeAt node' j = nodeAt node j)
include hn

theorem weightAt_congr (hi : i < k) : weightAt node' i = weightAt node i := by
  rw [weightAt, hn i hi]

theorem keyBefore_congr (hi : i < k) (hj : j < k) : keyBefore node' i j ↔ keyBefore node i j := by
  rw [keyBefore, keyBefore, hn i hi, hn j hj]

theorem waiting_congr (hk : i ≤ k) : Waiting node' n i j ↔ Waiting node n i j := by
  have hchild : ∀ i' < i, (isChild node' i' j ↔ isChild node i' j) := fun i' hi' => by
    rw [isChild, isChild, hn i' (hi'.trans_le hk)]
  refine and_congr_right fun _ => forall_congr' fun i' => imp_congr_right fun _ => ?_
  exact ⟨fun h hi' hc => h hi' ((hchild i' hi').2 hc), fun h hi' hc => h hi' ((hchild i' hi').1 hc)⟩

theorem MergedAt.congr (h : MergedAt node n i) (hi : i < k) : MergedAt node' n i := by
  have hleft := h.left.1.trans hi
  have hright := h.right.1.trans hi
  obtain ⟨hkind, hsym, hl, hr, hne, hweight, hleast⟩ := h
  refine ⟨?_, ?_, ?_, ?_, ?_, ?_, ?_⟩ <;> simp only [weightAt, hn i hi, hn _ hleft, hn _ hright]
  · exact hkind
  · exact hsym
  · exact (waiting_congr hn hi.le).2 hl
  · exact (waiting_congr hn hi.le).2 hr
  · exact hne
  · exact hweight
  · intro j hj
    rw [keyBefore_congr hn hleft (hj.1.trans hi), keyBefore_congr hn hright (hj.1.trans hi)]
    exact hleast j ((waiting_congr hn hi.le).1 hj)

end Congr

theorem Node.eq_of_fields {x y : Node} (hkind : x.kind = y.kind) (hsym : x.sym = y.sym) (hweight : x.weight = y.weight)
    (hleft : x.left = y.left) (hright : x.right = y.right) : x = y := by
  cases x
  cases y
  simp only [Node.mk.injEq]
  exact ⟨hkind, hsym, hweight, hleft, hright⟩

/-- The entries below a merge determine its record (R125(e)): no two members of the queue have the same key. -/
theorem MergedAt.record_eq {node node' : Vector Node 511} {n i : Nat} (hn : ∀ j < i, nodeAt node' j = nodeAt node j)
    (h : MergedAt node n i) (h' : MergedAt node' n i) : nodeAt node' i = nodeAt node i := by
  have hwait : ∀ j, Waiting node' n i j ↔ Waiting node n i j := fun j => waiting_congr hn le_rfl
  have hleft : (nodeAt node' i).left.toNat = (nodeAt node i).left.toNat := by
    by_contra hne
    have hbefore := (h.least _ ((hwait _).1 h'.left) hne).1
    have hbefore' := (h'.least _ ((hwait _).2 h.left) (Ne.symm hne)).1
    rw [keyBefore_congr hn h'.left.1 h.left.1] at hbefore'
    exact hbefore.asymm hbefore'
  have hright : (nodeAt node' i).right.toNat = (nodeAt node i).right.toNat := by
    by_contra hne
    have hbefore := (h.least _ ((hwait _).1 h'.right) (hleft ▸ h'.ne.symm)).2 hne
    have hbefore' := (h'.least _ ((hwait _).2 h.right) (hleft ▸ h.ne.symm)).2 (Ne.symm hne)
    rw [keyBefore_congr hn h'.right.1 h.right.1] at hbefore'
    exact hbefore.asymm hbefore'
  have hweight : weightAt node' i = weightAt node i := by
    rw [h'.weight, h.weight, hleft, hright, weightAt_congr hn h.left.1, weightAt_congr hn h.right.1]
  exact Node.eq_of_fields (h'.kind.trans h.kind.symm) (h'.sym.trans h.sym.symm) (BitVec.eq_of_toNat_eq hweight)
    (BitVec.eq_of_toNat_eq hleft) (BitVec.eq_of_toNat_eq hright)

/-! ### The order of the merges (R125(d)) -/

/-- The nodes still in the queue are no lighter than RIGHT of every merge before: what is left then is no lighter, and a
node made later is no lighter than what it joins. -/
theorem right_le_of_waiting {node : Vector Node 511} {n : Nat} : ∀ k, (∀ i, n ≤ i → i < k → MergedAt node n i) →
    ∀ i, n ≤ i → i < k → ∀ j, Waiting node n k j → weightAt node (nodeAt node i).right.toNat ≤ weightAt node j := by
  intro k
  induction k with
  | zero => exact fun _ i _ hi => absurd hi (Nat.not_lt_zero i)
  | succ k ih =>
    intro hm i hle hi j hj
    have hk : n ≤ k := by omega
    have hmk := hm k hk (Nat.lt_succ_self k)
    have ih := ih (fun i' hle' hi' => hm i' hle' (Nat.lt_succ_of_lt hi')) i hle
    rcases Nat.lt_succ_iff_lt_or_eq.1 hi with hlt | rfl
    · rcases (waiting_succ hm hk).1 hj with rfl | ⟨hj, -⟩
      · exact (ih hlt _ hmk.right).trans hmk.right_le
      · exact ih hlt j hj
    · rcases (waiting_succ hm hk).1 hj with rfl | ⟨hj, hleft, hright⟩
      · exact hmk.right_le
      · exact ((hmk.least j hj hleft).2 hright).weight_le

end Sys2Proof.Machine
end

section
/-! PROOF. What BUILD lays out in the arena (41_tree_builder.md R123 to R125): the merge loop keeps that every internal node
it has made is a merge of the two least nodes then in the queue, and the statements about BUILD follow from that. -/

namespace Sys2Proof.Machine

/-! ### The layout and the merge loop's invariant (R123) -/

/-- The records of the leaves, in ascending symbol order (R123). -/
def leafRecords (s : State) : List Node := (occurring s).map fun sym => leafNode sym (s.freqOf sym)

/-- The arena below `k` holds the leaves and then merges, and above `k` what it held before (R123). -/
structure LaidOut (s : State) (node : Vector Node 511) (k : Nat) : Prop where
  leaves : ∀ j (h : j < (occurring s).length), nodeAt node j = leafNode (occurring s)[j] (s.freqOf (occurring s)[j])
  merged : ∀ i, (occurring s).length ≤ i → i < k → MergedAt node (occurring s).length i
  unused : ∀ i, k ≤ i → nodeAt node i = nodeAt s.node i

/-- The sum of all weights (R125(c)). -/
def totalWeight (s : State) : Nat := (allSyms.map fun sym => (s.freqOf sym).toNat).sum

/-- What every turn of the merge loop keeps: the layout, the queue as the arena shows it, and the sum of the weights in
the queue (R123, R125(c)). -/
structure BuildInv (s : State) (a : Arena) : Prop where
  ok : ArenaOk (occurring s) a
  reached : (occurring s).length ≤ a.next
  laid : LaidOut s a.node a.next
  nodup : a.pq.Nodup
  queue : ∀ j, j ∈ a.pq ↔ Waiting a.node (occurring s).length a.next j
  total : (a.pq.map (weightAt a.node)).sum = totalWeight s

/-- 256 weights of 32 bits stay below the 40 bits of a node weight (R125(c)). -/
theorem totalWeight_lt (s : State) : totalWeight s < 2 ^ 40 := by
  have hle : totalWeight s ≤ (allSyms.map fun sym => (s.freqOf sym).toNat).length • (2 ^ 32 - 1) := by
    refine List.sum_le_card_nsmul _ _ fun x hx => ?_
    obtain ⟨sym, -, rfl⟩ := List.mem_map.1 hx
    have := (s.freqOf sym).isLt
    omega
  rw [List.length_map, allSyms_length, smul_eq_mul] at hle
  omega

/-- Only the symbols that occur weigh something. -/
theorem sum_occurring (s : State) : ((occurring s).map fun sym => (s.freqOf sym).toNat).sum = totalWeight s := by
  have hfilter : ∀ syms : List Sym,
      ((syms.filter fun sym => s.freqOf sym ≠ 0).map fun sym => (s.freqOf sym).toNat).sum =
        (syms.map fun sym => (s.freqOf sym).toNat).sum := by
    intro syms
    induction syms with
    | nil => rfl
    | cons sym syms ih =>
      by_cases h0 : s.freqOf sym = 0
      · rw [List.filter_cons_of_neg (by simpa using h0), ih]
        simp [h0]
      · rw [List.filter_cons_of_pos (by simpa using h0), List.map_cons, List.map_cons, List.sum_cons, List.sum_cons, ih]
  exact hfilter allSyms

@[simp] theorem weight_leafNode (sym : Sym) (w : Word32) : (leafNode sym w).weight.toNat = w.toNat := by
  have := w.isLt
  simp only [leafNode, BitVec.toNat_setWidth]
  omega

/-! ### The leaves (R123) -/

/-- Records appended to the empty arena stand at the indices from 0, and all of them are in the queue. -/
theorem foldl_add (node : Vector Node 511) (ns : List Node) (h : ns.length ≤ 511) :
    let a := ns.foldl Arena.add { node := node, next := 0, pq := [] }
    a.next = ns.length ∧ a.pq = List.range ns.length ∧ ∀ j, nodeAt a.node j = (ns[j]?).getD (nodeAt node j) := by
  induction ns using List.reverseRecOn with
  | nil => exact ⟨rfl, rfl, fun _ => rfl⟩
  | append_singleton ns n ih =>
    rw [List.length_append, List.length_singleton] at h ⊢
    obtain ⟨hnext, hpq, hnode⟩ := ih (by omega)
    rw [List.foldl_append, List.foldl_cons, List.foldl_nil]
    refine ⟨congrArg (· + 1) hnext, ?_, fun j => ?_⟩
    · rw [Arena.add, hpq, hnext, List.range_succ]
    · rw [nodeAt_add (by omega), hnext, hnode]
      rcases Nat.lt_trichotomy j ns.length with hlt | rfl | hgt
      · rw [if_neg hlt.ne', List.getElem?_append_left hlt]
      · simp
      · rw [if_neg hgt.ne, List.getElem?_eq_none hgt.le, List.getElem?_eq_none (by simpa using hgt)]

/-- The first loop appends the leaf records. -/
theorem leafArena_eq (s : State) :
    leafArena s = (leafRecords s).foldl Arena.add { node := s.node, next := 0, pq := [] } := by
  rw [leafRecords, List.foldl_map, occurring, List.foldl_filter, leafArena]
  congr 1
  funext a sym
  by_cases h0 : s.freqOf sym = 0 <;> simp [addLeaf, h0]

theorem buildInv_leafArena (s : State) : BuildInv s (leafArena s) := by
  obtain ⟨hok, hnext⟩ := leafArena_ok s
  have hle := occurring_length_le s
  have hlen : (leafRecords s).length = (occurring s).length := List.length_map _
  obtain ⟨-, hpq, hnode⟩ := foldl_add s.node (leafRecords s) (by omega)
  rw [← leafArena_eq, hlen] at hpq
  rw [← leafArena_eq] at hnode
  have hleaves : ∀ j (h : j < (occurring s).length),
      nodeAt (leafArena s).node j = leafNode (occurring s)[j] (s.freqOf (occurring s)[j]) := by
    intro j h
    simp [hnode, leafRecords, h]
  refine ⟨hok, hnext.ge, ⟨hleaves, fun i hle hi => ?_, fun i hi => ?_⟩, ?_, fun j => ?_, ?_⟩
  · omega
  · rw [hnode, List.getElem?_eq_none (by omega), Option.getD_none]
  · rw [hpq]
    exact List.nodup_range
  · rw [hpq, hnext, waiting_leaves, List.mem_range]
  · rw [← sum_occurring, hpq]
    congr 1
    refine List.ext_getElem (by simp) fun j hj _ => ?_
    have hj : j < (occurring s).length := by simpa using hj
    simp [weightAt, hleaves j hj]

/-! ### A turn of the merge loop (R123) -/

theorem joinNode_left (node : Vector Node 511) {l r : Nat} (h : l < 511) : (joinNode node l r).left.toNat = l :=
  Nat.mod_eq_of_lt (by omega)

theorem joinNode_right (node : Vector Node 511) {l r : Nat} (h : r < 511) : (joinNode node l r).right.toNat = r :=
  Nat.mod_eq_of_lt (by omega)

/-- The two members a turn takes out of the queue are the two with the least keys. -/
theorem mergeStep_least {a b : Arena} (hnd : a.pq.Nodup) (hs : mergeStep a = some b) : ∃ l r q,
    a.pq.Perm (l :: r :: q) ∧ b = { a with pq := q }.add (joinNode a.node l r) ∧
      ∀ j ∈ a.pq, j ≠ l → keyBefore a.node l j ∧ (j ≠ r → keyBefore a.node r j) := by
  obtain ⟨l, p, r, q, hl, hr, rfl⟩ := mergeStep_eq_some.1 hs
  have hpl := popMin_perm hl
  have hpr := popMin_perm hr
  have hndp : p.Nodup := (hpl.nodup_iff.1 hnd).of_cons
  refine ⟨l, r, q, hpl.trans (hpr.cons l), rfl, fun j hj hjl => ?_⟩
  have hjp : j ∈ p := (List.mem_cons.1 (hpl.mem_iff.1 hj)).resolve_left hjl
  refine ⟨popMin_least hnd hl j hjp, fun hjr => ?_⟩
  exact popMin_least hndp hr j ((List.mem_cons.1 (hpr.mem_iff.1 hjp)).resolve_left hjr)

/-- The record made from the two least members of the queue is a merge. -/
theorem mergedAt_add {a : Arena} {n l r : Nat} (room : a.next < 511) (hl : Waiting a.node n a.next l)
    (hr : Waiting a.node n a.next r) (hne : l ≠ r) (hw : weightAt a.node l + weightAt a.node r < 2 ^ 40)
    (hleast : ∀ j, Waiting a.node n a.next j → j ≠ l → keyBefore a.node l j ∧ (j ≠ r → keyBefore a.node r j)) :
    MergedAt (a.add (joinNode a.node l r)).node n a.next := by
  have hlt := hl.1
  have hrt := hr.1
  have hbelow : ∀ j < a.next, nodeAt (a.add (joinNode a.node l r)).node j = nodeAt a.node j :=
    fun j => nodeAt_add_of_lt room
  refine ⟨?_, ?_, ?_, ?_, ?_, ?_, ?_⟩ <;>
    simp only [weightAt, nodeAt_add_next room, joinNode_left a.node (hlt.trans room),
      joinNode_right a.node (hrt.trans room)]
  · rfl
  · rfl
  · exact (waiting_congr hbelow le_rfl).2 hl
  · exact (waiting_congr hbelow le_rfl).2 hr
  · exact hne
  · rw [hbelow l hlt, hbelow r hrt, joinNode, BitVec.toNat_add, Nat.mod_eq_of_lt hw]
  · intro j hj
    rw [keyBefore_congr hbelow hlt hj.1, keyBefore_congr hbelow hrt hj.1]
    exact hleast j ((waiting_congr hbelow le_rfl).1 hj)

/-- Appending a merge keeps the layout. -/
theorem laidOut_add {s : State} {a : Arena} {n : Node} (room : a.next < 511) (hreached : (occurring s).length ≤ a.next)
    (h : LaidOut s a.node a.next) (hm : MergedAt (a.add n).node (occurring s).length a.next) :
    LaidOut s (a.add n).node (a.next + 1) := by
  have hbelow : ∀ j < a.next, nodeAt (a.add n).node j = nodeAt a.node j := fun j => nodeAt_add_of_lt room
  refine ⟨fun j hj => ?_, fun i hle hi => ?_, fun i hi => ?_⟩
  · rw [hbelow j (hj.trans_le hreached), h.leaves j hj]
  · rcases Nat.lt_succ_iff_lt_or_eq.1 hi with hlt | rfl
    · exact (h.merged i hle hlt).congr hbelow hlt
    · exact hm
  · rw [nodeAt_add room, if_neg (by omega), h.unused i (by omega)]

/-- What is left of a queue when two members are taken out. -/
theorem mem_of_perm_cons_cons {pq q : List Nat} {l r j : Nat} (hnd : (l :: r :: q).Nodup)
    (hp : pq.Perm (l :: r :: q)) : j ∈ q ↔ j ∈ pq ∧ j ≠ l ∧ j ≠ r := by
  rw [List.nodup_cons, List.nodup_cons, List.mem_cons, not_or] at hnd
  obtain ⟨⟨-, hl⟩, hr, -⟩ := hnd
  rw [hp.mem_iff, List.mem_cons, List.mem_cons]
  constructor
  · exact fun hj => ⟨.inr (.inr hj), ne_of_mem_of_not_mem hj hl, ne_of_mem_of_not_mem hj hr⟩
  · exact fun ⟨hj, hne, hne'⟩ => (hj.resolve_left hne).resolve_left hne'

theorem buildInv_mergeStep {s : State} {a b : Arena} (h : BuildInv s a) (hs : mergeStep a = some b) :
    BuildInv s b := by
  have hok := arenaOk_mergeStep h.ok (occurring_length_le s) hs
  obtain ⟨l, r, q, hp, rfl, hleast⟩ := mergeStep_least h.nodup hs
  have hnd : (l :: r :: q).Nodup := hp.nodup_iff.1 h.nodup
  have hq : ∀ j, j ∈ q ↔ Waiting a.node (occurring s).length a.next j ∧ j ≠ l ∧ j ≠ r := fun j => by
    rw [mem_of_perm_cons_cons hnd hp, h.queue]
  have hwl : Waiting a.node (occurring s).length a.next l := (h.queue l).1 (hp.mem_iff.2 (by simp))
  have hwr : Waiting a.node (occurring s).length a.next r := (h.queue r).1 (hp.mem_iff.2 (by simp))
  have hne : l ≠ r := fun hlr => (List.nodup_cons.1 hnd).1 (hlr ▸ List.mem_cons_self)
  have hsum : weightAt a.node l + (weightAt a.node r + (q.map (weightAt a.node)).sum) = totalWeight s := by
    rw [← h.total, (hp.map _).sum_eq, List.map_cons, List.map_cons, List.sum_cons, List.sum_cons]
  have room : a.next < 511 := by
    have hcount := h.ok.count
    have hle := occurring_length_le s
    rw [hp.length_eq, List.length_cons, List.length_cons] at hcount
    omega
  have hmerged : MergedAt (a.add (joinNode a.node l r)).node (occurring s).length a.next := by
    refine mergedAt_add room hwl hwr hne ?_ fun j hj => hleast j ((h.queue j).2 hj)
    have := totalWeight_lt s
    omega
  have hlaid := laidOut_add room h.reached h.laid hmerged
  have hbelow : ∀ j < a.next, nodeAt (a.add (joinNode a.node l r)).node j = nodeAt a.node j :=
    fun j => nodeAt_add_of_lt room
  refine ⟨hok, Nat.le_succ_of_le h.reached, hlaid, ?_, fun j => ?_, ?_⟩
  · refine List.nodup_append.2 ⟨hnd.of_cons.of_cons, List.nodup_singleton _, fun j hj i hi => ?_⟩
    rw [List.mem_singleton.1 hi]
    exact ((hq j).1 hj).1.1.ne
  · refine Iff.trans ?_ (waiting_succ hlaid.merged h.reached).symm
    rw [waiting_congr hbelow le_rfl, nodeAt_add_next room, joinNode_left a.node (hwl.1.trans room),
      joinNode_right a.node (hwr.1.trans room), ← hq]
    simp [Arena.add, or_comm]
  · have hold : q.map (weightAt (a.add (joinNode a.node l r)).node) = q.map (weightAt a.node) :=
      List.map_congr_left fun j hj => weightAt_congr hbelow ((hq j).1 hj).1.1
    have hnew := hmerged.weight
    rw [nodeAt_add_next room, joinNode_left a.node (hwl.1.trans room), joinNode_right a.node (hwr.1.trans room)] at hnew
    show ((q ++ [a.next]).map (weightAt (a.add (joinNode a.node l r)).node)).sum = totalWeight s
    rw [List.map_append, List.sum_append, hold, List.map_singleton, List.sum_singleton, hnew,
      weightAt_congr hbelow hwl.1, weightAt_congr hbelow hwr.1]
    omega

/-! ### What BUILD leaves (R123) -/

/-- BUILD has completed: the arena is laid out up to `NNODES`, and of all its nodes only `ROOT` is no child of one. -/
structure Built (s t : State) : Prop where
  laid : LaidOut s t.node t.nnodes.toNat
  nleaf : t.nleaf.toNat = (occurring s).length
  nnodes : t.nnodes.toNat + 1 = 2 * t.nleaf.toNat
  root : t.root.toNat + 1 = t.nnodes.toNat
  queue : ∀ j, Waiting t.node t.nleaf.toNat t.nnodes.toNat j ↔ j = t.root.toNat
  total : weightAt t.node t.root.toNat = totalWeight s

theorem built_builtState {s : State} (h : occurring s ≠ []) : Built s (builtState s) := by
  obtain ⟨hpq, hnext, -⟩ := mergeLoop_ok s h
  have hinv := mergeLoop_induction (fun _ _ => buildInv_mergeStep) (leafArena s).pq.length _ (buildInv_leafArena s)
  have hpos := List.length_pos_iff.2 h
  have hle := occurring_length_le s
  have hnleaf : (builtState s).nleaf.toNat = (occurring s).length := Nat.mod_eq_of_lt (by omega)
  have hnnodes : (builtState s).nnodes.toNat = 2 * (occurring s).length - 1 := Nat.mod_eq_of_lt (by omega)
  have hroot : (builtState s).root.toNat = 2 * (occurring s).length - 2 := Nat.mod_eq_of_lt (by omega)
  have hlaid := hinv.laid
  have hqueue := hinv.queue
  have htotal := hinv.total
  rw [hnext] at hlaid hqueue
  rw [hpq] at hqueue htotal
  refine ⟨?_, hnleaf, by omega, by omega, fun j => ?_, ?_⟩
  · rw [hnnodes]
    exact hlaid
  · rw [hnnodes, hnleaf, hroot, ← List.mem_singleton]
    exact (hqueue j).symm
  · rw [hroot]
    rwa [List.map_singleton, List.sum_singleton] at htotal

theorem exec_build_of_occurring {s : State} (hidle : s.engine = .idle) (h : occurring s ≠ []) :
    exec .build s = .next (builtState s) :=
  (execBuild_of_occurring h).trans (congrArg Host.Outcome.next (endCommand_of_idle (s := builtState s) hidle))

/-- BUILD has completed when it leaves a valid tree. -/
theorem built_of_exec {s t : State} (h : exec .build s = .next t) (hv : t.treeValid = true) : Built s t := by
  by_cases hocc : occurring s = []
  · cases (execBuild_of_none hocc).symm.trans h
    cases hv
  · cases (execBuild_of_occurring hocc).symm.trans h
    obtain ⟨hlaid, hnleaf, hnnodes, hroot, hqueue, htotal⟩ := built_builtState hocc
    exact ⟨hlaid, hnleaf, hnnodes, hroot, hqueue, htotal⟩

section Built
variable {s t : State} (h : Built s t)
include h

theorem Built.merged {i : Nat} (hle : t.nleaf.toNat ≤ i) (hi : i < t.nnodes.toNat) :
    MergedAt t.node t.nleaf.toNat i := by
  rw [h.nleaf] at hle ⊢
  exact h.laid.merged i hle hi

/-- An entry below `NLEAF` is the leaf of a symbol that occurs. -/
theorem Built.leaf {k : Nat} (hk : k < t.nleaf.toNat) :
    ∃ sym, nodeAt t.node k = leafNode sym (s.freqOf sym) :=
  ⟨_, h.laid.leaves k (h.nleaf ▸ hk)⟩

/-- The internal nodes are the entries from `NLEAF` on. -/
theorem Built.nleaf_le_of_internal {i : Nat} (hk : (nodeAt t.node i).kind = .internal) : t.nleaf.toNat ≤ i := by
  by_contra hlt
  obtain ⟨sym, hsym⟩ := h.leaf (Nat.not_le.1 hlt)
  rw [hsym] at hk
  cases hk

theorem Built.nleaf_le_of_isChild {i j : Nat} (hc : isChild t.node i j) : t.nleaf.toNat ≤ i :=
  h.nleaf_le_of_internal hc.1

/-- A node is the child of at most one other: the first to take it takes it out of the queue. -/
theorem Built.parent_unique {i i' j : Nat} (hi : i < t.nnodes.toNat) (hi' : i' < t.nnodes.toNat)
    (hc : isChild t.node i j) (hc' : isChild t.node i' j) : i' = i := by
  have later : ∀ {i i'}, i' < t.nnodes.toNat → isChild t.node i j → isChild t.node i' j → ¬ i < i' :=
    fun hi' hc hc' hlt =>
      ((h.merged (h.nleaf_le_of_isChild hc') hi').waiting_of_isChild hc').2 _ (h.nleaf_le_of_isChild hc) hlt hc
  exact Nat.le_antisymm (Nat.not_lt.1 (later hi' hc hc')) (Nat.not_lt.1 (later hi hc' hc))

/-- A node that has left the queue is a child. -/
theorem Built.exists_parent {j : Nat} (hj : j < t.nnodes.toNat) (hroot : j ≠ t.root.toNat) :
    ∃ i, i < t.nnodes.toNat ∧ isChild t.node i j := by
  have hnot := mt (h.queue j).1 hroot
  rw [Waiting, not_and] at hnot
  push Not at hnot
  obtain ⟨i, -, hi, hc⟩ := hnot hj
  exact ⟨i, hi, hc⟩

/-- A node is as heavy as the leaves below it (R125(c)). -/
theorem Built.weight_of_spells {i : Nat} {tree : Tree} (hs : Spells t.node i tree) (hi : i < t.nnodes.toNat) :
    weightAt t.node i = tree.total fun sym => (s.freqOf sym).toNat := by
  induction hs with
  | leaf i _ hk =>
    have hlt : i < t.nleaf.toNat := by
      by_contra hle
      have := (h.merged (Nat.not_lt.1 hle) hi).kind
      rw [hk] at this
      cases this
    obtain ⟨sym, hsym⟩ := h.leaf hlt
    rw [weightAt, hsym, weight_leafNode]
    simp [Tree.total, Tree.leaves, leafNode]
  | node i _ hk l r _ _ ihl ihr =>
    have hm := h.merged (h.nleaf_le_of_internal hk) hi
    rw [hm.weight, ihl (hm.left.1.trans hi), ihr (hm.right.1.trans hi)]
    simp [Tree.total, Tree.leaves]

/-- RIGHT of a merge is no heavier than what a later merge joins. -/
theorem Built.right_le {i j x : Nat} (hle : t.nleaf.toNat ≤ i) (hij : i < j) (hj : j ≤ t.nnodes.toNat)
    (hx : Waiting t.node t.nleaf.toNat j x) :
    weightAt t.node (nodeAt t.node i).right.toNat ≤ weightAt t.node x :=
  right_le_of_waiting j (fun _ hle' hi' => h.merged hle' (hi'.trans_le hj)) i hle hij x hx

/-- The internal nodes do not get lighter (R125(d)). -/
theorem Built.weight_mono {i j : Nat} (hle : t.nleaf.toNat ≤ i) (hij : i ≤ j) (hj : j < t.nnodes.toNat) :
    weightAt t.node i ≤ weightAt t.node j := by
  rcases hij.eq_or_lt with rfl | hlt
  · exact le_rfl
  · have hmi := h.merged hle (hlt.trans hj)
    have hmj := h.merged (hle.trans hij) hj
    have hlr := hmi.left_le_right
    have hrl := h.right_le hle hlt hj.le hmj.left
    have hlr' := hmj.left_le_right
    rw [hmi.weight, hmj.weight]
    omega

/-- `PopMin` returns the nodes in the order of their weights (R125(d)): of two nodes that merges pop, or a merge and the
end, the one popped earlier is no heavier than RIGHT of its merge, and that no heavier than the other. -/
theorem Built.popOrder_sorted : (popOrder t).Pairwise fun a b => weightAt t.node a ≤ weightAt t.node b := by
  have hmerge : ∀ {i}, i ∈ List.range' t.nleaf.toNat (t.nnodes.toNat - t.nleaf.toNat) →
      t.nleaf.toNat ≤ i ∧ i < t.nnodes.toNat := fun hi => by
    rw [List.mem_range'_1] at hi
    omega
  have hpop_le : ∀ {i x}, t.nleaf.toNat ≤ i → i < t.nnodes.toNat →
      x ∈ [(nodeAt t.node i).left.toNat, (nodeAt t.node i).right.toNat] →
      weightAt t.node x ≤ weightAt t.node (nodeAt t.node i).right.toNat := by
    intro i x hle hi hx
    rcases List.mem_pair.1 hx with rfl | rfl
    · exact (h.merged hle hi).left_le_right
    · exact le_rfl
  refine List.pairwise_append.2 ⟨List.pairwise_flatMap.2 ⟨fun i hi => ?_, ?_⟩, List.pairwise_singleton _ _, ?_⟩
  · obtain ⟨hle, hi⟩ := hmerge hi
    exact List.pairwise_pair.2 (h.merged hle hi).left_le_right
  · refine List.Pairwise.imp_of_mem (fun {i j} hi hj hij x hx y hy => ?_) List.pairwise_lt_range'
    obtain ⟨hle, hi⟩ := hmerge hi
    obtain ⟨hle', hj⟩ := hmerge hj
    have hm := h.merged hle' hj
    refine (hpop_le hle hi hx).trans (h.right_le hle hij hj.le ?_)
    rcases List.mem_pair.1 hy with rfl | rfl
    · exact hm.left
    · exact hm.right
  · intro x hx y hy
    obtain ⟨i, hi, hx⟩ := List.mem_flatMap.1 hx
    obtain ⟨hle, hi⟩ := hmerge hi
    rw [List.mem_singleton.1 hy]
    exact (hpop_le hle hi hx).trans (h.right_le hle hi le_rfl ((h.queue _).2 rfl))

end Built

/-! ### The statements about BUILD (R123 to R125) -/

/-- Settles O29: the merge loop leaves one tree over the symbols that occur, and BUILD writes nothing else. -/
theorem buildMakesTheTree : Obligations.BuildMakesTheTree := by
  intro s hidle hsym
  have hocc := occurring_ne_nil.2 hsym
  obtain ⟨-, -, tree, htree, hperm⟩ := mergeLoop_ok s hocc
  obtain ⟨-, hnleaf, hnnodes, hroot, -, -⟩ := built_builtState hocc
  refine ⟨builtState s, tree, exec_build_of_occurring hidle hocc, ?_, hperm, hnleaf, hnnodes, hroot, rfl⟩
  rw [show (builtState s).root.toNat = 2 * (occurring s).length - 2 by omega]
  exact htree

/-- Settles O30: the leaves and the unused entries are the layout's, the internal entries its merges, and what has left the
queue is the child of the merge that took it. -/
theorem buildLaysOutTheArena : Obligations.BuildLaysOutTheArena := by
  intro s t _ hexec hv
  have h := built_of_exec hexec hv
  refine ⟨h.laid.leaves, fun i hle hi => ?_, fun j hj hroot => ?_, h.laid.unused⟩
  · have hm := h.merged hle hi
    exact ⟨hm.kind, hm.sym, hm.left.1, hm.right.1, mt (congrArg BitVec.toNat) hm.ne, hm.weight⟩
  · obtain ⟨i, hi, hc⟩ := h.exists_parent hj hroot
    exact ⟨i, hi, hc, fun i' hi' hc' => h.parent_unique hi hi' hc hc'⟩

/-- Settles O31: every internal node is a merge of the two least members of the queue. -/
theorem buildMergesTheLightest : Obligations.BuildMergesTheLightest := by
  intro s t _ hexec hv i hle hi j hj hwait
  have hleast := ((built_of_exec hexec hv).merged hle hi).least j ⟨hj, hwait⟩
  exact ⟨fun hl => (hleast hl).1, fun hl => (hleast hl).2⟩

/-- Settles O32: the sums are exact since the weights in the queue always sum to the total, and what is left in the queue is
no lighter than what was popped. -/
theorem buildWeights : Obligations.BuildWeights := by
  intro s t _ hexec hv
  have h := built_of_exec hexec hv
  exact ⟨fun _ _ hi hs => h.weight_of_spells hs hi, h.total, fun _ _ => h.weight_mono, h.popOrder_sorted⟩

theorem occurring_congr {s s' : State} (h : s.freq = s'.freq) : occurring s = occurring s' := by
  unfold occurring State.freqOf
  rw [h]

/-- Two arenas laid out from the same weights hold the same records (R125(e)). -/
theorem LaidOut.record_eq {s s' : State} {node node' : Vector Node 511} {k : Nat} (hfreq : s.freq = s'.freq)
    (h : LaidOut s node k) (h' : LaidOut s' node' k) : ∀ i < k, nodeAt node' i = nodeAt node i := by
  have hfreqOf : ∀ sym, s'.freqOf sym = s.freqOf sym := fun sym => by simp only [State.freqOf, hfreq]
  obtain ⟨hleaves', hmerged', -⟩ := h'
  simp only [← occurring_congr hfreq, hfreqOf] at hleaves' hmerged'
  intro i
  induction i using Nat.strong_induction_on with
  | _ i ih =>
    intro hi
    rcases Nat.lt_or_ge i (occurring s).length with hleaf | hle
    · rw [h.leaves i hleaf, hleaves' i hleaf]
    · exact (h.merged i hle hi).record_eq (fun j hj => ih j hj (hj.trans hi)) (hmerged' i hle hi)

/-- Settles O33: both runs lay out their arenas from the same weights, and the layout determines the records. -/
theorem buildDependsOnFreqOnly : Obligations.BuildDependsOnFreqOnly := by
  intro s s' t t' hfreq h h'
  have hsame := occurring_congr hfreq
  by_cases hocc : occurring s = []
  · cases (execBuild_of_none hocc).symm.trans h
    cases (execBuild_of_none (hsame ▸ hocc)).symm.trans h'
    exact ⟨rfl, rfl, rfl, rfl, fun i hi => absurd hi (Nat.not_lt_zero i)⟩
  · cases (execBuild_of_occurring hocc).symm.trans h
    cases (execBuild_of_occurring (hsame ▸ hocc)).symm.trans h'
    have hlaid := (built_builtState hocc).laid
    have hlaid' := (built_builtState (hsame ▸ hocc)).laid
    have hnleaf : (builtState s).nleaf = (builtState s').nleaf := by simp only [builtState, hsame]
    have hnnodes : (builtState s).nnodes = (builtState s').nnodes := by simp only [builtState, hsame]
    have hroot : (builtState s).root = (builtState s').root := by simp only [builtState, hsame]
    refine ⟨hnleaf, hnnodes, hroot, rfl, fun i hi => ?_⟩
    rw [← hnnodes] at hlaid'
    exact (hlaid.record_eq hfreq hlaid' i hi).symm

end Sys2Proof.Machine
end

section
/-! PROOF. The statements about ASSIGN (42_code_assigner.md R141 to R144(d)): it leaves the dictionary of the tree, and after
BUILD the lengths in it are those of one full tree over the symbols that occur. -/

namespace Sys2Proof.Machine

/-! ### `MAXLEN` (R28) -/

/-- No length is above the largest one: lengths have 8 bits, so the largest does not wrap. -/
theorem lenOf_le_largestLen (s : State) (sym : Sym) : (s.lenOf sym).toNat ≤ (largestLen s).toNat := by
  have hfold (l : List Nat) : l.foldl max 0 = l.foldr max ⊥ := List.foldl_eq_foldr
  have hlt : (allSyms.map fun sym => (s.lenOf sym).toNat).foldr max ⊥ ≤ 255 := by
    refine List.max_le_of_forall_le _ _ fun x hx => ?_
    obtain ⟨a, -, rfl⟩ := List.mem_map.1 hx
    exact Nat.le_of_lt_succ (s.lenOf a).isLt
  rw [largestLen, BitVec.toNat_ofNat, hfold, Nat.mod_eq_of_lt (Nat.lt_succ_of_le hlt)]
  exact List.le_max_of_le (List.mem_map_of_mem (mem_allSyms sym)) le_rfl

/-! ### What ASSIGN leaves (R141) -/

/-- The state ASSIGN leaves on a tree (R141). -/
def assignedState (s : State) (tree : Tree) : State :=
  { treeDict s tree with maxlen := largestLen (treeDict s tree), dictValid := true }

theorem assignedState_frame (s : State) (tree : Tree) : assignedState s tree =
    { s with
      len := (assignedState s tree).len, code := (assignedState s tree).code, maxlen := (assignedState s tree).maxlen
      dictValid := true, preValid := false } :=
  congrArg (fun u : State => { u with maxlen := largestLen (treeDict s tree), dictValid := true }) (treeDict_frame s tree)

theorem len_assignedState (s : State) (tree : Tree) : (assignedState s tree).len = (treeDict s tree).len := by
  rw [assignedState]

theorem code_assignedState (s : State) (tree : Tree) : (assignedState s tree).code = (treeDict s tree).code := by
  rw [assignedState]

theorem maxlen_assignedState (s : State) (tree : Tree) :
    (assignedState s tree).maxlen = largestLen (assignedState s tree) := by
  rw [← largestLen_congr (len_assignedState s tree), assignedState]

/-- The dictionary ASSIGN leaves is the tree's. -/
theorem entry_assignedState (s : State) (tree : Tree) (a : Sym) :
    (assignedState s tree).codeBits a = (treeDict s tree).codeBits a ∧
      (assignedState s tree).coded a = (treeDict s tree).coded a ∧
      (assignedState s tree).lenOf a = (treeDict s tree).lenOf a ∧
      (assignedState s tree).codeOf a = (treeDict s tree).codeOf a :=
  State.codeBits_congr (len_assignedState s tree) (code_assignedState s tree) a

theorem codedSyms_assignedState (s : State) (tree : Tree) :
    codedSyms (assignedState s tree) = codedSyms (treeDict s tree) :=
  List.filter_congr fun a _ => by simp only [entry_assignedState]

theorem exec_assign_of_spells {s : State} {tree : Tree} (hidle : s.engine = .idle) (hv : s.treeValid = true)
    (h : Spells s.node s.root.toNat tree) (hnd : tree.leaves.Nodup) :
    exec .assign s = .next (assignedState s tree) := by
  have hidle' : (assignedState s tree).engine = .idle := by rw [assignedState_frame]; exact hidle
  exact (execAssign_of_spells hv h hnd).trans (congrArg Host.Outcome.next
    (endCommand_of_idle (s := assignedState s tree) hidle'))

/-- Settles O34: the walk leaves the dictionary of the tree, and `MAXLEN` is read off it. -/
theorem assignWritesThePaths : Obligations.AssignWritesThePaths := by
  intro s tree hidle hv hspells hnd
  refine ⟨assignedState s tree, exec_assign_of_spells hidle hv hspells hnd, ?_, ?_, ?_, maxlen_assignedState s tree, ?_,
    assignedState_frame s tree⟩
  · simp only [entry_assignedState]
    exact fun _ => codeBits_treeDict hnd
  · simp only [entry_assignedState]
    exact fun _ => entry_treeDict_of_notMem
  · simp only [CodesOk, entry_assignedState]
    exact codesOk_treeDict hnd
  · rw [maxlen_assignedState]
    exact lenOf_le_largestLen _

/-! ### The lengths in a tree's dictionary (R144(c), R144(d)) -/

theorem Tree.exists_leaf_of_length {t : Tree} (h : t.leaves.length = 1) : ∃ sym, t = .leaf sym := by
  cases t with
  | leaf sym => exact ⟨sym, rfl⟩
  | node l r =>
    have hl := l.leaves_length_pos
    have hr := r.leaves_length_pos
    rw [Tree.leaves, List.length_append] at h
    omega

theorem Tree.codes_eq_paths {t : Tree} (h : t.leaves.length ≠ 1) : t.codes = t.paths := by
  cases t with
  | leaf sym => exact absurd rfl h
  | node l r => rfl

theorem Tree.exists_mem_codes {t : Tree} {a : Sym} (h : a ∈ t.leaves) : ∃ c, (a, c) ∈ t.codes := by
  rw [← t.map_fst_codes, List.mem_map] at h
  obtain ⟨p, hp, rfl⟩ := h
  exact ⟨p.2, hp⟩

/-- The paths of a tree fill the strings of length `k`, each path standing for the strings it begins: an inner node halves
them between its two sides (R144(c)). -/
theorem Tree.kraft_paths {t : Tree} {k : Nat} (h : t.leaves.length ≤ k + 1) :
    (t.paths.map fun p => 2 ^ (k - p.2.length)).sum = 2 ^ k := by
  induction t generalizing k with
  | leaf sym => simp [Tree.paths]
  | node l r ihl ihr =>
    have hl := l.leaves_length_pos
    have hr := r.leaves_length_pos
    rw [Tree.leaves, List.length_append] at h
    obtain _ | k := k
    · omega
    have hleft := ihl (k := k) (by omega)
    have hright := ihr (k := k) (by omega)
    simp [Tree.paths, Function.comp_def, hleft, hright, pow_succ, mul_two]

/-- The Kraft sum of a tree's codes, as a number of strings of length 255 (R144(c)). -/
theorem Tree.kraft_codes {t : Tree} (h : t.leaves.length ≤ 256) :
    (t.codes.map fun p => 2 ^ (255 - p.2.length)).sum = if t.leaves.length = 1 then 2 ^ 254 else 2 ^ 255 := by
  split
  · next hone =>
    obtain ⟨sym, rfl⟩ := Tree.exists_leaf_of_length hone
    simp [Tree.codes]
  · next hne => rw [Tree.codes_eq_paths hne, Tree.kraft_paths h]

section TreeDict
variable {s : State} {tree : Tree} (hnd : tree.leaves.Nodup)
include hnd

theorem lenOf_treeDict {a : Sym} {c : List Bool} (h : (a, c) ∈ tree.codes) :
    ((treeDict s tree).lenOf a).toNat = c.length := by
  have hlen := congrArg List.length (codeBits_treeDict (s := s) hnd h)
  rwa [State.codeBits, bits_length] at hlen

theorem codedSyms_treeDict_perm : (codedSyms (treeDict s tree)).Perm tree.leaves := by
  refine (List.perm_ext_iff_of_nodup (allSyms_nodup.filter _) hnd).2 fun a => ?_
  rw [List.mem_filter, coded_treeDict hnd]
  exact and_iff_right (mem_allSyms a)

/-- The Kraft sum of the dictionary is that of the tree's codes (R144(c)). -/
theorem kraft_treeDict :
    ((codedSyms (treeDict s tree)).map fun sym => 2 ^ (255 - ((treeDict s tree).lenOf sym).toNat)).sum =
      if tree.leaves.length = 1 then 2 ^ 254 else 2 ^ 255 := by
  rw [← Tree.kraft_codes (length_le_of_nodup hnd), ((codedSyms_treeDict_perm hnd).map _).sum_eq, ← tree.map_fst_codes,
    List.map_map]
  refine congrArg List.sum (List.map_congr_left fun p hp => ?_)
  rw [Function.comp_apply, lenOf_treeDict hnd hp]

/-- The bounds on a length (R144(d)). -/
theorem lenOf_treeDict_bound {a : Sym} (h : a ∈ tree.leaves) :
    (tree.leaves.length = 1 → (treeDict s tree).lenOf a = 1) ∧
      (2 ≤ tree.leaves.length → ((treeDict s tree).lenOf a).toNat + 1 ≤ tree.leaves.length) := by
  obtain ⟨c, hc⟩ := Tree.exists_mem_codes h
  have hlen := lenOf_treeDict (s := s) hnd hc
  refine ⟨fun hone => ?_, fun htwo => ?_⟩
  · obtain ⟨sym, rfl⟩ := Tree.exists_leaf_of_length hone
    cases List.mem_singleton.1 hc
    exact BitVec.eq_of_toNat_eq hlen
  · rw [Tree.codes_eq_paths (by omega)] at hc
    rw [hlen]
    exact Tree.length_lt_of_mem_paths hc

end TreeDict

/-! ### BUILD, then ASSIGN -/

/-- After BUILD and ASSIGN the dictionary is that of the one tree BUILD made over the symbols that occur. -/
theorem execAll_build_assign {s : State} (hidle : s.engine = .idle) (hsym : ∃ sym, s.freqOf sym ≠ 0) :
    ∃ u tree, Built s u ∧ Spells u.node u.root.toNat tree ∧ tree.leaves.Perm (occurring s) ∧
      execAll [.build, .assign] s = .next (assignedState u tree) := by
  obtain ⟨u, tree, hbuild, hspells, hperm, -, -, -, hframe⟩ := buildMakesTheTree s hidle hsym
  have hidle' : u.engine = .idle := by rw [hframe]; exact hidle
  have hv : u.treeValid = true := by rw [hframe]
  have hassign := exec_assign_of_spells hidle' hv hspells (hperm.nodup_iff.2 (occurring_nodup s))
  refine ⟨u, tree, built_of_exec hbuild hv, hspells, hperm, ?_⟩
  simp only [execAll, hbuild, hassign]

theorem mem_occurring {s : State} {sym : Sym} : sym ∈ occurring s ↔ s.freqOf sym ≠ 0 := by
  simp [occurring]

/-- Settles O35: the tree's leaves are the symbols that occur, `NLEAF` counts them, and the dictionary is the tree's. -/
theorem dictionaryOfTheTree : Obligations.DictionaryOfTheTree := by
  intro s hidle hsym
  obtain ⟨u, tree, hbuilt, -, hperm, hexec⟩ := execAll_build_assign hidle hsym
  have hnd : tree.leaves.Nodup := hperm.nodup_iff.2 (occurring_nodup s)
  have hnleaf : (assignedState u tree).nleaf.toNat = tree.leaves.length := by
    rw [assignedState_frame, hperm.length_eq]
    exact hbuilt.nleaf
  have hone : (assignedState u tree).nleaf = 1 ↔ tree.leaves.length = 1 := by
    rw [← hnleaf]
    exact BitVec.toNat_inj.symm
  refine ⟨assignedState u tree, hexec, ?_⟩
  simp only [PrefixFree, entry_assignedState, codedSyms_assignedState, hone, hnleaf]
  refine ⟨fun sym => ?_, prefixFree_treeDict hnd, kraft_treeDict hnd, fun sym hcoded => ?_⟩
  · exact (coded_treeDict hnd).trans (hperm.mem_iff.trans mem_occurring)
  · exact lenOf_treeDict_bound hnd ((coded_treeDict hnd).1 hcoded)

end Sys2Proof.Machine
end

section
/-! PROOF. A strictly lighter symbol has a code at least as long (42_code_assigner.md R144(e)): of two nodes that wait in the
queue together, the one with the lesser key gets its parent no later, and a parent made no later is at least as deep. -/

namespace Sys2Proof.Machine

/-- Node `i` stands `d` levels below the root, along a path in the arena. -/
inductive AtDepth (node : Vector Node 511) (root : Nat) : Nat → Nat → Prop where
  | root : AtDepth node root root 0
  | child {i j d : Nat} (h : AtDepth node root i d) (hc : isChild node i j) : AtDepth node root j (d + 1)

/-- Below a node every leaf is as deep as its path is long (R144(f)). -/
theorem AtDepth.leaf_of_mem_paths {node : Vector Node 511} {root i : Nat} {tree : Tree} (hs : Spells node i tree) :
    ∀ {d : Nat} {p : Sym × List Bool}, AtDepth node root i d → p ∈ tree.paths →
      ∃ k, AtDepth node root k (d + p.2.length) ∧ Spells node k (.leaf p.1) := by
  induction hs with
  | leaf i hi hk =>
    intro d p hd hp
    rw [List.mem_singleton.1 hp]
    exact ⟨i, hd, .leaf i hi hk⟩
  | node i _ hk l r _ _ ihl ihr =>
    intro d p hd hp
    simp only [Tree.paths, List.mem_append, List.mem_map] at hp
    rcases hp with ⟨q, hq, rfl⟩ | ⟨q, hq, rfl⟩
    · simpa only [List.length_cons, Nat.add_right_comm, Nat.add_assoc] using ihl (hd.child ⟨hk, .inl rfl⟩) hq
    · simpa only [List.length_cons, Nat.add_right_comm, Nat.add_assoc] using ihr (hd.child ⟨hk, .inr rfl⟩) hq

section Built
variable {s u : State} (h : Built s u)
include h

theorem Built.child_lt {i j : Nat} (hi : i < u.nnodes.toNat) (hc : isChild u.node i j) : j < i :=
  (h.merged (h.nleaf_le_of_isChild hc) hi).child_lt hc

theorem Built.lt_nnodes_of_atDepth {i d : Nat} (hd : AtDepth u.node u.root.toNat i d) : i < u.nnodes.toNat := by
  induction hd with
  | root => have := h.root; omega
  | child _ hc ih => exact (h.child_lt ih hc).trans ih

/-- A node that is there when `y` gets its parent, and whose key is not above that of `y`, has its parent by then: the merge
at `j` would else have taken it instead of `y` (R124). -/
theorem Built.parent_le {x y i j : Nat} (hi : i < u.nnodes.toNat) (hj : j < u.nnodes.toNat) (hx : isChild u.node i x)
    (hy : isChild u.node j y) (hxj : x < j) (hkey : ¬ keyBefore u.node y x) : i ≤ j := by
  by_contra hlt
  have hm := h.merged (h.nleaf_le_of_isChild hy) hj
  have hwait : Waiting u.node u.nleaf.toNat j x := ⟨hxj, fun i' _ hi' hx' => by
    have := h.parent_unique hi (hi'.trans hj) hx hx'
    omega⟩
  have hnot : ¬ isChild u.node j x := fun hx' => hlt (h.parent_unique hj hi hx' hx).le
  rw [hm.isChild_iff, not_or] at hnot
  obtain ⟨hleft, hright⟩ := hm.least x hwait hnot.1
  rcases hm.isChild_iff.1 hy with rfl | rfl
  · exact hkey hleft
  · exact hkey (hright hnot.2)

/-- Of two nodes, the one whose key is not above the other's is at least as deep, if it is there when the other gets its
parent. By induction on the depth of the other: the parents, in the order of their indices, are such nodes again (R125(d)). -/
theorem Built.depth_le {x y d e : Nat} (hx : AtDepth u.node u.root.toNat x d) (hy : AtDepth u.node u.root.toNat y e)
    (hkey : ¬ keyBefore u.node y x) (hmade : ∀ j, isChild u.node j y → j < u.nnodes.toNat → x < j) : e ≤ d := by
  induction hy generalizing x d with
  | root => exact Nat.zero_le d
  | @child j y e hdj hy ih =>
    have hj := h.lt_nnodes_of_atDepth hdj
    have hxj := hmade j hy hj
    cases hx with
    | root => have := h.root; omega
    | @child i _ d hdi hx =>
      have hij := h.parent_le (h.lt_nnodes_of_atDepth hdi) hj hx hy hxj hkey
      have hweight := h.weight_mono (h.nleaf_le_of_isChild hx) hij hj
      refine Nat.succ_le_succ (ih hdi ?_ fun k hk hlt => hij.trans_lt (h.child_lt hlt hk))
      rintro (hlighter | ⟨-, hlt⟩)
      · exact Nat.not_lt.2 hweight hlighter
      · exact Nat.not_lt.2 hij hlt

/-- A leaf stands below `NLEAF` and weighs what its symbol does. -/
theorem Built.leaf_of_spells {k : Nat} {sym : Sym} (hs : Spells u.node k (.leaf sym)) (hlt : k < u.nnodes.toNat) :
    k < u.nleaf.toNat ∧ weightAt u.node k = (s.freqOf sym).toNat := by
  refine ⟨?_, by simpa [Tree.total, Tree.leaves] using h.weight_of_spells hs hlt⟩
  by_contra hle
  have hkind := (h.merged (Nat.not_lt.1 hle) hlt).kind
  cases hs with
  | leaf _ _ hk => exact NodeKind.noConfusion (hk.symm.trans hkind)

/-- Of two leaves the strictly lighter one has a path at least as long (R144(e)). -/
theorem Built.length_paths_le {tree : Tree} (hs : Spells u.node u.root.toNat tree) {p q : Sym × List Bool}
    (hp : p ∈ tree.paths) (hq : q ∈ tree.paths) (hlt : (s.freqOf p.1).toNat < (s.freqOf q.1).toNat) :
    q.2.length ≤ p.2.length := by
  obtain ⟨x, hx, hxs⟩ := AtDepth.leaf_of_mem_paths hs .root hp
  obtain ⟨y, hy, hys⟩ := AtDepth.leaf_of_mem_paths hs .root hq
  rw [Nat.zero_add] at hx hy
  obtain ⟨hxleaf, hxw⟩ := h.leaf_of_spells hxs (h.lt_nnodes_of_atDepth hx)
  obtain ⟨-, hyw⟩ := h.leaf_of_spells hys (h.lt_nnodes_of_atDepth hy)
  refine h.depth_le hx hy (fun hkey => ?_) fun j hj _ => hxleaf.trans_le (h.nleaf_le_of_isChild hj)
  have hle := hkey.weight_le
  rw [hxw, hyw] at hle
  omega

end Built

/-- Settles O36: the lengths are those of the paths in the tree BUILD made, which has two leaves when two symbols occur. -/
theorem lighterIsAtLeastAsDeep : Obligations.LighterIsAtLeastAsDeep := by
  intro s t hidle hexec a b ha hlt
  obtain ⟨u, tree, hbuilt, hspells, hperm, hexec'⟩ := execAll_build_assign hidle ⟨a, ha⟩
  cases hexec'.symm.trans hexec
  have hnd : tree.leaves.Nodup := hperm.nodup_iff.2 (occurring_nodup s)
  have hb : s.freqOf b ≠ 0 := fun h0 => by simp [h0] at hlt
  have hleafa : a ∈ tree.leaves := hperm.mem_iff.2 (mem_occurring.2 ha)
  have hleafb : b ∈ tree.leaves := hperm.mem_iff.2 (mem_occurring.2 hb)
  obtain ⟨c, hc⟩ := Tree.exists_mem_codes hleafa
  obtain ⟨c', hc'⟩ := Tree.exists_mem_codes hleafb
  simp only [entry_assignedState, lenOf_treeDict hnd hc, lenOf_treeDict hnd hc']
  have htwo : tree.leaves.length ≠ 1 := fun hone => by
    obtain ⟨sym, rfl⟩ := Tree.exists_leaf_of_length hone
    rw [List.mem_singleton.1 hleafa, List.mem_singleton.1 hleafb] at hlt
    exact lt_irrefl _ hlt
  rw [Tree.codes_eq_paths htwo] at hc hc'
  exact hbuilt.length_paths_le hspells hc hc' hlt

end Sys2Proof.Machine
end

section
/-! PROOF. A command's steps up to its end, its error or a hold, whatever the bound on turns (20_memory.md R72, log 16). -/

namespace Sys2Proof.Machine

/-- More turns than a task has steps left change nothing (log 16). -/
theorem runTask_turns_irrelevant (op : Byte) : ∀ n n' t s, t.stepsLeft s < n → t.stepsLeft s < n' →
    runTask op n t s = runTask op n' t s := by
  intro n
  induction n with
  | zero => intro n' t s h _; exact absurd h (Nat.not_lt_zero _)
  | succ n ih =>
    intro n' t s h h'
    obtain _ | n' := n'
    · exact absurd h' (Nat.not_lt_zero _)
    cases hs : t.step s with
    | go t' s' =>
      have hlt := Task.stepsLeft_go hs
      rw [runTask_go hs, runTask_go hs]
      exact ih n' t' s' (by omega) (by omega)
    | done s' => rw [runTask_done hs, runTask_done hs]
    | raise e info s' => rw [runTask_raise hs, runTask_raise hs]
    | hold => rw [runTask_hold hs, runTask_hold hs]

/-- A task run to where it stops: its end, its error or a hold. It has as many turns as it can take. -/
def runToStop (op : Byte) (t : Task) (s : State) : State := runTask op (t.stepsLeft s + 1) t s

theorem runTask_eq_runToStop {op : Byte} {n : Nat} {t : Task} {s : State} (h : t.stepsLeft s < n) :
    runTask op n t s = runToStop op t s :=
  runTask_turns_irrelevant op _ _ t s h (Nat.lt_succ_self _)

/-- A command whose preconditions hold runs from its first task to where it stops. -/
theorem exec_eq_runToStop {i : Instr} {task : Task} {s : State} (hi : firstTask i = some task) (h : StartsFrom s i)
    (hcount : task.countsOk) : exec i s = .next (runToStop i.opcode.code task (setUp i s)) := by
  rw [exec_of_startsFrom hi h, start, runTask_eq_runToStop (Task.stepsLeft_lt_turnsFor hcount _)]

/-- A loop that takes `n` turns from one task to another does not change where the run stops. -/
theorem runToStop_of_turns {op : Byte} {n : Nat} {t t' : Task} {s s' : State}
    (h : ∀ m, runTask op (m + n) t s = runTask op m t' s') : runToStop op t s = runToStop op t' s' := by
  rw [← runTask_eq_runToStop (n := t.stepsLeft s + t'.stepsLeft s' + 1 + n) (by omega), h,
    runTask_eq_runToStop (by omega)]

theorem runToStop_go {op : Byte} {t t' : Task} {s s' : State} (h : t.step s = .go t' s') :
    runToStop op t s = runToStop op t' s' :=
  runToStop_of_turns (n := 1) fun _ => runTask_go h

theorem runToStop_done {op : Byte} {t : Task} {s s' : State} (h : t.step s = .done s') :
    runToStop op t s = s'.endCommand := runTask_done h

theorem runToStop_raise {op : Byte} {t : Task} {s s' : State} {e : ErrName} {info : Word32}
    (h : t.step s = .raise e info s') : runToStop op t s = s'.raise op e info := runTask_raise h

end Sys2Proof.Machine
end

section
/-! PROOF. What WPRE, WTAB and ENC emit (43_container_write.md R151 to R153): the loops push the code strings of their
symbols one after the other, and `Finish()` pads the last byte. -/

namespace Sys2Proof.Machine

/-! ### Room on OUT (R75) -/

theorem roomFor.mono {s : State} {m n : Nat} (h : roomFor s n) (hle : m ≤ n) : roomFor s m :=
  (Nat.add_le_add_left hle _).trans h

/-- Room for the bytes of a string and `n` more bits is room for these bits' bytes when the string is pushed; `p` is the
pad. -/
theorem roomFor_writeBits {s : State} {c : List Bool} {n p : Nat}
    (h : roomFor s ((s.wcnt.toNat + (c.length + n) + p) / 8)) :
    roomFor (writeBits s c) (((writeBits s c).wcnt.toNat + n + p) / 8) := by
  unfold roomFor at *
  rw [writeBits_outq_length, writeBits_wcnt]
  show _ ≤ s.params.outDepth
  omega

/-- Emitting some bytes and then others (R75). -/
theorem emitBytes_append (s : State) (bytes bytes' : List Byte) :
    emitBytes (emitBytes s bytes) bytes' = emitBytes s (bytes ++ bytes') := by
  simp only [emitBytes, List.append_assoc, List.length_append, BitVec.ofNat_add, BitVec.add_assoc]

theorem roomFor_emitBytes {s : State} {bytes : List Byte} {n : Nat} (h : roomFor s (bytes.length + n)) :
    roomFor (emitBytes s bytes) n := by
  unfold roomFor at *
  rw [emitBytes_outq, List.length_append, Nat.add_assoc]
  exact h

/-! ### The table's and the payload's bits (R150) -/

/-- A symbol without a code has the empty code string (R26, R27). -/
theorem codeBits_of_not_coded {s : State} {a : Sym} (h : s.coded a = false) : s.codeBits a = [] := by
  have h0 : s.lenOf a = 0 := by simpa [State.coded] using h
  rw [State.codeBits, h0]
  rfl

/-- Pushing bits does not change the dictionary. -/
@[simp] theorem codeBits_writeBits (s : State) (c : List Bool) : (writeBits s c).codeBits = s.codeBits := rfl

/-- The table holds every symbol's code string: that of a symbol without a code is empty (R152). -/
theorem tableBits_eq (s : State) : tableBits s = allSyms.flatMap s.codeBits := by
  unfold tableBits codedSyms
  induction allSyms with
  | nil => rfl
  | cons a syms ih =>
    rw [List.flatMap_cons, ← ih]
    cases h : s.coded a with
    | true => rw [List.filter_cons_of_pos h, List.flatMap_cons]
    | false => rw [List.filter_cons_of_neg (by simp [h]), codeBits_of_not_coded h, List.nil_append]

/-- The codes of a list of symbols have the sum of its lengths (R26, R27). -/
theorem flatMap_codeBits_length (s : State) (syms : List Sym) :
    (syms.flatMap s.codeBits).length = (syms.map fun a => (s.lenOf a).toNat).sum := by
  simp [List.length_flatMap, State.codeBits]

theorem flatMap_codeBits_length_le (s : State) (syms : List Sym) :
    (syms.flatMap s.codeBits).length ≤ 255 * syms.length := by
  rw [flatMap_codeBits_length, Nat.mul_comm, ← List.length_map (f := fun a => (s.lenOf a).toNat)]
  refine List.sum_le_card_nsmul _ _ fun n hn => ?_
  obtain ⟨a, -, rfl⟩ := List.mem_map.1 hn
  exact Nat.le_of_lt_succ (s.lenOf a).isLt

theorem tableBits_length_le (s : State) : (tableBits s).length ≤ 65280 := by
  rw [tableBits_eq]
  exact (flatMap_codeBits_length_le s allSyms).trans_eq (by rw [allSyms_length])

theorem tableBits_length (s : State) : (tableBits s).length = (allSyms.map fun a => (s.lenOf a).toNat).sum := by
  rw [tableBits_eq, flatMap_codeBits_length]

/-- A sum over a list of symbols, counted symbol by symbol. -/
theorem sum_map_eq_sum_count (f : Sym → Nat) (l : List Sym) :
    (l.map f).sum = (allSyms.map fun a => l.count a * f a).sum := by
  rw [Finset.sum_list_map_count, ← List.sum_toFinset _ allSyms_nodup]
  refine Finset.sum_subset (fun a _ => List.mem_toFinset.2 (mem_allSyms a)) fun a _ ha => ?_
  rw [List.count_eq_zero.2 (mt List.mem_toFinset.2 ha), zero_smul]

/-- The payload's length, from the counts of the input (R154). -/
theorem payloadBits_length (s : State) (input : List Byte) :
    (payloadBits s input).length = (allSyms.map fun a => input.count a * (s.lenOf a).toNat).sum := by
  rw [payloadBits, flatMap_codeBits_length]
  exact sum_map_eq_sum_count _ input

@[simp] theorem payloadBits_nil (s : State) : payloadBits s [] = [] := rfl

theorem payloadBits_cons (s : State) (b : Byte) (input : List Byte) :
    payloadBits s (b :: input) = s.codeBits b ++ payloadBits s input := List.flatMap_cons

/-- A padded section of `n` bits takes `⌈n/8⌉` bytes (R150). -/
theorem packBytes_padToByte_length (c : List Bool) : (packBytes (padToByte c)).length = (c.length + 7) / 8 := by
  rw [packBytes_length, padToByte_length, Nat.mul_div_cancel_left _ (by norm_num)]

theorem containerOf_length (s : State) (input : List Byte) : (containerOf s input).length =
    256 + ((tableBits s).length + 7) / 8 + ((payloadBits s input).length + 7) / 8 := by
  simp only [containerOf, List.length_append, preambleBytes_length, packBytes_padToByte_length]

/-! ### The empty writer (R32) -/

section EmptyWriter
variable {s : State} (hcnt : s.wcnt = 0)
include hcnt

theorem pendingBits_of_empty : pendingBits s = [] := by
  rw [pendingBits, hcnt]
  rfl

theorem flushBits_outq_length_of_empty (c : List Bool) :
    (flushBits s c).outq.length = s.outq.length + (c.length + 7) / 8 := by
  rw [flushBits_eq, List.length_append, packBytes_padToByte_length, pendingBits_of_empty hcnt, List.nil_append]

theorem roomFor_of_empty {n : Nat} (room : roomFor s ((n + 7) / 8)) : roomFor s ((s.wcnt.toNat + n + 7) / 8) := by
  rw [hcnt]
  simpa using room

variable (hacc : s.wacc = 0)
include hacc

theorem writerOk_of_empty : WriterOk s := by
  rw [WriterOk, hcnt, hacc]
  decide

/-- From an empty writer a section's bytes are emitted and nothing else changes. -/
theorem flushBits_of_empty (c : List Bool) : flushBits s c = emitBytes s (packBytes (padToByte c)) := by
  rw [flushBits, pendingBits_of_empty hcnt, List.nil_append, ← hcnt, ← hacc]
  rfl

end EmptyWriter

/-! ### WPRE (R151) -/

/-- WPRE emits the 256 lengths when there is room for them. -/
theorem exec_wpre_of_room {s : State} (hidle : s.engine = .idle) (hd : s.dictValid = true) (hw : s.wcnt = 0)
    (room : roomFor s 256) : exec .wpre s = .next (emitBytes s (preambleBytes s)) := by
  have hloop := runToStop_of_turns fun m => runTask_wpre Opcode.wpre.code 256 m 0 s (by omega) room
  have hdone : (Task.wpre 256).step (emitBytes s (preambleBytes s)) = .done (emitBytes s (preambleBytes s)) := rfl
  rw [List.drop_zero, List.take_of_length_le (preambleBytes_length s).le, runToStop_done hdone,
    endCommand_of_idle (s := emitBytes s (preambleBytes s)) hidle] at hloop
  rw [exec_eq_runToStop (i := .wpre) rfl ⟨hd, hw⟩ trivial]
  exact congrArg Host.Outcome.next hloop

/-- Settles O37: the loop emits the lengths with a turn for each, and the preconditions are tested before it. -/
theorem wpreEmitsThePreamble : Obligations.WpreEmitsThePreamble := by
  refine ⟨by decide, fun s hidle hd hw room => ?_, fun s hd => ?_, fun s hd hw => ?_, badFieldsRaise _⟩
  · exact ⟨exec_wpre_of_room hidle hd hw room, preambleBytes_length s⟩
  · rw [exec, execWpre, if_pos (by simp [Precondition.holds, hd])]
    rfl
  · rw [exec, execWpre, if_neg (by simp [Precondition.holds, hd]), if_pos (by simpa [Precondition.holds] using hw)]
    rfl

/-! ### Pushing codes and finishing (R76 to R78) -/

/-- `PushCode(s)` with room for the bytes it completes pushes the symbol's code string, then the command goes on (R77). -/
theorem runToStop_pushCode {op : Byte} {s : State} {a : Sym} {after : AfterPush} {t : Task}
    (hnext : ∀ u, after.next u = .go t u) (w : WriterOk s)
    (room : roomFor s ((s.wcnt.toNat + (s.codeBits a).length) / 8)) :
    runToStop op (pushCode s a after) s = runToStop op t (writeBits s (s.codeBits a)) := by
  rw [State.codeBits, bits_length] at room
  have hpush := runToStop_of_turns fun m => runTask_push op (s.codeOf a) after (s.lenOf a).toNat m s w room
  exact hpush.trans (runToStop_go (hnext _))

/-- After a pushed string `Finish()` pads it to a byte, and the command ends (R78). -/
theorem runToStop_finish {op : Byte} {s : State} {c : List Bool}
    (room : roomFor s ((s.wcnt.toNat + c.length + 7) / 8)) :
    runToStop op .finish (writeBits s c) = (flushBits s c).endCommand := by
  have hroom : roomFor (writeBits s c) (((writeBits s c).wcnt.toNat + 0 + 7) / 8) := roomFor_writeBits room
  have hfinish : Task.finish.step (writeBits s c) = .done (flushBits s c) := by
    rw [Task.step, stepFinish, finish_flushes (writeBits_pending s c).2 hroom, flushBits_writeBits]
  rw [runToStop_done hfinish]

/-! ### WTAB (R152) -/

theorem allSyms_drop {k : Nat} (h : k < 256) : allSyms.drop k = BitVec.ofNat 8 k :: allSyms.drop (k + 1) := by
  rw [List.drop_eq_getElem_cons (by rwa [allSyms_length]), allSyms_getElem]

/-- A turn of WTAB's loop pushes the code string of its symbol, which is empty when the symbol has no code. -/
theorem runToStop_wtab_turn {op : Byte} {s : State} {k : Nat} (hk : k < 256) (w : WriterOk s)
    (room : roomFor s ((s.wcnt.toNat + (s.codeBits (BitVec.ofNat 8 k)).length) / 8)) :
    runToStop op (.wtab k) s = runToStop op (.wtab (k + 1)) (writeBits s (s.codeBits (BitVec.ofNat 8 k))) := by
  cases hcoded : s.coded (BitVec.ofNat 8 k) with
  | true =>
    have hstep : (Task.wtab k).step s = .go (pushCode s (BitVec.ofNat 8 k) (.wtab (k + 1))) s := by
      rw [Task.step, stepWtab, if_pos hk, if_pos hcoded]
    rw [runToStop_go hstep, runToStop_pushCode (fun _ => rfl) w room]
  | false =>
    have hstep : (Task.wtab k).step s = .go (.wtab (k + 1)) s := by
      rw [Task.step, stepWtab, if_pos hk, if_neg (by simp [hcoded])]
    rw [runToStop_go hstep, codeBits_of_not_coded hcoded, writeBits_nil w]

/-- WTAB's loop from symbol `k` on pushes the code strings of these symbols. -/
theorem runToStop_wtab (op : Byte) : ∀ j k s, k + j = 256 → WriterOk s →
    roomFor s ((s.wcnt.toNat + ((allSyms.drop k).flatMap s.codeBits).length) / 8) →
    runToStop op (.wtab k) s = runToStop op .finish (writeBits s ((allSyms.drop k).flatMap s.codeBits)) := by
  intro j
  induction j with
  | zero =>
    intro k s hk w _
    cases hk
    rw [List.drop_of_length_le allSyms_length.le, List.flatMap_nil, writeBits_nil w]
    exact runToStop_go rfl
  | succ j ih =>
    intro k s hk w room
    have hlt : k < 256 := by omega
    rw [allSyms_drop hlt, List.flatMap_cons, List.length_append] at room
    have hrest := ih (k + 1) (writeBits s (s.codeBits (BitVec.ofNat 8 k))) (by omega) (writeBits_pending s _).2
      (roomFor_writeBits (p := 0) room)
    rw [codeBits_writeBits, writeBits_append, ← List.flatMap_cons, ← allSyms_drop hlt] at hrest
    rw [runToStop_wtab_turn hlt w (room.mono (by omega)), hrest]

/-- WTAB with room for its bytes flushes the table's bits behind the pending ones. -/
theorem exec_wtab_of_room {s : State} (hidle : s.engine = .idle) (hd : s.dictValid = true) (w : WriterOk s)
    (room : roomFor s ((s.wcnt.toNat + (tableBits s).length + 7) / 8)) :
    exec .wtab s = .next (flushBits s (tableBits s)) := by
  rw [exec_eq_runToStop (i := .wtab) rfl hd trivial]
  refine congrArg Host.Outcome.next ?_
  have htable : (allSyms.drop 0).flatMap s.codeBits = tableBits s := (tableBits_eq s).symm
  have hloop := runToStop_wtab Opcode.wtab.code 256 0 s rfl w (room.mono (by rw [htable]; omega))
  rw [htable, runToStop_finish room, endCommand_of_idle (s := flushBits s _) hidle] at hloop
  exact hloop

/-- Settles O39: the loop pushes every symbol's code string and then finishes, which leaves the bytes of the padded table. -/
theorem wtabEmitsTheTable : Obligations.WtabEmitsTheTable := by
  refine ⟨by decide, fun s hidle hd w room => ?_, tableBits_length, fun s hd => ?_, badFieldsRaise _⟩
  · exact ⟨exec_wtab_of_room hidle hd w room, fun h0 => flushBits_outq_length_of_empty h0 _⟩
  · rw [exec, execWtab, if_pos (by simp [Precondition.holds, hd])]
    rfl

/-! ### ENC (R153) -/

theorem takeBytes_zero (s : State) : takeBytes s 0 = s := by
  simp [takeBytes]

/-- `InByte` takes one byte (R74). -/
theorem takeIn_eq_takeBytes {s : State} {b : Byte} {rest : List Byte} (h : s.inq = b :: rest) :
    s.takeIn rest = takeBytes s 1 := by
  simp only [takeBytes, State.takeIn, h, List.drop_succ_cons, List.drop_zero]
  rfl

/-- Taking some bytes and then others (R74). -/
theorem takeBytes_add (s : State) (m n : Nat) : takeBytes (takeBytes s m) n = takeBytes s (m + n) := by
  simp only [takeBytes, List.drop_drop, BitVec.ofNat_add, BitVec.add_assoc]

/-- The bytes taken and the bits pushed do not meet. -/
theorem writeBits_takeBytes (s : State) (n : Nat) (c : List Bool) :
    writeBits (takeBytes s n) c = takeBytes (writeBits s c) n := rfl

theorem step_enc_coded {s : State} {b : Byte} {rest : List Byte} (hq : s.inq = b :: rest) (hcoded : s.coded b = true) :
    Task.enc.step s = .go (pushCode (s.takeIn rest) b .enc) (s.takeIn rest) := by
  have hbyte : s.inByte = .byte b (s.takeIn rest) := State.inByte_byte.2 ⟨rest, hq, rfl⟩
  simp only [Task.step, stepEnc, hbyte]
  exact if_pos hcoded

theorem step_enc_noCode {s : State} {b : Byte} {rest : List Byte} (hq : s.inq = b :: rest) (hb : s.coded b = false) :
    Task.enc.step s = .raise .noCode (b.setWidth 32) (s.takeIn rest) := by
  have hbyte : s.inByte = .byte b (s.takeIn rest) := State.inByte_byte.2 ⟨rest, hq, rfl⟩
  simp only [Task.step, stepEnc, hbyte]
  exact if_neg (ne_true_of_eq_false hb)

theorem step_enc_ended {s : State} (hq : s.inq = []) (heos : s.ineos = true) : Task.enc.step s = .go .finish s := by
  have hbyte : s.inByte = .exhausted := State.inByte_exhausted.2 ⟨hq, heos⟩
  simp only [Task.step, stepEnc, hbyte]

/-- A turn of ENC's loop at a coded byte takes the byte and pushes its code string. -/
theorem runToStop_enc_turn {op : Byte} {s : State} {b : Byte} {rest : List Byte} (hq : s.inq = b :: rest)
    (hcoded : s.coded b = true) (w : WriterOk s) (room : roomFor s ((s.wcnt.toNat + (s.codeBits b).length) / 8)) :
    runToStop op .enc s = runToStop op .enc (writeBits (s.takeIn rest) (s.codeBits b)) := by
  rw [runToStop_go (step_enc_coded hq hcoded)]
  exact runToStop_pushCode (s := s.takeIn rest) (fun _ => rfl) w room

/-- ENC's loop over coded bytes at the head of IN takes them and pushes their code strings in stream order. -/
theorem runToStop_enc (op : Byte) : ∀ (good rest : List Byte) (s : State), s.inq = good ++ rest →
    (∀ x ∈ good, s.coded x = true) → WriterOk s → roomFor s ((s.wcnt.toNat + (payloadBits s good).length) / 8) →
    runToStop op .enc s = runToStop op .enc (writeBits (takeBytes s good.length) (payloadBits s good)) := by
  intro good
  induction good with
  | nil =>
    intro rest s _ _ w _
    rw [List.length_nil, takeBytes_zero, payloadBits_nil, writeBits_nil w]
  | cons b good ih =>
    intro rest s hq hcoded w room
    rw [List.cons_append] at hq
    rw [payloadBits_cons, List.length_append] at room
    have hrest := ih rest (writeBits (s.takeIn (good ++ rest)) (s.codeBits b)) rfl
      (fun x hx => hcoded x (List.mem_cons_of_mem b hx)) (writeBits_pending _ _).2
      (roomFor_writeBits (s := s.takeIn (good ++ rest)) (p := 0) room)
    rw [runToStop_enc_turn hq (hcoded b List.mem_cons_self) w (room.mono (by omega)), hrest, List.length_cons,
      Nat.add_comm, ← takeBytes_add, ← takeIn_eq_takeBytes hq, payloadBits_cons, ← writeBits_append]
    rfl

/-- Settles O40: the loop pushes the code string of every byte of IN, and at the end of input it finishes. -/
theorem encEmitsThePayload : Obligations.EncEmitsThePayload := by
  intro s hidle hd w heos hcoded room
  rw [exec_eq_runToStop (i := .enc) rfl hd trivial]
  refine congrArg Host.Outcome.next ?_
  have hempty : (takeBytes s s.inq.length).inq = [] := List.drop_length
  have hloop := runToStop_enc Opcode.enc.code s.inq [] s (List.append_nil _).symm hcoded w (room.mono (by omega))
  rw [runToStop_go (step_enc_ended (s := writeBits (takeBytes s s.inq.length) _) hempty heos),
    runToStop_finish (s := takeBytes s s.inq.length) room,
    endCommand_of_idle (s := flushBits (takeBytes s s.inq.length) _) hidle] at hloop
  refine hloop.trans ?_
  rw [flushBits_eq, flushBits_eq, hempty]
  rfl

/-- Settles O41: the loop pushes the code strings of the coded bytes, and takes the byte without a code before it raises. -/
theorem encNoCode : Obligations.EncNoCode := by
  intro s good b rest hidle hd w hq hcoded hb room
  rw [exec_eq_runToStop (i := .enc) rfl hd trivial]
  refine congrArg Host.Outcome.next ?_
  have hrest : (takeBytes (writeBits s (payloadBits s good)) good.length).inq = b :: rest := by
    rw [takeBytes, ← List.drop_left (l₁ := good) (l₂ := b :: rest), ← hq]
    rfl
  have hloop := runToStop_enc Opcode.enc.code good (b :: rest) s hq hcoded w room
  rw [writeBits_takeBytes, runToStop_raise (step_enc_noCode hrest hb), takeIn_eq_takeBytes hrest, takeBytes_add] at hloop
  exact hloop

end Sys2Proof.Machine
end

section
/-! PROOF. COMPRESS emits the container of its input (43_container_write.md R154): WPRE, WTAB and ENC do under any dictionary
with a code for each byte, and BUILD and ASSIGN make one. -/

namespace Sys2Proof.Machine

/-- Commands after others run from the state these leave (R82). -/
theorem execAll_append {s t : State} : ∀ {is js : List Instr}, execAll is s = .next t →
    execAll (is ++ js) s = execAll js t := by
  intro is
  induction is generalizing s with
  | nil => intro js h; cases h; rfl
  | cons i is ih =>
    intro js h
    rw [execAll] at h
    rw [List.cons_append, execAll]
    cases hi : exec i s with
    | next u => rw [hi] at h; exact ih h
    | fault f => rw [hi] at h; cases h
    | refused r => rw [hi] at h; cases h

/-- Emitting bytes does not change the dictionary. -/
theorem tableBits_emitBytes (s : State) (bytes : List Byte) : tableBits (emitBytes s bytes) = tableBits s := rfl

theorem payloadBits_emitBytes (s : State) (bytes : List Byte) :
    payloadBits (emitBytes s bytes) (emitBytes s bytes).inq = payloadBits s s.inq := rfl

/-- A container is read off `LEN`, `CODE` and the input alone (R150). -/
theorem containerOf_congr {s t : State} (hl : t.len = s.len) (hc : t.code = s.code) :
    containerOf t = containerOf s := by
  have hdict := State.codeBits_congr hl hc
  have hlen : t.lenOf = s.lenOf := funext fun a => by simp only [hdict]
  have hcoded : t.coded = s.coded := funext fun a => by simp only [hdict]
  have hbits : t.codeBits = s.codeBits := funext fun a => by simp only [hdict]
  funext input
  simp only [containerOf, preambleBytes, tableBits, codedSyms, payloadBits, hlen, hcoded, hbits]

/-- The state the writers leave when they have emitted the container of the queued bytes. -/
def containerWritten (s : State) : State :=
  { s with
    outq := s.outq ++ containerOf s s.inq, outcnt := s.outcnt + BitVec.ofNat 32 (containerOf s s.inq).length
    inq := [], incnt := s.incnt + BitVec.ofNat 32 s.inq.length }

@[simp] theorem containerWritten_len (s : State) : (containerWritten s).len = s.len := rfl
@[simp] theorem containerWritten_code (s : State) : (containerWritten s).code = s.code := rfl
@[simp] theorem containerWritten_wcnt (s : State) : (containerWritten s).wcnt = s.wcnt := rfl
@[simp] theorem containerWritten_err (s : State) : (containerWritten s).err = s.err := rfl
@[simp] theorem containerWritten_inq (s : State) : (containerWritten s).inq = [] := rfl
@[simp] theorem containerWritten_outq (s : State) : (containerWritten s).outq = s.outq ++ containerOf s s.inq := rfl

theorem containerOf_containerWritten (s : State) : containerOf (containerWritten s) = containerOf s :=
  containerOf_congr (containerWritten_len s) (containerWritten_code s)

/-- An idle block with a dictionary and an empty writer: where each section of a container begins (R150). -/
structure ReadyToWrite (s : State) : Prop where
  idle : s.engine = .idle
  dict : s.dictValid = true
  wcnt : s.wcnt = 0
  wacc : s.wacc = 0

section ReadyToWrite
variable {s : State} (h : ReadyToWrite s)
include h

/-- Emitting a section leaves the block ready for the next one. -/
theorem ReadyToWrite.emitBytes (bytes : List Byte) : ReadyToWrite (emitBytes s bytes) :=
  ⟨h.idle, h.dict, h.wcnt, h.wacc⟩

theorem ReadyToWrite.exec_wtab (room : roomFor s (packBytes (padToByte (tableBits s))).length) :
    exec .wtab s = .next (Machine.emitBytes s (packBytes (padToByte (tableBits s)))) := by
  rw [packBytes_padToByte_length] at room
  rw [exec_wtab_of_room h.idle h.dict (writerOk_of_empty h.wcnt h.wacc) (roomFor_of_empty h.wcnt room),
    flushBits_of_empty h.wcnt h.wacc]

theorem ReadyToWrite.exec_enc (heos : s.ineos = true) (hcoded : ∀ b ∈ s.inq, s.coded b = true)
    (room : roomFor s (packBytes (padToByte (payloadBits s s.inq))).length) :
    exec .enc s = .next { Machine.emitBytes s (packBytes (padToByte (payloadBits s s.inq))) with
      inq := [], incnt := s.incnt + BitVec.ofNat 32 s.inq.length } := by
  rw [packBytes_padToByte_length] at room
  rw [encEmitsThePayload s h.idle h.dict (writerOk_of_empty h.wcnt h.wacc) heos hcoded (roomFor_of_empty h.wcnt room),
    flushBits_of_empty h.wcnt h.wacc]

/-- WPRE, WTAB and ENC under any dictionary emit the container of the queued bytes, section by section. -/
theorem ReadyToWrite.execAll_writers (heos : s.ineos = true) (hcoded : ∀ b ∈ s.inq, s.coded b = true)
    (room : roomFor s (containerOf s s.inq).length) :
    execAll [.wpre, .wtab, .enc] s = .next (containerWritten s) := by
  rw [containerOf, List.length_append, List.length_append, Nat.add_assoc] at room
  have hwpre := exec_wpre_of_room h.idle h.dict h.wcnt
    (room.mono (by rw [preambleBytes_length]; exact Nat.le_add_right ..))
  have hwtab := (h.emitBytes (preambleBytes s)).exec_wtab
  rw [tableBits_emitBytes, emitBytes_append] at hwtab
  have henc := (h.emitBytes (preambleBytes s ++ packBytes (padToByte (tableBits s)))).exec_enc heos hcoded
  rw [payloadBits_emitBytes, emitBytes_append] at henc
  have room' := roomFor_emitBytes room
  have room'' := roomFor_emitBytes room'
  rw [emitBytes_append] at room''
  simp only [execAll, hwpre, hwtab (room'.mono (Nat.le_add_right ..)), henc room'']
  rfl

end ReadyToWrite

/-- BUILD and ASSIGN on a weight that is not 0 make a dictionary of the symbols that occur. They leave the writer, the
streams and `ERR` as they were. -/
theorem execAll_build_assign_ready {s : State} (hidle : s.engine = .idle) (hcnt : s.wcnt = 0) (hacc : s.wacc = 0)
    (hsym : ∃ sym, s.freqOf sym ≠ 0) :
    ∃ d, execAll [.build, .assign] s = .next d ∧ (∀ sym, d.coded sym = true ↔ s.freqOf sym ≠ 0) ∧ ReadyToWrite d ∧
      d.inq = s.inq ∧ d.ineos = s.ineos ∧ d.outq = s.outq ∧ d.params = s.params ∧ d.err = s.err := by
  obtain ⟨u, tree, hbuild, hspells, hperm, -, -, -, hframe⟩ := buildMakesTheTree s hidle hsym
  have hidle' : u.engine = .idle := by rw [hframe]; exact hidle
  have hv : u.treeValid = true := by rw [hframe]
  have hnd : tree.leaves.Nodup := hperm.nodup_iff.2 (occurring_nodup s)
  refine ⟨assignedState u tree, ?_, fun sym => ?_, ?_⟩
  · simp only [execAll, hbuild, exec_assign_of_spells hidle' hv hspells hnd]
  · simp only [entry_assignedState, coded_treeDict hnd, hperm.mem_iff, mem_occurring]
  · rw [assignedState_frame, hframe]
    exact ⟨⟨hidle, rfl, hcnt, hacc⟩, rfl, rfl, rfl, rfl, rfl⟩

/-- Settles O53: BUILD and ASSIGN give every byte of the input a code, and then the writers emit the container. -/
theorem compressEmitsTheContainer : Obligations.CompressEmitsTheContainer := by
  intro s input h room
  obtain ⟨hidle, hne, hcount, ⟨hcnt, hacc⟩, hq, heos⟩ := h
  have hoccurs : ∀ b ∈ input, s.freqOf b ≠ 0 := fun b hb h0 => by
    have := List.count_pos_iff.2 hb
    rw [← hcount, h0] at this
    exact absurd this (by decide)
  obtain ⟨b, hb⟩ := List.exists_mem_of_ne_nil input hne
  obtain ⟨d, hexec, hcoded, hready, hin, heos', hout, hparams, herr⟩ :=
    execAll_build_assign_ready hidle hcnt hacc ⟨b, hoccurs b hb⟩
  rw [hq] at hin
  rw [heos] at heos'
  have hroom : roomFor d (containerOf d input).length := by
    have htable := tableBits_length_le d
    have hpayload : (payloadBits d input).length ≤ 255 * input.length := flatMap_codeBits_length_le d input
    rw [roomFor, hout, hparams, containerOf_length]
    exact room.mono (by omega)
  have hwriters := hready.execAll_writers heos' (by rw [hin]; exact fun b hb => (hcoded b).2 (hoccurs b hb))
    (by rw [hin]; exact hroom)
  refine ⟨containerWritten d, (execAll_append hexec).trans hwriters, ?_, ?_, containerWritten_inq d, ?_, ?_⟩
  · rw [containerWritten_outq, containerOf_containerWritten, hin, hout]
  · rw [containerWritten_err, herr]
  · rw [containerWritten_wcnt, hready.wcnt]
  · rw [containerOf_length, payloadBits_length]
    simp only [hcount]

end Sys2Proof.Machine
end

section
/-! PROOF. RPRE reads the preamble (44_container_read.md R171): every turn of its loop takes the next byte of IN as the
next length. -/

namespace Sys2Proof.Machine

/-- A symbol that a loop counts is its own number (R9). -/
theorem toNat_ofNat_sym {k : Nat} (h : k < 256) : (BitVec.ofNat 8 k).toNat = k := Nat.mod_eq_of_lt h

/-- The state RPRE works in, with the lengths `len` written so far: no codes and no valid dictionary (R171). -/
def withLengths (s : State) (len : Vector Byte 256) : State :=
  { s with len := len, code := Vector.replicate 256 0, maxlen := 0, preValid := false, dictValid := false }

section WithLengths
variable (s : State) (len : Vector Byte 256)

@[simp] theorem withLengths_inq : (withLengths s len).inq = s.inq := rfl
@[simp] theorem withLengths_ineos : (withLengths s len).ineos = s.ineos := rfl
@[simp] theorem withLengths_engine : (withLengths s len).engine = s.engine := rfl

theorem codeOf_withLengths (a : Sym) : (withLengths s len).codeOf a = 0 := by
  simp [State.codeOf, withLengths]

/-- Taking a byte as the length of symbol `k` (R171). -/
theorem setLen_takeBytes_withLengths {k : Nat} (h : k < 256) (b : Byte) :
    (takeBytes (withLengths s len) 1).setLen (BitVec.ofNat 8 k) b = withLengths (takeBytes s 1) (len.set k b) := by
  simp only [State.setLen, toNat_ofNat_sym h]
  rfl

end WithLengths

theorem preambleTaken_eq (s : State) (n : Nat) : preambleTaken s n = withLengths (takeBytes s n) (lengthsRead s n) := by
  rw [preambleTaken, withLengths]

theorem preambleTaken_inq (s : State) (n : Nat) : (preambleTaken s n).inq = s.inq.drop n := by
  rw [preambleTaken_eq, withLengths_inq, takeBytes]

theorem preambleTaken_ineos (s : State) (n : Nat) : (preambleTaken s n).ineos = s.ineos := by
  rw [preambleTaken_eq, withLengths_ineos, takeBytes]

theorem preambleTaken_engine (s : State) (n : Nat) : (preambleTaken s n).engine = s.engine := by
  rw [preambleTaken_eq, withLengths_engine, takeBytes]

/-- Before its loop RPRE has taken no byte. -/
theorem setUp_rpre (s : State) : setUp .rpre s = preambleTaken s 0 := by
  have hlen : lengthsRead s 0 = Vector.replicate 256 0 := by
    ext i hi
    simp [lengthsRead]
  rw [preambleTaken_eq, takeBytes_zero, hlen]
  rfl

/-- One byte more of IN is one length more. -/
theorem lengthsRead_succ {s : State} {k : Nat} {b : Byte} (hk : k < 256) (hb : s.inq[k]? = some b) :
    lengthsRead s (k + 1) = (lengthsRead s k).set k b := by
  ext i hi
  simp only [lengthsRead, Vector.getElem_ofFn, Vector.getElem_set, List.getD_eq_getElem?_getD, List.getElem?_take]
  by_cases h : k = i
  · subst h; simp [hb]
  · simp [h, show i < k + 1 ↔ i < k by omega]

/-- A turn of RPRE's loop with a byte on IN takes it as the length of its symbol. -/
theorem step_rpre_byte {s : State} {k : Nat} (hk : k < 256) (hin : k < s.inq.length) :
    (Task.rpre k).step (preambleTaken s k) = .go (.rpre (k + 1)) (preambleTaken s (k + 1)) := by
  have hq : (preambleTaken s k).inq = s.inq[k] :: s.inq.drop (k + 1) := by
    rw [preambleTaken_inq, List.drop_eq_getElem_cons hin]
  have hbyte := State.inByte_byte.2 ⟨_, hq, rfl⟩
  have hset : ((preambleTaken s k).takeIn (s.inq.drop (k + 1))).setLen (BitVec.ofNat 8 k) s.inq[k] =
      preambleTaken s (k + 1) := by
    rw [takeIn_eq_takeBytes hq, preambleTaken_eq, setLen_takeBytes_withLengths _ _ hk, takeBytes_add,
      ← lengthsRead_succ hk (List.getElem?_eq_getElem hin), ← preambleTaken_eq]
  simp only [Task.step, stepRpre, if_pos hk, hbyte, hset]

/-- RPRE's loop over the first `k` bytes of IN. -/
theorem runToStop_rpre (op : Byte) (s : State) : ∀ k ≤ 256, k ≤ s.inq.length →
    runToStop op (.rpre 0) (preambleTaken s 0) = runToStop op (.rpre k) (preambleTaken s k) := by
  intro k
  induction k with
  | zero => intro _ _; rfl
  | succ k ih =>
    intro hk hin
    rw [ih (by omega) (by omega), runToStop_go (step_rpre_byte (by omega) (by omega))]

/-- RPRE with its reader on a byte boundary takes any `k` bytes at the front of IN, up to 256, and is at symbol `k`. -/
theorem exec_rpre_of_aligned {s : State} (h : s.rmask = 0) {k : Nat} (hk : k ≤ 256) (hin : k ≤ s.inq.length) :
    exec .rpre s = .next (runToStop 0x30 (.rpre k) (preambleTaken s k)) := by
  rw [exec_eq_runToStop (i := .rpre) rfl h trivial, setUp_rpre, runToStop_rpre _ s k hk hin]
  rfl

/-- The state RPRE leaves on a whole preamble (R171). -/
def preambleRead (s : State) : State := { preambleTaken s 256 with preValid := true }

/-- RPRE on 256 bytes makes the preamble valid. -/
theorem exec_rpre_of_preamble {s : State} (hidle : s.engine = .idle) (h : s.rmask = 0) (hin : 256 ≤ s.inq.length) :
    exec .rpre s = .next (preambleRead s) := by
  have hdone : (Task.rpre 256).step (preambleTaken s 256) = .done (preambleRead s) := rfl
  have hidle' : (preambleRead s).engine = .idle := (preambleTaken_engine s 256).trans hidle
  rw [exec_rpre_of_aligned h le_rfl hin, runToStop_done hdone, endCommand_of_idle hidle']

/-- Settles O45: RPRE's loop takes the bytes there are; then it is done, raises or holds. -/
theorem rpreReadsThePreamble : Obligations.RpreReadsThePreamble := by
  refine ⟨by decide, badFieldsRaise _, fun s hmask => ?_, fun s hidle hmask =>
    ⟨exec_rpre_of_preamble hidle hmask, fun hshort heos => ?_, fun hshort heos => ?_⟩⟩
  · rw [exec, execRpre, if_pos (by simpa [Precondition.holds] using hmask)]
    rfl
  all_goals
    have hempty : (preambleTaken s s.inq.length).inq = [] := by rw [preambleTaken_inq, List.drop_length]
    rw [← preambleTaken_ineos s s.inq.length] at heos
    rw [exec_rpre_of_aligned hmask hshort.le le_rfl]
  · have hbyte := State.inByte_exhausted.2 ⟨hempty, heos⟩
    have hraise : (Task.rpre s.inq.length).step (preambleTaken s s.inq.length) =
        .raise .shortPreamble (BitVec.ofNat 32 s.inq.length) (preambleTaken s s.inq.length) := by
      simp only [Task.step, stepRpre, if_pos hshort, hbyte]
    rw [runToStop_raise hraise]
  · have hhold : (Task.rpre s.inq.length).step (preambleTaken s s.inq.length) = .hold :=
      Task.step_hold.2 ⟨hshort, hempty, heos⟩
    rw [runToStop, runTask_hold hhold]

end Sys2Proof.Machine
end

section
/-! PROOF. RTAB reads the codeword table (44_container_read.md R172): its loop reads the code strings of the coded symbols
one after the other, and then looks for the first prefix conflict. -/

namespace Sys2Proof.Machine

/-! ### Bits appended to a register (R172, R173) -/

/-- The register that holds a bit string of at most 256 bits. -/
def codeWord (c : List Bool) : CodeWord := BitVec.ofNat 256 (val c)

theorem codeWord_toNat {c : List Bool} (h : c.length ≤ 256) : (codeWord c).toNat = val c := by
  rw [codeWord, BitVec.toNat_ofNat, Nat.mod_eq_of_lt]
  exact (val_lt c).trans_le (Nat.pow_le_pow_right (by norm_num) h)

/-- `2·c + bit` holds the string with the bit at its end. -/
theorem appendBit_codeWord {c : List Bool} (b : Bool) (h : c.length ≤ 255) :
    appendBit (codeWord c) b = codeWord (c ++ [b]) := by
  have hlt : (codeWord c).toNat < 2 ^ 255 := by
    rw [codeWord_toNat (by omega)]
    exact (val_lt c).trans_le (Nat.pow_le_pow_right (by norm_num) h)
  apply BitVec.eq_of_toNat_eq
  have hlen : (c ++ [b]).length ≤ 256 := by
    rw [List.length_append]
    exact Nat.succ_le_succ h
  rw [appendBit_toNat _ _ hlt, codeWord_toNat (by omega), codeWord_toNat hlen, val_concat]

/-! ### Reading bits writes the reader and IN alone (R79) -/

theorem afterBits_frame (s : State) (n : Nat) : afterBits s n =
    { s with
      inq := (afterBits s n).inq, incnt := (afterBits s n).incnt, rbyte := (afterBits s n).rbyte
      rmask := (afterBits s n).rmask } := by
  by_cases h : n ≤ unreadCount s
  · rw [afterBits_le h]
  · rw [afterBits_gt (Nat.lt_of_not_le h)]

theorem afterBits_len (s : State) (n : Nat) : (afterBits s n).len = s.len := by rw [afterBits_frame]

theorem lenOf_afterBits (s : State) (n : Nat) (a : Sym) : (afterBits s n).lenOf a = s.lenOf a := by
  rw [State.lenOf, State.lenOf, afterBits_len]

theorem lenOf_rAlign (s : State) : s.rAlign.lenOf = s.lenOf := rfl

theorem afterBits_code (s : State) (n : Nat) : (afterBits s n).code = s.code := by rw [afterBits_frame]

theorem afterBits_ineos (s : State) (n : Nat) : (afterBits s n).ineos = s.ineos := by rw [afterBits_frame]

/-! ### The table's codes (R172) -/

/-- `CODE` replaced as a whole. -/
def withCodes (s : State) (codes : Vector CodeWord 256) : State := { s with code := codes }

section WithCodes
variable (s : State) (codes : Vector CodeWord 256)

@[simp] theorem codeOf_withCodes (a : Sym) : (withCodes s codes).codeOf a = codes[a.toNat] := rfl
@[simp] theorem withCodes_lenOf : (withCodes s codes).lenOf = s.lenOf := rfl
@[simp] theorem withCodes_engine : (withCodes s codes).engine = s.engine := rfl
@[simp] theorem withCodes_ineos : (withCodes s codes).ineos = s.ineos := rfl
@[simp] theorem inputBits_withCodes : inputBits (withCodes s codes) = inputBits s := rfl

theorem rAlign_withCodes : (withCodes s codes).rAlign = withCodes s.rAlign codes := rfl

theorem withCodes_self : withCodes s s.code = s := rfl

theorem readerOk_withCodes : ReaderOk (withCodes s codes) ↔ ReaderOk s := Iff.rfl

theorem afterBits_withCodes (n : Nat) :
    afterBits (withCodes s codes) n = withCodes (afterBits s n) codes := by
  by_cases h : n ≤ unreadCount s
  · rw [afterBits_le h, afterBits_le (s := withCodes s codes) h]
    rfl
  · rw [afterBits_gt (Nat.lt_of_not_le h), afterBits_gt (s := withCodes s codes) (Nat.lt_of_not_le h)]
    rfl

theorem setCode_withCodes {k : Nat} (h : k < 256) (c : CodeWord) :
    (withCodes s codes).setCode (BitVec.ofNat 8 k) c = withCodes s (codes.set k c) := by
  simp only [State.setCode, toNat_ofNat_sym h]
  rfl

end WithCodes

@[simp] theorem tableOffset_zero (s : State) : tableOffset s 0 = 0 := rfl

theorem tableOffset_succ (s : State) {k : Nat} (h : k < 256) :
    tableOffset s (k + 1) = tableOffset s k + (s.lenOf (BitVec.ofNat 8 k)).toNat := by
  have hlt : k < allSyms.length := by rwa [allSyms_length]
  simp only [tableOffset, List.take_succ_eq_append_getElem hlt, allSyms_getElem, List.map_append, List.sum_append,
    List.map_singleton, List.sum_singleton]

theorem tableOffset_mono (s : State) {j k : Nat} (h : j ≤ k) (hk : k ≤ 256) : tableOffset s j ≤ tableOffset s k := by
  induction k with
  | zero => rw [Nat.le_zero.1 h]
  | succ k ih =>
    rcases Nat.le_succ_iff.1 h with h | rfl
    · rw [tableOffset_succ s (by omega)]
      exact (ih h (by omega)).trans (Nat.le_add_right _ _)
    · rfl

/-- The code of a symbol on a table that holds it whole has the symbol's length. -/
theorem tableCode_length {s : State} {a : Sym} (h : tableOffset s (a.toNat + 1) ≤ (inputBits s).length) :
    (tableCode s a).length = (s.lenOf a).toNat := by
  have hsucc := tableOffset_succ s a.isLt
  rw [BitVec.ofNat_toNat, BitVec.setWidth_eq] at hsucc
  rw [tableCode, List.length_take, List.length_drop]
  omega

theorem codesRead_zero (s : State) : codesRead s 0 = s.code := by
  ext i hi
  simp [codesRead, State.codeOf]

theorem codesRead_succ_of_coded {s : State} {k : Nat} (h : k < 256) (hcoded : s.coded (BitVec.ofNat 8 k) = true) :
    codesRead s (k + 1) = (codesRead s k).set k (codeWord (tableCode s (BitVec.ofNat 8 k))) := by
  ext1 i hi
  simp only [codesRead, Vector.getElem_ofFn, Vector.getElem_set]
  by_cases hik : k = i
  · subst hik
    rw [if_pos ⟨Nat.lt_succ_self k, hcoded⟩, if_pos rfl, codeWord]
  · rw [if_neg hik]
    simp only [show i < k + 1 ↔ i < k by omega]

theorem codesRead_succ_of_not_coded {s : State} {k : Nat} (hcoded : s.coded (BitVec.ofNat 8 k) = false) :
    codesRead s (k + 1) = codesRead s k := by
  ext1 i hi
  simp only [codesRead, Vector.getElem_ofFn]
  by_cases hik : i = k
  · subst hik
    simp [hcoded]
  · simp only [show i < k + 1 ↔ i < k by omega]

/-! ### RTAB's loop (R172) -/

/-- What RTAB has read before symbol `k`: the codes of the symbols below it. -/
def tableState (s : State) (k : Nat) : State := withCodes (afterBits s (tableOffset s k)) (codesRead s k)

theorem tableState_zero (s : State) : tableState s 0 = s := by
  rw [tableState, tableOffset_zero, afterBits_zero, codesRead_zero, withCodes_self]

theorem lenOf_tableState (s : State) (k : Nat) (a : Sym) : (tableState s k).lenOf a = s.lenOf a := by
  rw [tableState, withCodes_lenOf, lenOf_afterBits]

theorem coded_tableState (s : State) (k : Nat) (a : Sym) : (tableState s k).coded a = s.coded a := by
  rw [State.coded, State.coded, lenOf_tableState]

theorem readerOk_tableState {s : State} (hr : ReaderOk s) (k : Nat) : ReaderOk (tableState s k) :=
  (readerOk_withCodes _ _).2 (afterBits_ok hr (tableOffset s k))

theorem inputBits_tableState {s : State} (hr : ReaderOk s) {k : Nat} (hin : tableOffset s k ≤ (inputBits s).length) :
    inputBits (tableState s k) = (inputBits s).drop (tableOffset s k) := by
  rw [tableState, inputBits_withCodes, inputBits_afterBits hr _ hin]

/-- RTAB inside a code reads `n` more bits into its register, first bit highest. -/
theorem runToStop_rtabCode (op : Byte) (sym : Sym) (m : Nat) : ∀ n c s, ReaderOk s → n ≤ (inputBits s).length →
    c.length + n ≤ 255 → runToStop op (.rtabCode sym (m + n) (codeWord c)) s =
      runToStop op (.rtabCode sym m (codeWord (c ++ (inputBits s).take n))) (afterBits s n) := by
  intro n
  induction n with
  | zero => intro c s _ _ _; rw [afterBits_zero, List.take_zero, List.append_nil, Nat.add_zero]
  | succ n ih =>
    intro c s hr hin hc
    cases hbits : inputBits s with
    | nil => rw [hbits] at hin; exact absurd hin (Nat.not_succ_le_zero n)
    | cons b rest =>
      obtain ⟨hnext, hrest⟩ := nextBit_reads hr hbits
      have hstep : (Task.rtabCode sym (m + n + 1) (codeWord c)).step s =
          .go (.rtabCode sym (m + n) (codeWord (c ++ [b]))) (afterBits s 1) := by
        simp only [Task.step, stepRtabCode, hnext, appendBit_codeWord b (show c.length ≤ 255 by omega)]
      rw [hbits, List.length_cons] at hin
      have hlen : (c ++ [b]).length + n ≤ 255 := by
        rw [List.length_append, List.length_singleton]
        omega
      rw [← Nat.add_assoc, runToStop_go hstep, ih (c ++ [b]) _ (afterBits_ok hr 1) (by rw [hrest]; omega) hlen,
        afterBits_add hr, hrest, List.append_assoc, Nat.add_comm 1 n]
      rfl

/-- At a coded symbol RTAB begins its code; `n` of its bits are on the input. -/
theorem runToStop_rtab_coded {op : Byte} {s : State} (hr : ReaderOk s) {k m n : Nat} (hk : k < 256)
    (hcoded : s.coded (BitVec.ofNat 8 k) = true) (hlen : (s.lenOf (BitVec.ofNat 8 k)).toNat = m + n)
    (hin : tableOffset s k + n ≤ (inputBits s).length) :
    runToStop op (.rtab k) (tableState s k) =
      runToStop op (.rtabCode (BitVec.ofNat 8 k) m (codeWord (((inputBits s).drop (tableOffset s k)).take n)))
        (withCodes (afterBits s (tableOffset s k + n)) (codesRead s k)) := by
  have hbound := (s.lenOf (BitVec.ofNat 8 k)).isLt
  have hstep : (Task.rtab k).step (tableState s k) =
      .go (.rtabCode (BitVec.ofNat 8 k) (m + n) (codeWord [])) (tableState s k) := by
    rw [Task.step, stepRtab, if_pos hk, coded_tableState, if_pos hcoded, lenOf_tableState, hlen]
    rfl
  have hbits := inputBits_tableState hr (k := k) (by omega)
  have hread := runToStop_rtabCode op (BitVec.ofNat 8 k) m n [] (tableState s k) (readerOk_tableState hr k)
    (by rw [hbits, List.length_drop]; omega) (by simp only [List.length_nil]; omega)
  rw [runToStop_go hstep, hread, hbits, List.nil_append, tableState, afterBits_withCodes, afterBits_add hr]

/-- A turn of RTAB's loop reads the whole code of its symbol, if it has one. -/
theorem runToStop_rtab_turn {op : Byte} {s : State} (hr : ReaderOk s) {k : Nat} (hk : k < 256)
    (hin : tableOffset s (k + 1) ≤ (inputBits s).length) :
    runToStop op (.rtab k) (tableState s k) = runToStop op (.rtab (k + 1)) (tableState s (k + 1)) := by
  have hsucc := tableOffset_succ s hk
  cases hcoded : s.coded (BitVec.ofNat 8 k) with
  | true =>
    have hread := runToStop_rtab_coded (op := op) hr hk hcoded (Nat.zero_add _).symm (hsucc ▸ hin)
    have hcode : ((inputBits s).drop (tableOffset s k)).take (s.lenOf (BitVec.ofNat 8 k)).toNat =
        tableCode s (BitVec.ofNat 8 k) := by
      rw [tableCode, toNat_ofNat_sym hk]
    have hstep : (Task.rtabCode (BitVec.ofNat 8 k) 0 (codeWord (tableCode s (BitVec.ofNat 8 k)))).step
        (withCodes (afterBits s (tableOffset s (k + 1))) (codesRead s k)) =
        .go (.rtab (k + 1)) (tableState s (k + 1)) := by
      simp only [Task.step, stepRtabCode, toNat_ofNat_sym hk, setCode_withCodes _ _ hk, tableState,
        codesRead_succ_of_coded hk hcoded]
    rw [hread, hcode, ← hsucc, runToStop_go hstep]
  | false =>
    have h0 : s.lenOf (BitVec.ofNat 8 k) = 0 := by simpa [State.coded] using hcoded
    have hsame : tableState s (k + 1) = tableState s k := by
      rw [tableState, tableState, codesRead_succ_of_not_coded hcoded, hsucc, h0]
      simp
    have hstep : (Task.rtab k).step (tableState s k) = .go (.rtab (k + 1)) (tableState s (k + 1)) := by
      rw [Task.step, stepRtab, if_pos hk, coded_tableState, if_neg (ne_true_of_eq_false hcoded), hsame]
    rw [runToStop_go hstep]

/-- RTAB's loop over the symbols below `k`. -/
theorem runToStop_rtab (op : Byte) {s : State} (hr : ReaderOk s) : ∀ k ≤ 256, tableOffset s k ≤ (inputBits s).length →
    runToStop op (.rtab 0) s = runToStop op (.rtab k) (tableState s k) := by
  intro k
  induction k with
  | zero => intro _ _; rw [tableState_zero]
  | succ k ih =>
    intro hk hin
    rw [ih (by omega) ((tableOffset_mono s (Nat.le_succ k) hk).trans hin), runToStop_rtab_turn hr (by omega) hin]

/-- RTAB with a preamble and a code gets to any symbol `k` below which the table is whole. -/
theorem exec_rtab_of_table {s : State} (hp : s.preValid = true) (hc : ∃ sym, s.coded sym = true) (hr : ReaderOk s)
    {k : Nat} (hk : k ≤ 256) (hin : tableOffset s k ≤ (inputBits s).length) :
    exec .rtab s = .next (runToStop 0x31 (.rtab k) (tableState s k)) := by
  rw [exec_eq_runToStop (i := .rtab) rfl ⟨hp, hc⟩ trivial]
  exact congrArg Host.Outcome.next (runToStop_rtab 0x31 hr k hk hin)

/-! ### The prefix conflicts (R172) -/

theorem allSyms_sorted : allSyms.Pairwise fun a b => a.toNat < b.toNat := by
  refine List.pairwise_map.2 (List.pairwise_lt_range.imp_of_mem fun {i j} hi hj hlt => ?_)
  rwa [toNat_ofNat_sym (List.mem_range.1 hi), toNat_ofNat_sym (List.mem_range.1 hj)]

theorem mem_codedSyms {s : State} {a : Sym} : a ∈ codedSyms s ↔ s.coded a = true := by
  rw [codedSyms, List.mem_filter]
  exact and_iff_right (mem_allSyms a)

/-- Without a conflict in the list there is no first one. -/
theorem firstConflict_eq_none {s : State} : ∀ {l : List Sym}, l.Nodup →
    (∀ a ∈ l, ∀ b ∈ l, a ≠ b → prefixConflict (s.codeBits a) (s.codeBits b) = false) → firstConflict s l = none := by
  intro l
  induction l with
  | nil => intro _ _; rfl
  | cons x l ih =>
    intro hnd h
    obtain ⟨hx, hnd⟩ := List.nodup_cons.1 hnd
    have hfind : (l.find? fun b => prefixConflict (s.codeBits x) (s.codeBits b)) = none :=
      List.find?_eq_none.2 fun b hb =>
        ne_true_of_eq_false (h x List.mem_cons_self b (List.mem_cons_of_mem x hb) fun e => hx (e ▸ hb))
    rw [firstConflict, hfind]
    exact ih hnd fun a ha b hb => h a (List.mem_cons_of_mem x ha) b (List.mem_cons_of_mem x hb)

/-- In a list in ascending order the first conflict is the least pair in conflict, in lexicographic order. -/
theorem firstConflict_eq_some {s : State} {a b : Sym} (hab : a.toNat < b.toNat)
    (hconf : prefixConflict (s.codeBits a) (s.codeBits b) = true) : ∀ {l : List Sym},
    l.Pairwise (fun a b => a.toNat < b.toNat) → a ∈ l → b ∈ l →
    (∀ a' ∈ l, ∀ b' ∈ l, a'.toNat < b'.toNat → prefixConflict (s.codeBits a') (s.codeBits b') = true →
      a.toNat < a'.toNat ∨ (a = a' ∧ b.toNat ≤ b'.toNat)) →
    firstConflict s l = some (a, b) := by
  intro l
  induction l with
  | nil => intro _ ha; cases ha
  | cons x l ih =>
    intro hsorted ha hb hleast
    obtain ⟨hx, hl⟩ := List.pairwise_cons.1 hsorted
    have hbl : b ∈ l := by
      rcases List.mem_cons.1 hb with rfl | hb
      · rcases List.mem_cons.1 ha with rfl | ha
        · exact absurd hab (lt_irrefl _)
        · exact absurd hab (Nat.lt_asymm (hx a ha))
      · exact hb
    have hleastx : ∀ y ∈ l, prefixConflict (s.codeBits x) (s.codeBits y) = true →
        a.toNat < x.toNat ∨ (a = x ∧ b.toNat ≤ y.toNat) := fun y hy =>
      hleast x List.mem_cons_self y (List.mem_cons_of_mem x hy) (hx y hy)
    rcases List.mem_cons.1 ha with rfl | hal
    · obtain ⟨before, after, rfl⟩ := List.append_of_mem hbl
      have hfind : ((before ++ b :: after).find? fun y => prefixConflict (s.codeBits a) (s.codeBits y)) = some b := by
        refine List.find?_eq_some_iff_append.2 ⟨hconf, before, after, rfl, fun y hy => ?_⟩
        obtain ⟨-, -, hbefore⟩ := List.pairwise_append.1 hl
        have hyb : y.toNat < b.toNat := hbefore y hy b List.mem_cons_self
        have := mt (hleastx y (List.mem_append_left _ hy)) (by omega)
        simpa using this
      rw [firstConflict, hfind]
    · have hxa := hx a hal
      have hfind : (l.find? fun y => prefixConflict (s.codeBits x) (s.codeBits y)) = none :=
        List.find?_eq_none.2 fun y hy => mt (hleastx y hy) (by rintro (h | ⟨rfl, -⟩) <;> omega)
      rw [firstConflict, hfind]
      exact ih hl hal hbl fun a' ha' b' hb' =>
        hleast a' (List.mem_cons_of_mem x ha') b' (List.mem_cons_of_mem x hb')

/-! ### A whole table (R172) -/

theorem tableRead_eq (s : State) :
    tableRead s = withCodes (afterBits s (tableOffset s 256)).rAlign (codesRead s 256) := by
  rw [tableRead]
  generalize codesRead s 256 = codes, afterBits s (tableOffset s 256) = u
  rfl

/-- Realigned, RTAB has the whole table. -/
theorem rAlign_tableState (s : State) : (tableState s 256).rAlign = tableRead s := by
  rw [tableState, rAlign_withCodes, tableRead_eq]

theorem tableRead_engine (s : State) : (tableRead s).engine = s.engine := by
  rw [tableRead_eq, withCodes_engine, State.rAlign_engine, afterBits_engine]

theorem lenOf_tableRead (s : State) (a : Sym) : (tableRead s).lenOf a = s.lenOf a := by
  rw [tableRead_eq, withCodes_lenOf, lenOf_rAlign, lenOf_afterBits]

theorem coded_tableRead (s : State) (a : Sym) : (tableRead s).coded a = s.coded a := by
  rw [State.coded, State.coded, lenOf_tableRead]

theorem codedSyms_tableRead (s : State) : codedSyms (tableRead s) = codedSyms s :=
  List.filter_congr fun a _ => coded_tableRead s a

theorem largestLen_tableRead (s : State) : largestLen (tableRead s) = largestLen s := by
  simp only [largestLen, lenOf_tableRead]

theorem codeOf_tableRead (s : State) (a : Sym) :
    (tableRead s).codeOf a = if s.coded a = true then codeWord (tableCode s a) else s.codeOf a := by
  simp only [tableRead_eq, codeOf_withCodes, codesRead, Vector.getElem_ofFn, BitVec.ofNat_toNat, BitVec.setWidth_eq, a.isLt,
    true_and]
  rfl

section WholeTable
variable {s : State} (hin : tableOffset s 256 ≤ (inputBits s).length)
include hin

/-- The code strings RTAB leaves are those on the table. -/
theorem codeBits_tableRead {a : Sym} (h : s.coded a = true) : (tableRead s).codeBits a = tableCode s a := by
  have hlen := tableCode_length (a := a) ((tableOffset_mono s a.isLt le_rfl).trans hin)
  have hbound := (s.lenOf a).isLt
  refine codeBits_of_entry (by omega) ?_ ?_
  · rw [lenOf_tableRead, hlen, BitVec.ofNat_toNat, BitVec.setWidth_eq]
  · rw [codeOf_tableRead, if_pos h, codeWord]

/-- The conflicts RTAB looks for are those of the table. -/
theorem prefixConflict_tableRead {a b : Sym} (ha : s.coded a = true) (hb : s.coded b = true) :
    prefixConflict ((tableRead s).codeBits a) ((tableRead s).codeBits b) = true ↔ tableConflict s a b := by
  rw [codeBits_tableRead hin ha, codeBits_tableRead hin hb, tableConflict, and_iff_right ha, and_iff_right hb]

end WholeTable

/-- RTAB's last writes (R172). -/
def dictionaryMade (s : State) (m : Byte) : State := { s with maxlen := m, preValid := false, dictValid := true }

@[simp] theorem dictionaryMade_engine (s : State) (m : Byte) : (dictionaryMade s m).engine = s.engine := rfl

/-- The state RTAB leaves on a table without a conflict (R172). -/
def dictionaryRead (s : State) : State := dictionaryMade (tableRead s) (largestLen s)

/-- RTAB on a whole table without a conflict makes its dictionary valid. -/
theorem exec_rtab_of_noConflict {s : State} (hidle : s.engine = .idle) (hp : s.preValid = true) (hr : ReaderOk s)
    (hc : ∃ sym, s.coded sym = true) (hin : tableOffset s 256 ≤ (inputBits s).length)
    (hfree : ∀ a b, a ≠ b → ¬ tableConflict s a b) : exec .rtab s = .next (dictionaryRead s) := by
  have hnone : firstConflict (tableRead s) (codedSyms s) = none :=
    firstConflict_eq_none (allSyms_nodup.filter _) fun a ha b hb hab => by
      have := mt (prefixConflict_tableRead hin (mem_codedSyms.1 ha) (mem_codedSyms.1 hb)).1 (hfree a b hab)
      simpa using this
  have hdone : (Task.rtab 256).step (tableState s 256) = .done (dictionaryRead s) := by
    rw [Task.step, stepRtab, if_neg (lt_irrefl 256), endRtab, rAlign_tableState, codedSyms_tableRead, hnone,
      largestLen_tableRead]
    rfl
  have hidle' : (dictionaryRead s).engine = .idle := by
    rw [dictionaryRead, dictionaryMade_engine, tableRead_engine, hidle]
  rw [exec_rtab_of_table hp hc hr le_rfl hin, runToStop_done hdone, endCommand_of_idle hidle']

/-- Settles O46: the loop reads the table's codes, and none of them is a prefix of another. -/
theorem rtabReadsTheTable : Obligations.RtabReadsTheTable :=
  fun _ hidle hp hr hc hin hfree => exec_rtab_of_noConflict hidle hp hr hc hin hfree

/-! ### RTAB's data errors (R172, R221) -/

/-- Without a code RTAB reads nothing. -/
theorem exec_rtab_of_no_code {s : State} (hp : s.preValid = true) (hc : ∀ sym, s.coded sym = false) :
    exec .rtab s = .next (s.raise 0x31 .emptyCodebook 0) := by
  rw [exec, execRtab, if_neg (by simp [Precondition.holds, hp]), if_pos (by simp [hc])]
  rfl

/-- With the input ended before its next bit, RTAB raises inside a code. -/
theorem step_rtabCode_exhausted {s : State} (hr : ReaderOk s) (heos : s.ineos = true) (hempty : inputBits s = [])
    (sym : Sym) (n : Nat) (c : CodeWord) :
    (Task.rtabCode sym (n + 1) c).step s = .raise .shortTable (sym.setWidth 32) s := by
  have hnext := nextBit_empty hr hempty
  rw [heos, if_pos rfl] at hnext
  simp only [Task.step, stepRtabCode, hnext]

theorem setWidth_sym {k : Nat} (h : k < 256) : (BitVec.ofNat 8 k).setWidth 32 = BitVec.ofNat 32 k := by
  apply BitVec.eq_of_toNat_eq
  rw [BitVec.toNat_setWidth, toNat_ofNat_sym h, BitVec.toNat_ofNat]

/-- With the input ended inside the code of symbol `k`, RTAB keeps the codes below it and raises. -/
theorem exec_rtab_of_short {s : State} (hp : s.preValid = true) (hr : ReaderOk s) (heos : s.ineos = true) {k : Nat}
    (hk : k < 256) (hin : tableOffset s k ≤ (inputBits s).length)
    (hshort : (inputBits s).length < tableOffset s (k + 1)) :
    exec .rtab s = .next ((withCodes (afterBits s (inputBits s).length) (codesRead s k)).raise
      0x31 .shortTable (BitVec.ofNat 32 k)) := by
  obtain ⟨n, hn⟩ := Nat.exists_eq_add_of_le hin
  obtain ⟨m, hm⟩ : ∃ m, (s.lenOf (BitVec.ofNat 8 k)).toNat = m + 1 + n := by
    rw [tableOffset_succ s hk] at hshort
    exact ⟨(s.lenOf (BitVec.ofNat 8 k)).toNat - 1 - n, by omega⟩
  have hcoded : s.coded (BitVec.ofNat 8 k) = true := (State.coded_iff s _).2 fun h0 => by
    rw [h0] at hm
    exact absurd hm (by simp; omega)
  have hread := runToStop_rtab_coded (op := 0x31) hr hk hcoded hm hn.ge
  have hraise := step_rtabCode_exhausted (s := withCodes (afterBits s (inputBits s).length) (codesRead s k))
    ((readerOk_withCodes _ _).2 (afterBits_ok hr _)) (by rw [withCodes_ineos, afterBits_ineos, heos])
    (by rw [inputBits_withCodes, inputBits_afterBits hr _ le_rfl, List.drop_length])
  rw [exec_rtab_of_table hp ⟨_, hcoded⟩ hr hk.le hin, hread, ← hn, runToStop_raise (hraise _ m _), setWidth_sym hk]

/-- On a table with a conflict RTAB raises with the first pair, its codes written. -/
theorem exec_rtab_of_conflict {s : State} (hp : s.preValid = true) (hr : ReaderOk s)
    (hin : tableOffset s 256 ≤ (inputBits s).length) {a b : Sym} (hab : a.toNat < b.toNat)
    (hconf : tableConflict s a b)
    (hleast : ∀ a' b' : Sym, a'.toNat < b'.toNat → tableConflict s a' b' →
      a.toNat < a'.toNat ∨ (a = a' ∧ b.toNat ≤ b'.toNat)) :
    exec .rtab s = .next ((tableRead s).raise 0x31 .badTable (pairInfo a b)) := by
  have hca : s.coded a = true := hconf.1
  have hcb : s.coded b = true := hconf.2.1
  have hsome : firstConflict (tableRead s) (codedSyms s) = some (a, b) := by
    refine firstConflict_eq_some hab ((prefixConflict_tableRead hin hca hcb).2 hconf) (allSyms_sorted.filter _)
      (mem_codedSyms.2 hca) (mem_codedSyms.2 hcb) fun a' ha' b' hb' hlt hconf' => ?_
    exact hleast a' b' hlt ((prefixConflict_tableRead hin (mem_codedSyms.1 ha') (mem_codedSyms.1 hb')).1 hconf')
  have hraise : (Task.rtab 256).step (tableState s 256) = .raise .badTable (pairInfo a b) (tableRead s) := by
    rw [Task.step, stepRtab, if_neg (lt_irrefl 256), endRtab, rAlign_tableState, codedSyms_tableRead, hsome]
  rw [exec_rtab_of_table hp ⟨a, hca⟩ hr le_rfl hin, runToStop_raise hraise]

/-- Settles O47, error by error. -/
theorem rtabErrors : Obligations.RtabErrors :=
  fun _ _ hp => ⟨exec_rtab_of_no_code hp, fun _ hr heos hk hin hshort => exec_rtab_of_short hp hr heos hk hin hshort,
    fun _ _ hr hin hab hconf hleast => exec_rtab_of_conflict hp hr hin hab hconf hleast⟩

end Sys2Proof.Machine
end

section
/-! PROOF. DEC decodes the payload (44_container_read.md R173 to R175): its candidate is a bit string, a match is a code
string, and every turn of its loop reads the next bit of the input behind the symbols decoded so far. -/

namespace Sys2Proof.Machine

/-! ### Bit strings (R8) -/

/-- A bit string is known by its length and its value. -/
theorem eq_of_val_eq {c d : List Bool} (hlen : c.length = d.length) (hval : val c = val d) : c = d := by
  rw [← bits_val c, ← bits_val d, hlen, hval]

/-- The higher bits come first. -/
theorem bits_add (v m n : Nat) : bits v (m + n) = bits (v / 2 ^ n) m ++ bits v n := by
  induction m with
  | zero => rw [Nat.zero_add, bits_zero, List.nil_append]
  | succ m ih => rw [Nat.add_right_comm, bits_succ, ih, bits_succ, Nat.testBit_div_two_pow, List.cons_append]

theorem take_bits {v m n : Nat} (h : m ≤ n) : (bits v n).take m = bits (v / 2 ^ (n - m)) m := by
  have hadd := bits_add v m (n - m)
  rw [Nat.add_sub_cancel' h] at hadd
  rw [hadd, List.take_left' (bits_length _ _)]

theorem eq_zeros_iff {c : List Bool} : c = zeros c.length ↔ val c = 0 :=
  ⟨fun h => by rw [h, val_zeros], fun h => eq_of_val_eq (zeros_length _).symm (h.trans (val_zeros _).symm)⟩

/-! ### A prefix-free dictionary (R144(b)) -/

/-- Under a prefix-free dictionary the code of one symbol begins that of another only if they are the same symbol. -/
theorem PrefixFree.eq_of_prefix {s : State} (h : PrefixFree s) {a b : Sym} (ha : s.coded a = true)
    (hb : s.coded b = true) (hpre : s.codeBits a <+: s.codeBits b) : a = b := by
  by_contra hne
  have hfree := h a b hne ha hb
  rw [prefixConflict, List.isPrefixOf_iff_prefix.2 hpre, Bool.true_or] at hfree
  cases hfree

theorem codeBits_length (s : State) (a : Sym) : (s.codeBits a).length = (s.lenOf a).toNat := bits_length _ _

theorem codeBits_length_le (s : State) (a : Sym) : (s.codeBits a).length ≤ 255 := by
  rw [codeBits_length]
  exact Nat.le_of_lt_succ (s.lenOf a).isLt

theorem codeBits_ne_nil {s : State} {a : Sym} (h : s.coded a = true) : s.codeBits a ≠ [] := by
  intro hnil
  have hlen := codeBits_length s a
  rw [hnil, List.length_nil] at hlen
  exact (State.coded_iff s a).1 h (BitVec.eq_of_toNat_eq hlen.symm)

/-! ### `Match`, `Viable` and `PadLike` of a candidate (R174) -/

/-- The candidate in the registers is the bit string `c` (R34). -/
def CandIs (s : State) (c : List Bool) : Prop := s.clen.toNat = c.length ∧ s.cand.toNat = val c

section Candidate
variable {s : State} {c : List Bool} (hc : CandIs s c)
include hc

theorem CandIs.lowBits_eq : lowBits s.cand.toNat s.clen.toNat = val c := by
  rw [lowBits, hc.1, hc.2, Nat.mod_eq_of_lt (val_lt c)]

theorem matchesSym_iff {a : Sym} : matchesSym s a = true ↔ s.coded a = true ∧ s.codeBits a = c := by
  have hlen : s.clen.toNat = c.length := hc.1
  simp only [matchesSym, Bool.and_eq_true, decide_eq_true_eq, and_assoc, hc.lowBits_eq]
  refine and_congr_right fun _ => ⟨fun ⟨hl, hv⟩ => eq_of_val_eq ?_ ?_, fun h => ⟨?_, ?_⟩⟩
  · rw [codeBits_length, hl, hlen]
  · rw [State.codeBits, val_bits, hl]
    exact hv
  · apply BitVec.eq_of_toNat_eq
    rw [← codeBits_length, h, hlen]
  · rw [lowBits, hlen, ← h, codeBits_length, ← val_bits]
    rfl

theorem beginsSym_iff {a : Sym} :
    beginsSym s a = true ↔ c.length < (s.codeBits a).length ∧ c.isPrefixOf (s.codeBits a) = true := by
  rw [beginsSym, hc.lowBits_eq]
  simp only [Bool.and_eq_true, decide_eq_true_eq, BitVec.lt_def, codeBits_length, hc.1, List.isPrefixOf_iff_prefix]
  refine and_congr_right fun hlt => ?_
  have htake : val ((s.codeBits a).take c.length) =
      bitSlice (s.codeOf a).toNat (s.lenOf a).toNat ((s.lenOf a).toNat - c.length) := by
    rw [State.codeBits, take_bits hlt.le, val_bits, bitSlice, lowBits, Nat.sub_sub_self hlt.le]
  have hlength : c.length = ((s.codeBits a).take c.length).length := by
    rw [List.length_take, codeBits_length, min_eq_left hlt.le]
  rw [← htake, List.prefix_iff_eq_take]
  exact ⟨fun h => eq_of_val_eq hlength h.symm, fun h => congrArg val h.symm⟩

theorem matchSym_eq_none (h : ∀ a, s.coded a = true → s.codeBits a ≠ c) : matchSym s = none :=
  List.find?_eq_none.2 fun a _ hm => by
    obtain ⟨hcoded, hcode⟩ := (matchesSym_iff hc).1 hm
    exact h a hcoded hcode

/-- Under a prefix-free dictionary the symbol of a code is the one matched. -/
theorem matchSym_eq_some (hp : PrefixFree s) {x : Sym} (hcoded : s.coded x = true) (hcode : s.codeBits x = c) :
    matchSym s = some x := by
  have hfound : (matchSym s).isSome := List.find?_isSome.2 ⟨x, mem_allSyms x, (matchesSym_iff hc).2 ⟨hcoded, hcode⟩⟩
  obtain ⟨y, hy⟩ := Option.isSome_iff_exists.1 hfound
  obtain ⟨hcodedy, hcodey⟩ := (matchesSym_iff hc).1 (List.find?_some hy)
  rw [hy, hp.eq_of_prefix hcodedy hcoded (by rw [hcode, hcodey])]

theorem viable_iff : viable s = true ↔ someCodeExtends s c := by
  rw [viable, List.any_eq_true]
  constructor
  · rintro ⟨a, -, ha⟩
    obtain ⟨hlt, hpre⟩ := (beginsSym_iff hc).1 ha
    refine ⟨a, (State.coded_iff s a).2 fun h0 => ?_, hlt, hpre⟩
    rw [codeBits_length, h0] at hlt
    exact absurd hlt (Nat.not_lt_zero _)
  · rintro ⟨a, -, h⟩
    exact ⟨a, mem_allSyms a, (beginsSym_iff hc).2 h⟩

theorem padLike_iff : padLike s = true ↔ couldBePad c := by
  obtain ⟨hlen, hval⟩ := hc
  simp only [padLike, Bool.and_eq_true, decide_eq_true_eq, couldBePad, hlen, eq_zeros_iff, ← hval]
  exact and_congr_right fun _ => BitVec.toNat_inj.symm

end Candidate

/-! ### The state of a decode (R173) -/

/-- DEC's registers (R34). -/
def withDecoder (s : State) (count : Word32) (len : Byte) (cand : CodeWord) : State :=
  { s with dcount := count, clen := len, cand := cand }

theorem afterBits_outq (s : State) (n : Nat) : (afterBits s n).outq = s.outq := by rw [afterBits_frame]

theorem afterBits_params (s : State) (n : Nat) : (afterBits s n).params = s.params := by rw [afterBits_frame]

theorem payloadBits_append (s : State) (xs ys : List Sym) :
    payloadBits s (xs ++ ys) = payloadBits s xs ++ payloadBits s ys := List.flatMap_append

theorem afterBits_emitBytes (s : State) (bytes : List Byte) (n : Nat) :
    afterBits (emitBytes s bytes) n = emitBytes (afterBits s n) bytes := by
  by_cases h : n ≤ unreadCount s
  · rw [afterBits_le h, afterBits_le (s := emitBytes s bytes) h]
    rfl
  · rw [afterBits_gt (Nat.lt_of_not_le h), afterBits_gt (s := emitBytes s bytes) (Nat.lt_of_not_le h)]
    rfl

theorem afterBits_withDecoder (s : State) (count : Word32) (len : Byte) (cand : CodeWord) (n : Nat) :
    afterBits (withDecoder s count len cand) n = withDecoder (afterBits s n) count len cand := by
  by_cases h : n ≤ unreadCount s
  · rw [afterBits_le h, afterBits_le (s := withDecoder s count len cand) h]
    rfl
  · rw [afterBits_gt (Nat.lt_of_not_le h), afterBits_gt (s := withDecoder s count len cand) (Nat.lt_of_not_le h)]
    rfl

theorem extendCand_withDecoder (s : State) (count : Word32) (len : Byte) (cand : CodeWord) (b : Bool) :
    extendCand (withDecoder s count len cand) b = withDecoder s count (len + 1) (appendBit cand b) := rfl

theorem decoded_eq (s : State) (xs : List Sym) (c : List Bool) :
    decoded s xs c = withDecoder (emitBytes (afterBits s ((payloadBits s xs).length + c.length)) xs)
      (BitVec.ofNat 32 xs.length) (BitVec.ofNat 8 c.length) (codeWord c) := by
  rw [decoded, afterBits_emitBytes]
  rfl

theorem setUp_dec (s : State) (limit : Word32) : setUp (.dec limit) s = decoded s [] [] := by
  rw [decoded_eq, payloadBits_nil, List.length_nil, afterBits_zero, emitBytes_nil]
  rfl

section Decoded
variable (s : State) (xs : List Sym) (c : List Bool)

theorem decoded_len : (decoded s xs c).len = s.len := by
  rw [decoded_eq]
  exact afterBits_len s _

theorem decoded_code : (decoded s xs c).code = s.code := by
  rw [decoded_eq]
  exact afterBits_code s _

theorem decoded_engine : (decoded s xs c).engine = s.engine := by
  rw [decoded_eq]
  exact afterBits_engine s _

theorem decoded_ineos : (decoded s xs c).ineos = s.ineos := by
  rw [decoded_eq]
  exact afterBits_ineos s _

theorem decoded_dcount : (decoded s xs c).dcount = BitVec.ofNat 32 xs.length := rfl

theorem decoded_outq : (decoded s xs c).outq = s.outq ++ xs := by
  rw [decoded_eq]
  exact congrArg (· ++ xs) (afterBits_outq s _)

theorem decoded_params : (decoded s xs c).params = s.params := by
  rw [decoded_eq]
  exact afterBits_params s _

theorem coded_decoded : (decoded s xs c).coded = s.coded :=
  funext fun a => (State.codeBits_congr (decoded_len s xs c) (decoded_code s xs c) a).2.1

theorem codeBits_decoded : (decoded s xs c).codeBits = s.codeBits :=
  funext fun a => (State.codeBits_congr (decoded_len s xs c) (decoded_code s xs c) a).1

theorem prefixFree_decoded : PrefixFree (decoded s xs c) ↔ PrefixFree s := by
  rw [PrefixFree, coded_decoded, codeBits_decoded]
  rfl

theorem someCodeExtends_decoded (d : List Bool) : someCodeExtends (decoded s xs c) d ↔ someCodeExtends s d := by
  rw [someCodeExtends, coded_decoded, codeBits_decoded]
  rfl

variable {s xs c}

theorem candIs_decoded (h : c.length ≤ 255) : CandIs (decoded s xs c) c := by
  refine ⟨Nat.mod_eq_of_lt (by omega), ?_⟩
  exact codeWord_toNat (by omega)

theorem readerOk_decoded (hr : ReaderOk s) : ReaderOk (decoded s xs c) := by
  rw [decoded_eq]
  exact afterBits_ok hr _

theorem inputBits_decoded (hr : ReaderOk s) {rest : List Bool} (hin : inputBits s = payloadBits s xs ++ c ++ rest) :
    inputBits (decoded s xs c) = rest := by
  have hlen : (payloadBits s xs).length + c.length = (payloadBits s xs ++ c).length := List.length_append.symm
  rw [decoded_eq]
  refine (inputBits_afterBits hr _ ?_).trans ?_
  · rw [hin, hlen, List.length_append (bs := rest)]
    exact Nat.le_add_right _ _
  · rw [hin, hlen, List.drop_left]

end Decoded

/-! ### The steps of DEC's loop (R173) -/

/-- After `n` symbols a limit lets DEC read on: there is none, or it is larger (R173). -/
def limitOpen (limit : Word32) (n : Nat) : Prop := limit ≠ 0 → n < limit.toNat

/-- DEC reads on after the candidate `c`: it is no code, and it begins one or could be a pad (R173). -/
def ReadsOn (s : State) (c : List Bool) : Prop :=
  (∀ a, s.coded a = true → s.codeBits a ≠ c) ∧ (someCodeExtends s c ∨ couldBePad c)

theorem ReadsOn.length_lt {s : State} {c : List Bool} (h : ReadsOn s c) : c.length < 255 := by
  rcases h.2 with ⟨a, -, hlt, -⟩ | ⟨h7, -⟩
  · exact hlt.trans_le (codeBits_length_le s a)
  · omega

theorem dcount_ne_of_limitOpen {s : State} {xs : List Sym} {c : List Bool} {limit : Word32}
    (h : limitOpen limit xs.length) : (decide (limit ≠ 0) && decide ((decoded s xs c).dcount = limit)) = false := by
  rw [decoded_dcount, Bool.and_eq_false_iff, decide_eq_false_iff_not, decide_eq_false_iff_not, or_iff_not_imp_left,
    not_not]
  intro hne heq
  have hlt := h hne
  have hbound := limit.isLt
  rw [← heq, BitVec.toNat_ofNat] at hlt hbound
  omega

section Steps
variable {s : State} {xs : List Sym} {c rest : List Bool} {limit : Word32} (hr : ReaderOk s)
  (hopen : limitOpen limit xs.length)
include hr hopen

/-- With a bit on the input DEC appends it to its candidate. -/
theorem step_dec_bit {b : Bool} (hc : c.length < 255) (hin : inputBits s = payloadBits s xs ++ (c ++ [b]) ++ rest) :
    (Task.dec limit).step (decoded s xs c) = decCandidate limit (decoded s xs (c ++ [b])) := by
  have hbits : inputBits (decoded s xs c) = b :: rest :=
    inputBits_decoded hr (by rw [hin, List.append_assoc, List.append_assoc, List.append_assoc]; rfl)
  have hnext := (nextBit_reads (readerOk_decoded hr) hbits).1
  have hextend : extendCand (afterBits (decoded s xs c) 1) b = decoded s xs (c ++ [b]) := by
    rw [decoded_eq, decoded_eq, afterBits_withDecoder, afterBits_emitBytes, afterBits_add hr, extendCand_withDecoder,
      appendBit_codeWord b hc.le, List.length_append, List.length_singleton, Nat.add_assoc, BitVec.ofNat_add]
    rfl
  rw [Task.step, stepDec, if_neg (ne_true_of_eq_false (dcount_ne_of_limitOpen hopen)), hnext]
  exact congrArg (decCandidate limit) hextend

/-- At the end of the input DEC applies its tail rule (R175). -/
theorem step_dec_exhausted (heos : s.ineos = true) (hin : inputBits s = payloadBits s xs ++ c ++ []) :
    (Task.dec limit).step (decoded s xs c) = decExhausted limit (decoded s xs c) := by
  have hnext := nextBit_empty (readerOk_decoded hr) (inputBits_decoded hr hin)
  rw [decoded_ineos, heos, if_pos rfl] at hnext
  rw [Task.step, stepDec, if_neg (ne_true_of_eq_false (dcount_ne_of_limitOpen hopen)), hnext]

end Steps

theorem decCandidate_readsOn {s : State} {xs : List Sym} {c : List Bool} (limit : Word32) (h : ReadsOn s c) :
    decCandidate limit (decoded s xs c) = .go (.dec limit) (decoded s xs c) := by
  obtain ⟨hno, hor⟩ := h
  have hc : CandIs (decoded s xs c) c := candIs_decoded (ReadsOn.length_lt ⟨hno, hor⟩).le
  have hnone : matchSym (decoded s xs c) = none :=
    matchSym_eq_none hc (by rw [coded_decoded, codeBits_decoded]; exact hno)
  rw [← someCodeExtends_decoded s xs c, ← viable_iff hc, ← padLike_iff hc] at hor
  rw [decCandidate, hnone]
  refine if_neg ?_
  rcases hor with h | h <;> simp [h]

theorem decCandidate_bad {s : State} {xs : List Sym} {c : List Bool} (limit : Word32) (hlen : c.length ≤ 255)
    (hno : ∀ a, s.coded a = true → s.codeBits a ≠ c) (hext : ¬ someCodeExtends s c) (hpad : ¬ couldBePad c) :
    decCandidate limit (decoded s xs c) = .raise .badPayload (BitVec.ofNat 32 xs.length) (decoded s xs c) := by
  have hc : CandIs (decoded s xs c) c := candIs_decoded hlen
  have hnone : matchSym (decoded s xs c) = none :=
    matchSym_eq_none hc (by rw [coded_decoded, codeBits_decoded]; exact hno)
  rw [← someCodeExtends_decoded s xs c, ← viable_iff hc] at hext
  rw [← padLike_iff hc] at hpad
  rw [decCandidate, hnone]
  exact if_pos (by simp [hext, hpad])

theorem decCandidate_match {s : State} {xs : List Sym} {x : Sym} (limit : Word32) (hp : PrefixFree s)
    (hx : s.coded x = true) :
    decCandidate limit (decoded s xs (s.codeBits x)) = .go (.decEmit limit x) (decoded s xs (s.codeBits x)) := by
  have hsome : matchSym (decoded s xs (s.codeBits x)) = some x :=
    matchSym_eq_some (candIs_decoded (codeBits_length_le s x)) ((prefixFree_decoded s xs _).2 hp)
      (by rw [coded_decoded]; exact hx) (by rw [codeBits_decoded])
  rw [decCandidate, hsome]

/-- With room on OUT DEC emits its symbol and begins the next candidate. -/
theorem step_decEmit {s : State} {xs : List Sym} {x : Sym} (limit : Word32) (room : roomFor s (xs.length + 1)) :
    (Task.decEmit limit x).step (decoded s xs (s.codeBits x)) = .go (.dec limit) (decoded s (xs ++ [x]) []) := by
  have hroom : (decoded s xs (s.codeBits x)).outq.length < (decoded s xs (s.codeBits x)).params.outDepth := by
    rw [decoded_outq, decoded_params, List.length_append]
    exact Nat.lt_of_succ_le room
  have hout := (State.outByte_some (v := x)).2 ⟨hroom, rfl⟩
  have hlen : (payloadBits s (xs ++ [x])).length + 0 = (payloadBits s xs).length + (s.codeBits x).length := by
    rw [payloadBits_append, List.length_append, payloadBits_cons, payloadBits_nil, List.append_nil, Nat.add_zero]
  have hend : withDecoder ((decoded s xs (s.codeBits x)).putOut x) ((decoded s xs (s.codeBits x)).dcount + 1) 0 0 =
      decoded s (xs ++ [x]) [] := by
    rw [decoded_eq, decoded_eq, List.length_nil, hlen, ← emitBytes_append, List.length_append, BitVec.ofNat_add]
    rfl
  rw [Task.step, stepDecEmit, hout]
  exact congrArg (Micro.go (.dec limit)) hend

/-! ### DEC's loop (R173) -/

/-- Inside the code of a symbol DEC reads on. -/
theorem readsOn_of_code {s : State} (hp : PrefixFree s) {x : Sym} (hx : s.coded x = true) {k : Nat}
    (hk : k < (s.codeBits x).length) : ReadsOn s ((s.codeBits x).take k) := by
  have hlen : ((s.codeBits x).take k).length = k := by rw [List.length_take, min_eq_left hk.le]
  refine ⟨fun a ha heq => ?_, .inl ⟨x, hx, by rwa [hlen], List.isPrefixOf_iff_prefix.2 (List.take_prefix _ _)⟩⟩
  have hax : a = x := hp.eq_of_prefix ha hx (heq ▸ List.take_prefix _ _)
  rw [hax] at heq
  have := congrArg List.length heq
  omega

section Loop
variable {s : State} {limit : Word32} {op : Byte} (hr : ReaderOk s)
include hr

/-- DEC reads the bits of a candidate as long as every part of it lets DEC read on. -/
theorem runToStop_dec_candidate {xs : List Sym} (hopen : limitOpen limit xs.length) (c : List Bool) :
    ∀ rest, inputBits s = payloadBits s xs ++ c ++ rest → (∀ k, k ≠ 0 → k ≤ c.length → ReadsOn s (c.take k)) →
    runToStop op (.dec limit) (decoded s xs []) = runToStop op (.dec limit) (decoded s xs c) := by
  induction c using List.reverseRecOn with
  | nil => intro _ _ _; rfl
  | append_singleton c b ih =>
    intro rest hin hreads
    rw [List.length_append, List.length_singleton] at hreads
    have hlast : ReadsOn s (c ++ [b]) := by
      have := hreads (c.length + 1) (Nat.succ_ne_zero _) le_rfl
      rwa [List.take_of_length_le (by simp)] at this
    have hlt := hlast.length_lt
    rw [List.length_append, List.length_singleton] at hlt
    have hbit := step_dec_bit hr hopen (c := c) (by omega) hin
    rw [decCandidate_readsOn limit hlast] at hbit
    rw [ih (b :: rest) (by rw [hin]; simp) fun k h0 hk => by
      have := hreads k h0 (by omega)
      rwa [List.take_append_of_le_length hk] at this, runToStop_go hbit]

variable (hp : PrefixFree s)
include hp

/-- DEC decodes the next symbol from its code. -/
theorem runToStop_dec_symbol {xs : List Sym} {x : Sym} {rest : List Bool} (hopen : limitOpen limit xs.length)
    (hx : s.coded x = true) (hin : inputBits s = payloadBits s (xs ++ [x]) ++ rest) (room : roomFor s (xs.length + 1)) :
    runToStop op (.dec limit) (decoded s xs []) = runToStop op (.dec limit) (decoded s (xs ++ [x]) []) := by
  obtain ⟨c, b, hcode⟩ : ∃ c b, s.codeBits x = c ++ [b] := by
    rcases List.eq_nil_or_concat' (s.codeBits x) with h | h
    · exact absurd h (codeBits_ne_nil hx)
    · exact h
  have hlen : (s.codeBits x).length = c.length + 1 := by rw [hcode, List.length_append, List.length_singleton]
  have hle := codeBits_length_le s x
  have hin' : inputBits s = payloadBits s xs ++ (c ++ [b]) ++ rest := by
    rw [hin, payloadBits_append, payloadBits_cons, payloadBits_nil, List.append_nil, hcode]
  have hbit := step_dec_bit hr hopen (c := c) (by omega) hin'
  rw [← hcode, decCandidate_match limit hp hx] at hbit
  rw [runToStop_dec_candidate hr hopen c (b :: rest) (by rw [hin']; simp) fun k _ hk => ?_, runToStop_go hbit,
    runToStop_go (step_decEmit limit room)]
  have := readsOn_of_code hp hx (k := k) (by omega)
  rwa [hcode, List.take_append_of_le_length hk] at this

/-- DEC decodes symbol after symbol. -/
theorem runToStop_dec_symbols (rest : List Bool) : ∀ ys xs, (limit ≠ 0 → (xs ++ ys).length ≤ limit.toNat) →
    (∀ y ∈ ys, s.coded y = true) → inputBits s = payloadBits s (xs ++ ys) ++ rest → roomFor s (xs ++ ys).length →
    runToStop op (.dec limit) (decoded s xs []) = runToStop op (.dec limit) (decoded s (xs ++ ys) []) := by
  intro ys
  induction ys with
  | nil => intro xs _ _ _ _; rw [List.append_nil]
  | cons y ys ih =>
    intro xs hle hcoded hin room
    have hsplit : xs ++ y :: ys = (xs ++ [y]) ++ ys := by simp
    rw [hsplit] at hle hin room ⊢
    have hfirst := hin
    rw [payloadBits_append, List.append_assoc] at hfirst
    have hlen : xs.length + 1 ≤ ((xs ++ [y]) ++ ys).length := by simp
    rw [runToStop_dec_symbol hr hp (fun h0 => hlen.trans (hle h0)) (hcoded y List.mem_cons_self) hfirst
      (room.mono hlen), ih (xs ++ [y]) hle (fun z hz => hcoded z (List.mem_cons_of_mem y hz)) hin room]

/-- DEC with a dictionary decodes the symbols that its limit covers. -/
theorem exec_dec_of_symbols {xs : List Sym} {c rest : List Bool} (hd : s.dictValid = true)
    (hle : limit ≠ 0 → xs.length ≤ limit.toNat) (hsplit : inputSplits s xs c rest) (room : roomFor s xs.length) :
    exec (.dec limit) s = .next (runToStop 0x32 (.dec limit) (decoded s xs [])) := by
  obtain ⟨hcoded, hin⟩ := hsplit
  rw [List.append_assoc] at hin
  rw [exec_eq_runToStop (i := .dec limit) rfl hd trivial, setUp_dec]
  exact congrArg Host.Outcome.next (runToStop_dec_symbols hr hp _ xs [] hle hcoded hin room)

end Loop

/-! ### The statements about DEC (R173 to R175) -/

/-- Settles O48: after the last symbol the limit is reached before another bit is read. -/
theorem decStopsAtItsLimit : Obligations.DecStopsAtItsLimit := by
  intro s limit xs rest hidle hd _ hp hr h0 hlen hsplit room
  have hcount : (decoded s xs []).dcount = limit := by
    rw [decoded_dcount, hlen, BitVec.ofNat_toNat, BitVec.setWidth_eq]
  have hdone : (Task.dec limit).step (decoded s xs []) = .done (decoded s xs []) := by
    rw [Task.step, stepDec, if_pos (by simpa [hcount] using h0)]
  have hidle' : (decoded s xs []).engine = .idle := (decoded_engine s xs []).trans hidle
  rw [exec_dec_of_symbols hr hp hd (fun _ => hlen.le) hsplit room, runToStop_done hdone, endCommand_of_idle hidle']

/-- A candidate that no code begins is no code, nor is a part of it. -/
theorem ne_take_of_noCodeBegins {s : State} {c : List Bool} (h : noCodeBegins s c) (k : Nat) (a : Sym)
    (ha : s.coded a = true) : s.codeBits a ≠ c.take k := fun heq => by
  have hno := h a ha
  rw [heq, List.isPrefixOf_iff_prefix.2 (List.take_prefix k c)] at hno
  cases hno

theorem couldBePad_zeros {k : Nat} (h : k ≤ 7) : couldBePad (zeros k) := by
  rw [couldBePad, zeros_length]
  exact ⟨h, rfl⟩

/-- Settles O49: zeros that no code begins let DEC read on, and at exhaustion a pad ends it. -/
theorem decDiscardsThePad : Obligations.DecDiscardsThePad := by
  intro s xs k hidle hd _ hp hr heos hsplit hk hno room
  have hopen : limitOpen 0 xs.length := fun h => absurd rfl h
  have hreads : ∀ j, j ≠ 0 → j ≤ (zeros k).length → ReadsOn s ((zeros k).take j) := fun j _ hj => by
    rw [zeros_length] at hj
    refine ⟨ne_take_of_noCodeBegins hno j, .inr ?_⟩
    rw [zeros, List.take_replicate, min_eq_left hj]
    exact couldBePad_zeros (hj.trans hk)
  have hpad : padLike (decoded s xs (zeros k)) = true :=
    (padLike_iff (candIs_decoded (by rw [zeros_length]; omega))).2 (couldBePad_zeros hk)
  have hdone : (Task.dec 0).step (decoded s xs (zeros k)) = .done (decoded s xs (zeros k)) := by
    rw [step_dec_exhausted hr hopen heos hsplit.2, decExhausted, if_neg (by simp [hpad]), if_neg (by simp)]
  have hidle' : (decoded s xs (zeros k)).engine = .idle := (decoded_engine s xs _).trans hidle
  rw [exec_dec_of_symbols hr hp hd (fun h => absurd rfl h) hsplit room,
    runToStop_dec_candidate hr hopen (zeros k) [] hsplit.2 hreads, runToStop_done hdone, endCommand_of_idle hidle']

/-- A tail that is no pad is corrupt at exhaustion (R175). -/
theorem decExhausted_not_pad {s : State} {xs : List Sym} {c : List Bool} (limit : Word32) (hlen : c.length ≤ 255)
    (h : ¬ couldBePad c) :
    decExhausted limit (decoded s xs c) = .raise .badPayload (BitVec.ofNat 32 xs.length) (decoded s xs c) := by
  have hc : CandIs (decoded s xs c) c := candIs_decoded hlen
  have hne : (decoded s xs c).clen ≠ 0 := fun h0 => by
    have hnil := hc.1
    rw [h0] at hnil
    exact h (by rw [List.length_eq_zero_iff.1 hnil.symm]; exact couldBePad_zeros (Nat.zero_le 7))
  have hpad := mt (padLike_iff hc).1 h
  rw [decExhausted, if_pos (by simpa [hpad] using hne)]
  rfl

/-- A pad at exhaustion is too short a payload for a limit that is not reached (R173). -/
theorem decExhausted_pad {s : State} {xs : List Sym} {c : List Bool} {limit : Word32} (h0 : limit ≠ 0)
    (h : couldBePad c) :
    decExhausted limit (decoded s xs c) = .raise .shortPayload (BitVec.ofNat 32 xs.length) (decoded s xs c) := by
  have hpad := (padLike_iff (candIs_decoded (s := s) (xs := xs) (h.1.trans (by norm_num)))).2 h
  rw [decExhausted, if_neg (by simp [hpad]), if_pos h0]
  rfl

section Errors
variable {s : State} {limit : Word32} {op : Byte} {xs : List Sym} (hr : ReaderOk s)
  (hopen : limitOpen limit xs.length)
include hr hopen

/-- A candidate that no code continues and no pad explains is corrupt at its last bit (R175). -/
theorem runToStop_dec_corrupt {c rest : List Bool} (hin : inputBits s = payloadBits s xs ++ c ++ rest) (hne : c ≠ [])
    (hreads : ∀ k, k ≠ 0 → k < c.length → ReadsOn s (c.take k)) (hno : ∀ a, s.coded a = true → s.codeBits a ≠ c)
    (hext : ¬ someCodeExtends s c) (hpad : ¬ couldBePad c) :
    runToStop op (.dec limit) (decoded s xs []) =
      (decoded s xs c).raise op .badPayload (BitVec.ofNat 32 xs.length) := by
  obtain ⟨d, b, rfl⟩ := (List.eq_nil_or_concat' c).resolve_left hne
  rw [List.length_append, List.length_singleton] at hreads
  have hreads' (k : Nat) (h0 : k ≠ 0) (hk : k ≤ d.length) : ReadsOn s (d.take k) := by
    have := hreads k h0 (by omega)
    rwa [List.take_append_of_le_length hk] at this
  have hlen : d.length < 255 := by
    rcases Nat.eq_zero_or_pos d.length with h | h
    · omega
    · have := (hreads' d.length h.ne' le_rfl).length_lt
      rwa [List.take_length] at this
  have hraise := step_dec_bit hr hopen hlen hin
  rw [decCandidate_bad limit (by rw [List.length_append]; exact hlen) hno hext hpad] at hraise
  rw [runToStop_dec_candidate hr hopen d (b :: rest) (by rw [hin]; simp) hreads', runToStop_raise hraise]

/-- A candidate that lets DEC read on up to the end of the input is a tail (R175). -/
theorem runToStop_dec_tail {c : List Bool} (heos : s.ineos = true) (hin : inputBits s = payloadBits s xs ++ c ++ [])
    (hreads : ∀ k, k ≠ 0 → k ≤ c.length → ReadsOn s (c.take k)) {e : ErrName} {info : Word32}
    (hraise : decExhausted limit (decoded s xs c) = .raise e info (decoded s xs c)) :
    runToStop op (.dec limit) (decoded s xs []) = (decoded s xs c).raise op e info := by
  rw [runToStop_dec_candidate hr hopen c [] hin hreads,
    runToStop_raise ((step_dec_exhausted hr hopen heos hin).trans hraise)]

end Errors

/-- Settles O50: every proper part of the candidate lets DEC read on; the candidate itself raises at once, or lets DEC
read on to exhaustion and raises there. -/
theorem decErrors : Obligations.DecErrors := by
  intro s limit xs c rest _ hd _ hp hr hopen hsplit hno room hparts
  have hexec := exec_dec_of_symbols hr hp hd (fun h => (hopen h).le) hsplit room
  have hself : ∀ a, s.coded a = true → s.codeBits a ≠ c := by
    have := ne_take_of_noCodeBegins hno c.length
    rwa [List.take_length] at this
  have hreads (k : Nat) (h0 : k ≠ 0) (hk : k < c.length) : ReadsOn s (c.take k) :=
    ⟨ne_take_of_noCodeBegins hno k, hparts k hk h0⟩
  have hreads' (hor : someCodeExtends s c ∨ couldBePad c) (k : Nat) (h0 : k ≠ 0) (hk : k ≤ c.length) :
      ReadsOn s (c.take k) := by
    rcases hk.lt_or_eq with hlt | rfl
    · exact hreads k h0 hlt
    · rw [List.take_length]
      exact ⟨hself, hor⟩
  rw [hexec]
  refine ⟨fun hne hext hpad => ?_, fun hrest heos hext hpad => ?_, fun hrest heos h0 hpad => ?_⟩
  · rw [runToStop_dec_corrupt hr hopen hsplit.2 hne hreads hself hext hpad]
  · subst hrest
    rw [runToStop_dec_tail hr hopen heos hsplit.2 (hreads' (.inl hext))
      (decExhausted_not_pad limit (ReadsOn.length_lt ⟨hself, .inl hext⟩).le hpad)]
  · subst hrest
    rw [runToStop_dec_tail hr hopen heos hsplit.2 (hreads' (.inr hpad)) (decExhausted_pad h0 hpad)]

end Sys2Proof.Machine
end

section
/-! PROOF. RPRE, RTAB and DEC on a container (43_container_write.md R150, 44_container_read.md R176): RPRE and RTAB bring
back the dictionary the container was written with, and leave DEC at its payload. -/

namespace Sys2Proof.Machine

/-! ### The sections of a container as bit strings (R62, R150) -/

/-- The bytes of a padded section hold its bits and its pad. -/
theorem flatMap_byteBits_padToByte (c : List Bool) : (packBytes (padToByte c)).flatMap byteBits = padToByte c := by
  have hleft : leftBits (padToByte c) = [] :=
    List.length_eq_zero_iff.1 (by rw [leftBits_length, padToByte_length, Nat.mul_mod_right])
  have hbits := packBytes_bits (padToByte c)
  rwa [hleft, List.append_nil] at hbits

/-- The register that holds a symbol's code string is its code (R44(e)). -/
theorem codeWord_codeBits {s : State} (h : CodesOk s) (a : Sym) : codeWord (s.codeBits a) = s.codeOf a := by
  apply BitVec.eq_of_toNat_eq
  rw [codeWord_toNat ((codeBits_length_le s a).trans (by norm_num)), State.codeBits, val_bits, Nat.mod_eq_of_lt (h a)]

theorem codeOf_of_not_coded {s : State} (h : CodesOk s) {a : Sym} (ha : s.coded a = false) : s.codeOf a = 0 := by
  rw [← codeWord_codeBits h, codeBits_of_not_coded ha]
  rfl

/-- The table holds the code of a symbol behind those of the symbols below it. -/
theorem tableBits_split (s : State) (a : Sym) : ∃ before after,
    tableBits s = before ++ s.codeBits a ++ after ∧ before.length = tableOffset s a.toNat := by
  have hdrop := allSyms_drop a.isLt
  rw [BitVec.ofNat_toNat, BitVec.setWidth_eq] at hdrop
  refine ⟨(allSyms.take a.toNat).flatMap s.codeBits, (allSyms.drop (a.toNat + 1)).flatMap s.codeBits, ?_,
    flatMap_codeBits_length s _⟩
  rw [List.append_assoc, ← List.flatMap_cons, ← hdrop, ← List.flatMap_append, List.take_append_drop, tableBits_eq]

theorem tableOffset_all (s : State) : tableOffset s 256 = (tableBits s).length := by
  rw [tableBits_length, tableOffset, List.take_of_length_le allSyms_length.le]

/-! ### A dictionary brought back -/

/-- `t` has the dictionary of `s`. -/
structure SameDict (s t : State) : Prop where
  len : t.len = s.len
  code : t.code = s.code

section SameDict
variable {s t : State} (h : SameDict s t)
include h

theorem SameDict.lenOf : t.lenOf = s.lenOf := funext fun a => (State.codeBits_congr h.len h.code a).2.2.1

theorem SameDict.codeOf : t.codeOf = s.codeOf := funext fun a => (State.codeBits_congr h.len h.code a).2.2.2

theorem SameDict.coded : t.coded = s.coded := funext fun a => (State.codeBits_congr h.len h.code a).2.1

theorem SameDict.codeBits : t.codeBits = s.codeBits := funext fun a => (State.codeBits_congr h.len h.code a).1

theorem SameDict.payloadBits (input : List Byte) : payloadBits t input = payloadBits s input := by
  rw [Machine.payloadBits, h.codeBits, Machine.payloadBits]

theorem SameDict.codesOk (hs : CodesOk s) : CodesOk t := by
  rw [CodesOk, h.codeOf, h.lenOf]
  exact hs

theorem SameDict.prefixFree (hs : PrefixFree s) : PrefixFree t := by
  rw [PrefixFree, h.coded, h.codeBits]
  exact hs

end SameDict

/-- What the table on the input holds, when it is the table of a dictionary with the lengths of `s`. -/
theorem tableCode_of_table {d s : State} {after : List Bool} (hlen : s.lenOf = d.lenOf)
    (hin : inputBits s = tableBits d ++ after) (a : Sym) : tableCode s a = d.codeBits a := by
  obtain ⟨before, rest, hsplit, hbefore⟩ := tableBits_split d a
  have hoffset : tableOffset s a.toNat = before.length := by rw [tableOffset, hlen, hbefore, tableOffset]
  rw [tableCode, hin, hsplit, hoffset, List.append_assoc, List.append_assoc, List.drop_left, hlen, ← codeBits_length,
    List.take_left]

/-! ### What RPRE and RTAB leave unchanged -/

/-- `t` has the engine, `ERR`, the end of input, OUT and the depths of `s`. -/
structure SameOutput (s t : State) : Prop where
  engine : t.engine = s.engine
  err : t.err = s.err
  ineos : t.ineos = s.ineos
  outq : t.outq = s.outq
  params : t.params = s.params

theorem SameOutput.trans {s t u : State} (h : SameOutput s t) (h' : SameOutput t u) : SameOutput s u :=
  ⟨h'.engine.trans h.engine, h'.err.trans h.err, h'.ineos.trans h.ineos, h'.outq.trans h.outq, h'.params.trans h.params⟩

theorem SameOutput.room {s t : State} (h : SameOutput s t) {n : Nat} (room : roomFor s n) : roomFor t n := by
  rw [roomFor, h.outq, h.params]
  exact room

theorem sameOutput_afterBits (s : State) (n : Nat) : SameOutput s (afterBits s n) := by
  rw [afterBits_frame]
  exact ⟨rfl, rfl, rfl, rfl, rfl⟩

theorem preambleRead_eq (s : State) :
    preambleRead s = { withLengths (takeBytes s 256) (lengthsRead s 256) with preValid := true } := by
  rw [preambleRead, preambleTaken_eq]

theorem sameOutput_preambleRead (s : State) : SameOutput s (preambleRead s) := by
  rw [preambleRead_eq]
  generalize lengthsRead s 256 = len
  exact ⟨rfl, rfl, rfl, rfl, rfl⟩

theorem sameOutput_dictionaryRead (s : State) : SameOutput s (dictionaryRead s) := by
  refine (sameOutput_afterBits s (tableOffset s 256)).trans ?_
  rw [dictionaryRead, tableRead_eq]
  generalize afterBits s (tableOffset s 256) = u, codesRead s 256 = codes
  exact ⟨rfl, rfl, rfl, rfl, rfl⟩

/-! ### RPRE and RTAB on a container (R171, R172) -/

/-- With the lengths of a dictionary loaded, before its table, and `after` behind the table on IN (R150). -/
structure TableAhead (d : State) (after : List Byte) (s : State) : Prop where
  preamble : s.preValid = true
  aligned : s.rmask = 0
  lengths : s.len = d.len
  noCode : ∀ a, s.codeOf a = 0
  queued : s.inq = packBytes (padToByte (tableBits d)) ++ after

/-- With a dictionary loaded, before its payload (R150). -/
structure PayloadAhead (d : State) (after : List Byte) (s : State) : Prop where
  valid : s.dictValid = true
  aligned : s.rmask = 0
  dict : SameDict d s
  queued : s.inq = after

section Preamble
variable {d u : State} {after : List Byte} (hr : u.rmask = 0)
  (hq : u.inq = preambleBytes d ++ (packBytes (padToByte (tableBits d)) ++ after))
include hq

/-- The lengths RPRE reads off a preamble are those it was written from. -/
theorem lengthsRead_of_preamble : lengthsRead u 256 = d.len := by
  ext1 i hi
  rw [lengthsRead, Vector.getElem_ofFn, hq, List.take_left' (preambleBytes_length d), preambleBytes,
    List.getD_eq_getElem?_getD, List.getElem?_map, List.getElem?_eq_getElem (by rwa [allSyms_length]), allSyms_getElem]
  simp only [Option.map_some, Option.getD_some, State.lenOf, toNat_ofNat_sym hi]

include hr

theorem tableAhead_preambleRead : TableAhead d after (preambleRead u) := by
  have hmask : (takeBytes u 256).rmask = 0 := hr
  have hdrop : (takeBytes u 256).inq = packBytes (padToByte (tableBits d)) ++ after := by
    rw [takeBytes, hq, List.drop_left' (preambleBytes_length d)]
  rw [preambleRead_eq, lengthsRead_of_preamble hq]
  generalize takeBytes u 256 = v at hmask hdrop
  refine ⟨rfl, hmask, rfl, fun a => ?_, hdrop⟩
  exact codeOf_withLengths v d.len a

/-- RPRE on a preamble takes back the lengths it was written from. -/
theorem exec_rpre_of_container (hidle : u.engine = .idle) :
    ∃ s, exec .rpre u = .next s ∧ TableAhead d after s ∧ SameOutput u s := by
  have hin : 256 ≤ u.inq.length := by
    rw [hq, List.length_append, preambleBytes_length]
    exact Nat.le_add_right _ _
  exact ⟨preambleRead u, exec_rpre_of_preamble hidle hr hin, tableAhead_preambleRead hr hq, sameOutput_preambleRead u⟩

end Preamble

/-- From a byte boundary, the bytes whose bits are not read are left. -/
theorem afterBits_inq_of_aligned {s : State} (h : s.rmask = 0) (n : Nat) :
    (afterBits s n).inq = s.inq.drop ((n + 7) / 8) := by
  have hunread : unreadCount s = 0 := if_pos h
  rcases Nat.eq_zero_or_pos n with rfl | hn
  · rw [afterBits_zero]
    rfl
  · rw [afterBits_gt (by omega), hunread, Nat.sub_zero]

section Table
variable {d s : State} {after : List Byte} (h : TableAhead d after s)
include h

theorem TableAhead.lenOf : s.lenOf = d.lenOf := funext fun a => by rw [State.lenOf, State.lenOf, h.lengths]

theorem TableAhead.coded : s.coded = d.coded := funext fun a => by rw [State.coded, State.coded, h.lenOf]

theorem TableAhead.inputBits :
    inputBits s = tableBits d ++ (zeros (padCount (tableBits d).length) ++ after.flatMap byteBits) := by
  rw [inputBits_of_aligned h.aligned, h.queued, List.flatMap_append, flatMap_byteBits_padToByte, padToByte,
    List.append_assoc]

theorem TableAhead.tableCode (a : Sym) : tableCode s a = d.codeBits a := tableCode_of_table h.lenOf h.inputBits a

theorem TableAhead.tableOffset : tableOffset s 256 = (tableBits d).length := by
  rw [← tableOffset_all, Machine.tableOffset, h.lenOf, Machine.tableOffset]

/-- RTAB reads the codes the table was written from; a symbol without one has the code 0 in both. -/
theorem codesRead_of_table (hcodes : CodesOk d) : codesRead s 256 = d.code := by
  ext1 i hi
  have hread := codeOf_tableRead s (BitVec.ofNat 8 i)
  rw [h.tableCode, codeWord_codeBits hcodes, h.noCode, h.coded] at hread
  have hentry : (tableRead s).codeOf (BitVec.ofNat 8 i) = d.codeOf (BitVec.ofNat 8 i) := by
    rw [hread]
    split
    · rfl
    · next hn => rw [codeOf_of_not_coded hcodes (eq_false_of_ne_true hn)]
  rw [tableRead_eq, codeOf_withCodes] at hentry
  simpa only [State.codeOf, toNat_ofNat_sym hi] using hentry

theorem payloadAhead_dictionaryRead (hcodes : CodesOk d) : PayloadAhead d after (dictionaryRead s) := by
  have hinq := afterBits_inq_of_aligned h.aligned (Machine.tableOffset s 256)
  rw [h.queued, h.tableOffset, ← packBytes_padToByte_length, List.drop_left] at hinq
  have hlen := (afterBits_len s (Machine.tableOffset s 256)).trans h.lengths
  rw [h.tableOffset] at hlen
  rw [dictionaryRead, tableRead_eq, codesRead_of_table h hcodes, h.tableOffset]
  generalize afterBits s (tableBits d).length = v at hinq hlen
  exact ⟨rfl, rfl, ⟨hlen, rfl⟩, hinq⟩

/-- RTAB on the table of a prefix-free dictionary brings it back. -/
theorem exec_rtab_of_container (hcodes : CodesOk d) (hp : PrefixFree d) (hc : ∃ a, d.coded a = true)
    (hidle : s.engine = .idle) : ∃ t, exec .rtab s = .next t ∧ PayloadAhead d after t ∧ SameOutput s t := by
  have hr : ReaderOk s := (readerOk_iff s).2 (by rw [h.aligned]; rfl)
  have hin : Machine.tableOffset s 256 ≤ (Machine.inputBits s).length := by
    rw [h.tableOffset, h.inputBits, List.length_append]
    exact Nat.le_add_right _ _
  have hfree (a b : Sym) (hab : a ≠ b) : ¬ tableConflict s a b := by
    rintro ⟨ha, hb, hconf⟩
    rw [h.coded] at ha hb
    rw [h.tableCode, h.tableCode, hp a b hab ha hb] at hconf
    cases hconf
  exact ⟨dictionaryRead s, exec_rtab_of_noConflict hidle h.preamble hr (by rwa [h.coded]) hin hfree,
    payloadAhead_dictionaryRead h hcodes, sameOutput_dictionaryRead s⟩

end Table

end Sys2Proof.Machine
end

section
/-! PROOF. DECOMPRESS on a container (44_container_read.md R175, R176): with the symbol count it gives the input back,
and without it the pad bits are decoded too as far as they spell codes. -/

namespace Sys2Proof.Machine

theorem decoded_err (s : State) (xs : List Sym) (c : List Bool) : (decoded s xs c).err = s.err := by
  rw [decoded_eq]
  exact (sameOutput_afterBits s _).err

/-! ### RPRE and RTAB, then DEC (R98) -/

theorem execAll_decompress {limit : Word32} {u s v : State} (hexec : execAll [.rpre, .rtab] u = .next s)
    (hdec : exec (.dec limit) s = .next v) : execAll (Pseudo.decompress limit).expand u = .next v := by
  refine (execAll_append (js := [.dec limit]) hexec).trans ?_
  rw [execAll, hdec]
  rfl

/-- Right before DEC: a usable dictionary, that of `d`, and the payload of `input` with its pad on the ended input. -/
structure ReadyToDecode (d : State) (input : List Byte) (s : State) : Prop where
  idle : s.engine = .idle
  valid : s.dictValid = true
  dict : SameDict d s
  codes : CodesOk s
  free : PrefixFree s
  reader : ReaderOk s
  ended : s.ineos = true
  payload : inputBits s = payloadBits s input ++ zeros (padCount (payloadBits d input).length)
  coded : ∀ b ∈ input, s.coded b = true

section Container
variable {d u : State} {input : List Byte} (hcodes : CodesOk d) (hp : PrefixFree d) (hne : input ≠ [])
  (hcoded : ∀ b ∈ input, d.coded b = true) (h : ReadyToDecompress u (containerOf d input))
include hcodes hp hne hcoded h

/-- RPRE and RTAB on a container make its dictionary the block's and leave DEC at the payload. -/
theorem execAll_readers : ∃ s, execAll [.rpre, .rtab] u = .next s ∧ ReadyToDecode d input s ∧ SameOutput u s := by
  obtain ⟨hidle, hr, hq, heos⟩ := h
  rw [containerOf, List.append_assoc] at hq
  obtain ⟨b, hb⟩ := List.exists_mem_of_ne_nil input hne
  obtain ⟨t, hrpre, htable, hout⟩ := exec_rpre_of_container hr hq hidle
  obtain ⟨s, hrtab, hahead, hout'⟩ :=
    exec_rtab_of_container htable hcodes hp ⟨b, hcoded b hb⟩ (hout.engine.trans hidle)
  have hsame := hout.trans hout'
  refine ⟨s, by simp only [execAll, hrpre, hrtab], ?_, hsame⟩
  refine ⟨hsame.engine.trans hidle, hahead.valid, hahead.dict, hahead.dict.codesOk hcodes, hahead.dict.prefixFree hp,
    (readerOk_iff s).2 (by rw [hahead.aligned]; rfl), hsame.ineos.trans heos, ?_, by rwa [hahead.dict.coded]⟩
  rw [inputBits_of_aligned hahead.aligned, hahead.queued, flatMap_byteBits_padToByte, hahead.dict.payloadBits,
    padToByte]

end Container

/-- Settles O54: behind RPRE and RTAB the payload is the codes of the input, and DEC stops at their number. -/
theorem decompressGivesTheInput : Obligations.DecompressGivesTheInput := by
  intro d input u hcodes hp hne hlt hcoded h room
  obtain ⟨s, hexec, hready, hsame⟩ := execAll_readers hcodes hp hne hcoded h
  have hlimit : (BitVec.ofNat 32 input.length).toNat = input.length := Nat.mod_eq_of_lt hlt
  have h0 : BitVec.ofNat 32 input.length ≠ 0 := fun h0 => by
    rw [h0] at hlimit
    exact hne (List.length_eq_zero_iff.1 hlimit.symm)
  have hsplit : inputSplits s input [] (zeros (padCount (payloadBits d input).length)) :=
    ⟨hready.coded, by rw [hready.payload, List.append_nil]⟩
  have hdec := decStopsAtItsLimit s (BitVec.ofNat 32 input.length) input _ hready.idle hready.valid hready.codes
    hready.free hready.reader h0 hlimit.symm hsplit (hsame.room room)
  refine ⟨decoded s input [], execAll_decompress hexec hdec, ?_, ?_, rfl⟩
  · rw [decoded_outq, hsame.outq]
  · rw [decoded_err, hsame.err]

/-! ### COMPRESS, then DECOMPRESS (R176(a)) -/

/-- BUILD and ASSIGN on a weight that is not 0 make a prefix-free dictionary of the symbols that occur. -/
theorem execAll_build_assign_dict {s : State} (hidle : s.engine = .idle) (hsym : ∃ sym, s.freqOf sym ≠ 0) :
    ∃ d, execAll [.build, .assign] s = .next d ∧ CodesOk d ∧ PrefixFree d ∧
      ∀ sym, d.coded sym = true ↔ s.freqOf sym ≠ 0 := by
  obtain ⟨u, tree, -, -, hperm, hexec⟩ := execAll_build_assign hidle hsym
  have hnd : tree.leaves.Nodup := hperm.nodup_iff.2 (occurring_nodup s)
  refine ⟨assignedState u tree, hexec, ?_⟩
  simp only [CodesOk, PrefixFree, entry_assignedState]
  exact ⟨codesOk_treeDict hnd, prefixFree_treeDict hnd, fun sym =>
    (coded_treeDict hnd).trans (hperm.mem_iff.trans mem_occurring)⟩

/-- The first of several commands that complete completes (R82). -/
theorem execAll_cons_next {i : Instr} {is : List Instr} {s t : State} (h : execAll (i :: is) s = .next t) :
    ∃ u, exec i s = .next u ∧ execAll is u = .next t := by
  rw [execAll] at h
  cases hi : exec i s with
  | next u => rw [hi] at h; exact ⟨u, rfl, h⟩
  | fault f => rw [hi] at h; cases h
  | refused r => rw [hi] at h; cases h

/-- The writers keep the dictionary (R45). -/
theorem sameDict_of_writers {s t : State} (h : execAll [.wpre, .wtab, .enc] s = .next t) : SameDict s t := by
  obtain ⟨a, hwpre, h⟩ := execAll_cons_next h
  obtain ⟨b, hwtab, h⟩ := execAll_cons_next h
  obtain ⟨c, henc, h⟩ := execAll_cons_next h
  cases h
  have ha : SameDict s a := by rw [(framesOfWriters s a).1 hwpre]; exact ⟨rfl, rfl⟩
  have hb : SameDict a b := by rw [(framesOfWriters a b).2.1 hwtab]; exact ⟨rfl, rfl⟩
  have hc : SameDict b t := by rw [(framesOfWriters b t).2.2.1 henc]; exact ⟨rfl, rfl⟩
  exact ⟨hc.len.trans (hb.len.trans ha.len), hc.code.trans (hb.code.trans ha.code)⟩

/-- What is weighed for COMPRESS occurs (R154). -/
theorem ReadyToCompress.freqOf_ne_zero {s : State} {input : List Byte} (h : ReadyToCompress s input) {b : Byte}
    (hb : b ∈ input) : s.freqOf b ≠ 0 := fun h0 => by
  have hpos := List.count_pos_iff.2 hb
  rw [← h.counted b, h0] at hpos
  exact absurd hpos (by decide)

/-- The dictionary COMPRESS leaves is prefix-free and has a code for every byte of its input. -/
theorem dictionary_of_compress {s t : State} {input : List Byte} (h : ReadyToCompress s input)
    (hexec : execAll Pseudo.compress.expand s = .next t) :
    CodesOk t ∧ PrefixFree t ∧ ∀ b ∈ input, t.coded b = true := by
  obtain ⟨b, hb⟩ := List.exists_mem_of_ne_nil input h.someInput
  obtain ⟨d, hdict, hcodes, hp, hcoded⟩ := execAll_build_assign_dict h.idle ⟨b, h.freqOf_ne_zero hb⟩
  have hsame : SameDict d t := sameDict_of_writers ((execAll_append hdict).symm.trans hexec)
  refine ⟨hsame.codesOk hcodes, hsame.prefixFree hp, fun b hb => ?_⟩
  rw [hsame.coded, hcoded]
  exact h.freqOf_ne_zero hb

/-- Settles O55: COMPRESS emits the container of its input under the dictionary it leaves. -/
theorem roundTrip : Obligations.RoundTrip := by
  intro s input t u h hlt room hexec hready hroom
  obtain ⟨t', hexec', hout, herr, -⟩ := compressEmitsTheContainer s input h room
  rw [hexec] at hexec'
  cases hexec'
  obtain ⟨hcodes, hp, hcoded⟩ := dictionary_of_compress h hexec
  rw [hout, List.drop_left] at hready
  obtain ⟨v, hv, hvout, hverr, -⟩ := decompressGivesTheInput t input u hcodes hp h.someInput hlt hcoded hready hroom
  exact ⟨herr, v, hv, hvout, hverr⟩

/-! ### A code of zeros (R176(b)) -/

theorem lenOf_pos {s : State} {a : Sym} (h : s.coded a = true) : 0 < (s.lenOf a).toNat := by
  rw [← codeBits_length]
  exact List.length_pos_iff.2 (codeBits_ne_nil h)

theorem codeBits_of_zero_code {s : State} {z : Sym} (h : s.codeOf z = 0) :
    s.codeBits z = zeros (s.lenOf z).toNat := by
  have hval : val (s.codeBits z) = 0 := by
    rw [State.codeBits, val_bits, h]
    exact Nat.zero_mod _
  rw [← codeBits_length]
  exact eq_zeros_iff.2 hval

/-- A code that begins a string of zeros is 0. -/
theorem codeOf_eq_zero_of_prefix {s : State} (hcodes : CodesOk s) {a : Sym} {r : Nat}
    (h : (s.codeBits a).isPrefixOf (zeros r) = true) : s.codeOf a = 0 ∧ (s.lenOf a).toNat ≤ r := by
  have hpre := List.isPrefixOf_iff_prefix.1 h
  have hlen := hpre.length_le
  rw [zeros_length, codeBits_length] at hlen
  have hzeros : s.codeBits a = zeros (s.lenOf a).toNat := by
    rw [List.prefix_iff_eq_take.1 hpre, zeros, List.take_replicate, codeBits_length, min_eq_left hlen]
    rfl
  refine ⟨?_, hlen⟩
  rw [← codeWord_codeBits hcodes, hzeros, codeWord, val_zeros]
  rfl

section ZeroCode
variable {s : State} (hp : PrefixFree s) {z : Sym} (hz : s.coded z = true) (h0 : s.codeOf z = 0)
include hp hz h0

/-- At most one code is 0. -/
theorem zero_code_unique {a : Sym} (ha : s.coded a = true) (h0' : s.codeOf a = 0) : a = z := by
  have hprefix (m n : Nat) (hle : m ≤ n) : zeros m <+: zeros n := by
    rw [zeros, zeros, ← Nat.add_sub_cancel' hle, List.replicate_add]
    exact List.prefix_append _ _
  have hbits := codeBits_of_zero_code h0
  have hbits' := codeBits_of_zero_code h0'
  rcases Nat.le_total (s.lenOf a).toNat (s.lenOf z).toNat with hle | hle
  · exact hp.eq_of_prefix ha hz (by rw [hbits, hbits']; exact hprefix _ _ hle)
  · exact (hp.eq_of_prefix hz ha (by rw [hbits, hbits']; exact hprefix _ _ hle)).symm

theorem noCodeBegins_short_zeros (hcodes : CodesOk s) {r : Nat} (hr : r < (s.lenOf z).toNat) :
    noCodeBegins s (zeros r) := fun a ha => by
  by_contra hpre
  obtain ⟨h0', hle⟩ := codeOf_eq_zero_of_prefix hcodes (eq_true_of_ne_false hpre)
  rw [zero_code_unique hp hz h0 ha h0'] at hle
  omega

end ZeroCode

theorem noCodeBegins_zeros {s : State} (hcodes : CodesOk s) (hno : ∀ a, s.coded a = true → s.codeOf a ≠ 0) (r : Nat) :
    noCodeBegins s (zeros r) := fun a ha => by
  by_contra hpre
  exact hno a ha (codeOf_eq_zero_of_prefix hcodes (eq_true_of_ne_false hpre)).1

/-- The payload of `q` copies of a symbol whose code is 0 is a string of zeros. -/
theorem payloadBits_replicate_zero_code {s : State} {z : Sym} (h0 : s.codeOf z = 0) (q : Nat) :
    payloadBits s (List.replicate q z) = zeros ((s.lenOf z).toNat * q) := by
  induction q with
  | zero => rfl
  | succ q ih =>
    rw [List.replicate_succ, payloadBits_cons, ih, codeBits_of_zero_code h0, zeros, zeros, zeros, ← List.replicate_add,
      Nat.mul_succ, Nat.add_comm]

/-! ### DECOMPRESS without the count (R176(b)) -/

section WithoutCount
variable {d s : State} {input : List Byte} (hready : ReadyToDecode d input s)
include hready

/-- DEC 0 decodes the symbols the pad bits spell, and discards the zeros that are left over. -/
theorem exec_dec_zero_of_pad {spelt : List Sym} {r : Nat}
    (hpad : zeros (padCount (payloadBits d input).length) = payloadBits s spelt ++ zeros r)
    (hspelt : ∀ x ∈ spelt, s.coded x = true) (hno : noCodeBegins s (zeros r))
    (room : roomFor s (input ++ spelt).length) : exec (.dec 0) s = .next (decoded s (input ++ spelt) (zeros r)) := by
  have hr : r ≤ 7 := by
    have hlen := congrArg List.length hpad
    rw [List.length_append, zeros_length, zeros_length, padCount] at hlen
    omega
  have hcoded : ∀ x ∈ input ++ spelt, s.coded x = true := fun x hx =>
    (List.mem_append.1 hx).elim (hready.coded x) (hspelt x)
  have hin : inputBits s = payloadBits s (input ++ spelt) ++ zeros r ++ [] := by
    rw [hready.payload, hpad, payloadBits_append, List.append_nil, List.append_assoc]
  exact decDiscardsThePad s _ r hready.idle hready.valid hready.codes hready.free hready.reader hready.ended
    ⟨hcoded, hin⟩ hr hno room

variable {k : Nat} (hk : k = padCount (payloadBits d input).length) (room : roomFor s (input.length + 7))
include hk room

theorem exec_dec_zero_of_no_zero_code (hno : ∀ z, d.coded z = true → d.codeOf z ≠ 0) :
    exec (.dec 0) s = .next (decoded s (input ++ []) (zeros k)) := by
  rw [← hready.dict.coded, ← hready.dict.codeOf] at hno
  exact exec_dec_zero_of_pad hready (by rw [hk]; rfl) (by simp) (noCodeBegins_zeros hready.codes hno k)
    (room.mono (by simp))

theorem exec_dec_zero_of_zero_code {z : Sym} (hz : d.coded z = true) (h0 : d.codeOf z = 0) :
    exec (.dec 0) s = .next (decoded s (input ++ List.replicate (k / (d.lenOf z).toNat) z)
      (zeros (k % (d.lenOf z).toNat))) := by
  rw [← hready.dict.coded] at hz
  rw [← hready.dict.codeOf] at h0
  rw [← hready.dict.lenOf]
  have hq : k / (s.lenOf z).toNat ≤ 7 := (Nat.div_le_self _ _).trans (by rw [hk, padCount]; omega)
  have hmod : k % (s.lenOf z).toNat < (s.lenOf z).toNat := Nat.mod_lt _ (lenOf_pos hz)
  refine exec_dec_zero_of_pad hready ?_ ?_ (noCodeBegins_short_zeros hready.free hz h0 hready.codes hmod)
    (room.mono ?_)
  · rw [← hk, payloadBits_replicate_zero_code h0, zeros, zeros, zeros, ← List.replicate_add, Nat.div_add_mod]
  · exact fun x hx => by rw [List.eq_of_mem_replicate hx, hz]
  · rw [List.length_append, List.length_replicate]
    omega

end WithoutCount

/-! ### The code of zeros in the dictionary of a tree (R142) -/

/-- The leftmost path of a tree is a string of zeros. -/
theorem Tree.exists_zero_path (t : Tree) : ∃ a n, (a, zeros n) ∈ t.paths := by
  induction t with
  | leaf sym => exact ⟨sym, 0, List.mem_singleton_self _⟩
  | node l r ihl _ =>
    obtain ⟨a, n, h⟩ := ihl
    exact ⟨a, n + 1, List.mem_append_left _ (List.mem_map.2 ⟨(a, zeros n), h, rfl⟩)⟩

/-- Only a one-leaf tree has no code of zeros. -/
theorem no_zero_code_treeDict {s : State} {tree : Tree} (hnd : tree.leaves.Nodup) :
    (∀ z, (treeDict s tree).coded z = true → (treeDict s tree).codeOf z ≠ 0) ↔ tree.leaves.length = 1 := by
  have hcode {a : Sym} {c : List Bool} (h : (a, c) ∈ tree.codes) : (treeDict s tree).codeOf a = codeWord c := by
    rw [← codeWord_codeBits (codesOk_treeDict hnd), codeBits_treeDict hnd h]
  constructor
  · intro hno
    by_contra hne
    obtain ⟨a, n, ha⟩ := tree.exists_zero_path
    rw [← Tree.codes_eq_paths hne] at ha
    have hleaf : a ∈ tree.leaves := tree.map_fst_codes ▸ List.mem_map_of_mem ha
    refine hno a ((coded_treeDict hnd).2 hleaf) ?_
    rw [hcode ha, codeWord, val_zeros]
    rfl
  · intro hone z hz
    obtain ⟨sym, rfl⟩ := Tree.exists_leaf_of_length hone
    cases List.mem_singleton.1 ((coded_treeDict hnd).1 hz)
    rw [hcode List.mem_cons_self]
    decide

/-- After BUILD and ASSIGN no code is 0 exactly with one leaf. -/
theorem no_zero_code_iff_nleaf {s : State} (hidle : s.engine = .idle) (hsym : ∃ sym, s.freqOf sym ≠ 0) :
    ∃ t, execAll [.build, .assign] s = .next t ∧ ((∀ z, t.coded z = true → t.codeOf z ≠ 0) ↔ t.nleaf = 1) := by
  obtain ⟨u, tree, hbuilt, -, hperm, hexec⟩ := execAll_build_assign hidle hsym
  have hnd : tree.leaves.Nodup := hperm.nodup_iff.2 (occurring_nodup s)
  have hnleaf : (assignedState u tree).nleaf.toNat = tree.leaves.length := by
    rw [assignedState_frame, hperm.length_eq]
    exact hbuilt.nleaf
  refine ⟨assignedState u tree, hexec, ?_⟩
  simp only [entry_assignedState, no_zero_code_treeDict hnd, ← hnleaf]
  exact BitVec.toNat_inj (y := 1)

/-- Settles O56: with a code of zeros the pad bits spell as many of its symbol as they hold whole codes, else none. -/
theorem decompressWithoutTheCount : Obligations.DecompressWithoutTheCount := by
  refine ⟨fun d input u k hcodes hp hne hcoded h room hk => ?_, fun s => no_zero_code_iff_nleaf⟩
  obtain ⟨s, hexec, hready, hsame⟩ := execAll_readers hcodes hp hne hcoded h
  have herr (xs : List Sym) (c : List Bool) : (decoded s xs c).err = u.err := (decoded_err s xs c).trans hsame.err
  have hout (spelt : List Sym) (c : List Bool) : (decoded s (input ++ spelt) c).outq = u.outq ++ input ++ spelt := by
    rw [decoded_outq, hsame.outq, List.append_assoc]
  by_cases hzero : ∃ z, d.coded z = true ∧ d.codeOf z = 0
  · obtain ⟨z, hz, h0⟩ := hzero
    have hdec := exec_dec_zero_of_zero_code hready hk (hsame.room room) hz h0
    refine ⟨_, execAll_decompress hexec hdec, herr _ _, fun y hy hy0 => ?_, fun hno => absurd h0 (hno z hz), ?_⟩
    · rw [hout, zero_code_unique hp hz h0 hy hy0]
    · rw [hout, List.append_right_eq_self, List.replicate_eq_nil_iff, Nat.div_eq_zero_iff_lt (lenOf_pos hz)]
      refine ⟨fun hlt => .inr (.inr ⟨z, hz, h0, hlt⟩), ?_⟩
      rintro (hno | rfl | ⟨y, hy, hy0, hlt⟩)
      · exact absurd h0 (hno z hz)
      · exact lenOf_pos hz
      · rwa [← zero_code_unique hp hz h0 hy hy0]
  · have hno : ∀ z, d.coded z = true → d.codeOf z ≠ 0 := fun z hz h0 => hzero ⟨z, hz, h0⟩
    have hdec := exec_dec_zero_of_no_zero_code hready hk (hsame.room room) hno
    have hsame' := (hout [] (zeros k)).trans (List.append_nil _)
    exact ⟨_, execAll_decompress hexec hdec, herr _ _, fun z hz h0 => absurd h0 (hno z hz), fun _ => hsame',
      iff_of_true hsame' (.inl hno)⟩

end Sys2Proof.Machine
end

section
/-! PROOF. PUSH, FIN and RALIGN (45_bitstream.md R201, R202, R204): the writer's loop as far as OUT has room, and its pad. -/

namespace Sys2Proof.Machine

/-! ### Where a run stops (R72) -/

theorem runToStop_hold {op : Byte} {t : Task} {s : State} (h : t.step s = .hold) :
    runToStop op t s = s.park op t := runTask_hold h

/-- A held command that goes on runs from its task to where it stops. -/
theorem advance_eq_runToStop {s : State} {op : Byte} {t : Task} (he : s.engine = .running op t) (hcount : t.countsOk) :
    s.advance = runToStop op t s := by
  rw [advance_of_running he, runTask_eq_runToStop (Task.stepsLeft_lt_turnsFor hcount s)]

/-! ### Counts out of range (R92) -/

/-- A word of PUSH or RBITS with a count out of range raises (R92). -/
theorem accept_of_bad_count {o : Opcode} {s : State} {w : CmdWord} (herr : s.err = false) (hop : opField w = o.code)
    (hmask : w &&& o.mask = o.matchBits) (htakes : o.takesCount = true) (hcount : 32 < (bField w).toNat) :
    accept w s = .next (s.raise o.code .illegalOperand ((bField w).setWidth 32)) := by
  rw [accept_of_illegalOperand (discarded_of_no_error w herr) (decode_of_bad_count hop hmask htakes hcount), hop]

theorem countLegal_of_gt {n : BitVec 16} (h : 32 < n.toNat) : countLegal n = false := by
  simpa [countLegal] using h

/-! ### RALIGN (R204) -/

/-- Settles O52: RALIGN writes the mask, and an idle block stays idle. -/
theorem ralignDrops : Obligations.RalignDrops :=
  ⟨rfl, fun s hidle => congrArg Host.Outcome.next (endCommand_of_idle (s := s.rAlign) hidle), badFieldsRaise .ralign⟩

/-! ### FIN (R202) -/

/-- FIN with room for the byte of the pending bits pads them and empties the writer. -/
theorem exec_fin_of_room {s : State} (hidle : s.engine = .idle) (w : WriterOk s)
    (room : roomFor s ((s.wcnt.toNat + 7) / 8)) : exec .fin s = .next (flushBits s []) := by
  have hrun := runToStop_finish (op := Opcode.fin.code) (c := []) room
  rw [writeBits_nil w, endCommand_of_idle (s := flushBits s []) hidle] at hrun
  rw [exec_eq_runToStop (i := .fin) rfl trivial trivial]
  exact congrArg Host.Outcome.next hrun

/-- FIN with no pending bit does nothing. -/
theorem exec_fin_of_empty {s : State} (hidle : s.engine = .idle) (hcnt : s.wcnt = 0) : exec .fin s = .next s := by
  have hstep : Task.finish.step s = .done s := by
    rw [Task.step, stepFinish, State.finish_some.2 (.inl ⟨hcnt, rfl⟩)]
  rw [exec_eq_runToStop (i := .fin) rfl trivial trivial]
  exact congrArg Host.Outcome.next ((runToStop_done hstep).trans (endCommand_of_idle hidle))

/-- One to seven pending bits are padded to one byte (R78). -/
theorem padToByte_pendingBits {s : State} (w : WriterOk s) (hne : s.wcnt ≠ 0) :
    padToByte (pendingBits s) = pendingBits s ++ zeros (8 - s.wcnt.toNat) := by
  obtain ⟨hle, -⟩ := w
  have hpos : s.wcnt.toNat ≠ 0 := fun h => hne (BitVec.eq_of_toNat_eq h)
  rw [padToByte, padCount, pendingBits_length, Nat.mod_eq_of_lt (Nat.lt_succ_of_le hle), Nat.mod_eq_of_lt (by omega)]

/-- Settles O43: the pad completes exactly one byte when a bit is pending, and none otherwise. -/
theorem finFlushes : Obligations.FinFlushes := by
  have flushes : ∀ s : State, s.engine = .idle → WriterOk s → roomFor s 1 → exec .fin s = .next (flushBits s []) := by
    intro s hidle w room
    obtain ⟨hle, -⟩ := id w
    exact exec_fin_of_room hidle w (room.mono (by omega))
  refine ⟨rfl, flushes, fun s => exec_fin_of_empty, fun s hidle w hne room => ?_, badFieldsRaise .fin⟩
  have hlen : (pendingBits s ++ zeros (8 - s.wcnt.toNat)).length = 8 := by
    obtain ⟨hle, -⟩ := w
    rw [List.length_append, pendingBits_length, zeros_length]
    omega
  have hpack := packBytes_eight _ [] hlen
  rw [List.append_nil, packBytes_short [] (by decide), ← padToByte_pendingBits w hne] at hpack
  rw [flushes s hidle w room, flushBits_eq, List.append_nil, hpack, padToByte_pendingBits w hne]
  rfl

/-! ### PUSH (R201) -/

/-- `PushBits(v, m + n)` with room for the bytes its first `n` bits complete pushes these and has `m` left (R77). -/
theorem runToStop_push (op : Byte) (v : CodeWord) (m : Nat) (after : AfterPush) : ∀ n s, WriterOk s →
    roomFor s ((s.wcnt.toNat + n) / 8) → runToStop op (.push v (m + n) after) s =
      runToStop op (.push v m after) (writeBits s ((bits v.toNat (m + n)).take n)) := by
  intro n
  induction n with
  | zero => intro s w _; rw [Nat.add_zero, List.take_zero, writeBits_nil w]
  | succ n ih =>
    intro s w room
    have hbit := pushBit_isSome (v.getLsbD (m + n)) w (room.mono (Nat.div_le_div_right (by omega)))
    have hstep : (Task.push v (m + n + 1) after).step s = .go (.push v (m + n) after)
        (writeBits s [v.getLsbD (m + n)]) := by
      simp only [Task.step, stepPush, hbit]
    have hroom : roomFor (writeBits s [v.getLsbD (m + n)]) (((writeBits s [v.getLsbD (m + n)]).wcnt.toNat + n) / 8) :=
      roomFor_writeBits (p := 0) (by rwa [List.length_singleton, Nat.add_comm 1])
    rw [← Nat.add_assoc, runToStop_go hstep, ih _ (writeBits_pending s _).2 hroom, writeBits_append, bits_succ,
      List.take_succ_cons]
    rfl

/-- A word of PUSH with A zero passes its mask (R94). -/
theorem push_word_mask {w : CmdWord} (hop : opField w = 0x23) (ha : aField w = 0) :
    w &&& Opcode.push.mask = Opcode.push.matchBits := by
  obtain ⟨-, hmask, -⟩ := encode_fields (.push (bField w) (immField w))
  have hword := assembleWord_fields w
  rw [hop, ha] at hword
  rwa [show encode (.push (bField w) (immField w)) = w from hword] at hmask

/-- PUSH with room for only `r` bytes, fewer than it completes, holds at the bit that completes the next one (R75). -/
theorem exec_push_holds {s : State} {n : BitVec 16} (v : Word32) {r : Nat} (w : WriterOk s) (hn : n.toNat ≤ 32)
    (hfull : s.outq.length + r = s.params.outDepth) (hr : r < (s.wcnt.toNat + n.toNat) / 8) :
    exec (.push n v) s = .next ((writeBits s ((bits v.toNat n.toNat).take (8 * r + 7 - s.wcnt.toNat))).park 0x23
      (.push (v.setWidth 256) (n.toNat - (8 * r + 7 - s.wcnt.toNat)) .stop)) := by
  obtain ⟨hle, -⟩ := id w
  generalize hk : 8 * r + 7 - s.wcnt.toNat = k
  have hkn : n.toNat - k + k = n.toNat := by omega
  have hlen : ((bits v.toNat n.toNat).take k).length = k := by rw [List.length_take, bits_length]; omega
  have hv : (v.setWidth 256).toNat = v.toNat := BitVec.toNat_setWidth_of_le (by decide)
  have hrun := runToStop_push 0x23 (v.setWidth 256) (n.toNat - k) .stop k s w
    (roomFor.mono hfull.le (by omega))
  rw [hkn, hv] at hrun
  have hhold : (Task.push (v.setWidth 256) (n.toNat - k) .stop).step
      (writeBits s ((bits v.toNat n.toNat).take k)) = .hold := by
    have h7 : (writeBits s ((bits v.toNat n.toNat).take k)).wcnt = 7 := by
      refine BitVec.eq_of_toNat_eq ?_
      rw [writeBits_wcnt, hlen]
      show _ = 7
      omega
    refine Task.step_hold.2 ⟨by omega, by rw [h7]; rfl, ?_⟩
    rw [writeBits_outq_length, hlen]
    show s.params.outDepth ≤ _
    omega
  rw [runToStop_hold hhold] at hrun
  rw [exec_eq_runToStop (i := .push n v) rfl hn (show n.toNat ≤ 255 by omega)]
  exact congrArg Host.Outcome.next hrun

/-- A held PUSH with room for the bytes it still completes pushes the bits it has left and ends (R72). -/
theorem advance_push_of_room {s : State} {op : Byte} {v : CodeWord} {k : Nat}
    (he : s.engine = .running op (.push v k .stop)) (w : WriterOk s) (hk : k ≤ 32)
    (room : roomFor s ((s.wcnt.toNat + k) / 8)) : s.advance = (writeBits s (bits v.toNat k)).endCommand := by
  have hrun := runToStop_push op v 0 .stop k s w room
  rw [Nat.zero_add, List.take_of_length_le (bits_length _ _).le] at hrun
  rw [advance_eq_runToStop he (show k ≤ 255 by omega), hrun]
  exact runToStop_done rfl

/-- Settles O42: PUSH runs its loop as far as there is room; then the bit that completes the next byte holds, or it is
done. -/
theorem pushWrites : Obligations.PushWrites := by
  refine ⟨fun s n v hidle w hn room => ⟨exec_push_of_room v hidle w hn room, ?_, ?_⟩,
    fun s n v r _ w hn hfull hr => exec_push_holds v w hn hfull hr,
    fun s v k he w hk room => advance_push_of_room he w hk room, fun s n v _ hn => ?_,
    fun s w herr hop ha hcount => accept_of_bad_count herr hop (push_word_mask hop ha) rfl hcount,
    rfl, rfl, badFieldsRaise .push⟩
  · rw [writeBits_outq_length, bits_length]
  · rw [writeBits_wcnt, bits_length]
  · rw [exec, execPush, countLegal_of_gt hn]
    rfl

end Sys2Proof.Machine
end

section
/-! PROOF. RBITS (45_bitstream.md R203, 20_memory.md R79): its loop from any place reads what is on the input; then it
is done, raises or holds. -/

namespace Sys2Proof.Machine

/-- `((RDATA << 1) | b)[31:0]` is `2·RDATA + b` in 32 bits (R203). -/
theorem shiftData_ofNat (x : Nat) (b : Bool) : shiftData (BitVec.ofNat 32 x) b = BitVec.ofNat 32 (2 * x + b.toNat) := by
  have hor : ∀ d : Word32, d <<< 1 ||| (BitVec.ofBool b).setWidth 32 = d <<< 1 + (BitVec.ofBool b).setWidth 32 := by
    intro d
    refine (BitVec.add_eq_or_of_and_eq_zero _ _ ?_).symm
    ext i hi
    cases i <;> simp
  have hbit : (BitVec.ofBool b).setWidth 32 = BitVec.ofNat 32 b.toNat := by cases b <;> rfl
  have hdouble : BitVec.ofNat 32 x <<< 1 = BitVec.ofNat 32 (2 * x) := by
    rw [BitVec.shiftLeft_eq_mul_twoPow, Nat.mul_comm, BitVec.ofNat_mul]
    rfl
  rw [shiftData, hor, hbit, hdouble, BitVec.ofNat_add]

theorem inputBits_setData (s : State) (d : Word32) : inputBits (setData s d) = inputBits s := rfl

/-- What reading `k` bits into `RDATA` leaves, first bit highest (R203). -/
def bitsRead (s : State) (k : Nat) : State :=
  setData (afterBits s k) (BitVec.ofNat 32 (s.rdata.toNat * 2 ^ k + val ((inputBits s).take k)))

theorem bitsRead_zero (s : State) : bitsRead s 0 = s := by
  rw [bitsRead, afterBits_zero, List.take_zero, val_nil, Nat.pow_zero, Nat.mul_one, Nat.add_zero, BitVec.ofNat_toNat,
    BitVec.setWidth_eq]
  rfl

/-- From a cleared `RDATA` the bits read are all that it holds. -/
theorem bitsRead_setData_zero (s : State) (k : Nat) :
    bitsRead (setData s 0) k = setData (afterBits s k) (BitVec.ofNat 32 (val ((inputBits s).take k))) := by
  rw [bitsRead, afterBits_setData, show (setData s 0).rdata.toNat = 0 from rfl, Nat.zero_mul, Nat.zero_add]
  rfl

theorem bitsRead_engine (s : State) (k : Nat) : (bitsRead s k).engine = s.engine := afterBits_engine s k

theorem bitsRead_ineos (s : State) (k : Nat) : (bitsRead s k).ineos = s.ineos := afterBits_ineos s k

section Rbits
variable {s : State} (hr : ReaderOk s)
include hr

/-- Reading bits drops them from the input, whatever `RDATA` is (R79). -/
theorem inputBits_setData_afterBits (d : Word32) {k : Nat} (h : k ≤ (inputBits s).length) :
    inputBits (setData (afterBits s k) d) = (inputBits s).drop k := inputBits_afterBits hr k h

theorem readerOk_bitsRead (k : Nat) : ReaderOk (bitsRead s k) := afterBits_ok hr k

theorem inputBits_bitsRead {k : Nat} (h : k ≤ (inputBits s).length) :
    inputBits (bitsRead s k) = (inputBits s).drop k := inputBits_setData_afterBits hr _ h

/-- With a bit left after the first `k`, RBITS's loop reads it (R79, R203). -/
theorem step_rbits_bit {n j k : Nat} (hj : j < n) (h : k < (inputBits s).length) :
    (Task.rbits n j).step (bitsRead s k) = .go (.rbits n (j + 1)) (bitsRead s (k + 1)) := by
  have hin : inputBits (bitsRead s k) = (inputBits s)[k] :: (inputBits s).drop (k + 1) :=
    (inputBits_bitsRead hr h.le).trans (List.drop_eq_getElem_cons h)
  obtain ⟨hnext, -⟩ := nextBit_reads (readerOk_bitsRead hr k) hin
  have hafter : afterBits (bitsRead s k) 1 =
      setData (afterBits s (k + 1)) (BitVec.ofNat 32 (s.rdata.toNat * 2 ^ k + val ((inputBits s).take k))) := by
    rw [bitsRead, afterBits_setData, afterBits_succ hr]
  have hdata : 2 * (s.rdata.toNat * 2 ^ k + val ((inputBits s).take k)) + (inputBits s)[k].toNat =
      s.rdata.toNat * 2 ^ (k + 1) + val ((inputBits s).take (k + 1)) := by
    rw [List.take_succ_eq_append_getElem h, val_concat, Nat.pow_succ]
    ring
  rw [Task.step, stepRbits, if_pos hj, hnext, hafter]
  dsimp only
  rw [bitsRead, ← hdata, ← shiftData_ofNat]
  rfl

/-- RBITS's loop reads `k` bits that are on the input. -/
theorem runToStop_rbits (op : Byte) {n j : Nat} : ∀ k, k ≤ (inputBits s).length → j + k ≤ n →
    runToStop op (.rbits n j) s = runToStop op (.rbits n (j + k)) (bitsRead s k) := by
  intro k
  induction k with
  | zero => intro _ _; rw [bitsRead_zero, Nat.add_zero]
  | succ k ih =>
    intro hin hn
    rw [ih (by omega) (by omega)]
    exact runToStop_go (step_rbits_bit hr (by omega) hin)

/-- RBITS with all the bits it still wants on the input reads them and ends. -/
theorem runToStop_rbits_enough (op : Byte) {n j : Nat} (hj : j ≤ n) (h : n - j ≤ (inputBits s).length) :
    runToStop op (.rbits n j) s = (bitsRead s (n - j)).endCommand := by
  have hdone : (Task.rbits n n).step (bitsRead s (n - j)) = .done (bitsRead s (n - j)) := if_neg (Nat.lt_irrefl n)
  rw [runToStop_rbits hr op (n - j) h (by omega), Nat.add_sub_cancel' hj, runToStop_done hdone]

section Short
variable {n j : Nat} (h : (inputBits s).length < n - j)
include h

/-- With every bit read and more wanted, RBITS's loop reports exhaustion or holds (R74, R79). -/
theorem step_rbits_short : (Task.rbits n (j + (inputBits s).length)).step (bitsRead s (inputBits s).length) =
    if s.ineos then
      .raise .readExhausted (BitVec.ofNat 32 (j + (inputBits s).length)) (bitsRead s (inputBits s).length)
    else .hold := by
  have hempty : inputBits (bitsRead s (inputBits s).length) = [] := by
    rw [inputBits_bitsRead hr (le_refl _), List.drop_length]
  rw [Task.step, stepRbits, if_pos (by omega), nextBit_empty (readerOk_bitsRead hr _) hempty, bitsRead_ineos]
  cases s.ineos <;> rfl

/-- RBITS with too little input and end of input raises READ_EXHAUSTED with the number read in all. -/
theorem runToStop_rbits_exhausted (op : Byte) (heos : s.ineos = true) : runToStop op (.rbits n j) s =
    (bitsRead s (inputBits s).length).raise op .readExhausted (BitVec.ofNat 32 (j + (inputBits s).length)) := by
  rw [runToStop_rbits hr op _ (le_refl _) (by omega)]
  exact runToStop_raise ((step_rbits_short hr h).trans (if_pos heos))

/-- RBITS with too little input and no end of input holds at the next bit. -/
theorem runToStop_rbits_holds (op : Byte) (heos : s.ineos = false) : runToStop op (.rbits n j) s =
    (bitsRead s (inputBits s).length).park op (.rbits n (j + (inputBits s).length)) := by
  rw [runToStop_rbits hr op _ (le_refl _) (by omega)]
  exact runToStop_hold ((step_rbits_short hr h).trans (by rw [heos]; rfl))

end Short

end Rbits

theorem bitsRead_all (s : State) : bitsRead s (inputBits s).length = setData (afterBits s (inputBits s).length)
    (BitVec.ofNat 32 (s.rdata.toNat * 2 ^ (inputBits s).length + val (inputBits s))) := by
  rw [bitsRead, List.take_length]

/-- RBITS of a legal count runs its loop from a cleared `RDATA`. -/
theorem exec_rbits_eq_runToStop {s : State} {n : BitVec 16} (hn : n.toNat ≤ 32) :
    exec (.rbits n) s = .next (runToStop 0x33 (.rbits n.toNat 0) (setData s 0)) :=
  exec_eq_runToStop (i := .rbits n) rfl hn hn

section ExecRbits
variable {s : State} {n : BitVec 16} (hr : ReaderOk s) (hn : n.toNat ≤ 32)
include hr hn

/-- RBITS with enough input reads its bits into `RDATA`. -/
theorem exec_rbits_of_input (hidle : s.engine = .idle) (h : n.toNat ≤ (inputBits s).length) : exec (.rbits n) s =
    .next (setData (afterBits s n.toNat) (BitVec.ofNat 32 (val ((inputBits s).take n.toNat)))) := by
  have hrun := runToStop_rbits_enough (s := setData s 0) hr 0x33 (Nat.zero_le n.toNat) h
  have hend : (bitsRead (setData s 0) n.toNat).engine = .idle := (bitsRead_engine _ _).trans hidle
  rw [Nat.sub_zero, endCommand_of_idle hend, bitsRead_setData_zero] at hrun
  rw [exec_rbits_eq_runToStop hn, hrun]

/-- RBITS with too little input and end of input reads what there is and raises READ_EXHAUSTED. -/
theorem exec_rbits_exhausted (h : (inputBits s).length < n.toNat) (heos : s.ineos = true) : exec (.rbits n) s = .next
    ((setData (afterBits s (inputBits s).length) (BitVec.ofNat 32 (val (inputBits s)))).raise
      0x33 .readExhausted (BitVec.ofNat 32 (inputBits s).length)) := by
  have hrun := runToStop_rbits_exhausted (s := setData s 0) (n := n.toNat) (j := 0) hr h 0x33 heos
  rw [bitsRead_setData_zero, Nat.zero_add, inputBits_setData, List.take_length] at hrun
  rw [exec_rbits_eq_runToStop hn, hrun]

/-- RBITS with too little input and no end of input reads what there is and holds. -/
theorem exec_rbits_holds (h : (inputBits s).length < n.toNat) (heos : s.ineos = false) : exec (.rbits n) s = .next
    ((setData (afterBits s (inputBits s).length) (BitVec.ofNat 32 (val (inputBits s)))).park
      0x33 (.rbits n.toNat (inputBits s).length)) := by
  have hrun := runToStop_rbits_holds (s := setData s 0) (n := n.toNat) (j := 0) hr h 0x33 heos
  rw [bitsRead_setData_zero, Nat.zero_add, inputBits_setData, List.take_length] at hrun
  rw [exec_rbits_eq_runToStop hn, hrun]

end ExecRbits

/-- Settles O51: a started and a held RBITS run the same loop, the one from a cleared `RDATA` and the other from the bits it
has; the loop reads what is on the input, and then it is done, raises or holds. -/
theorem rbitsReads : Obligations.RbitsReads := by
  refine ⟨fun s n hidle hr hn => ⟨exec_rbits_of_input hr hn hidle, exec_rbits_exhausted hr hn, exec_rbits_holds hr hn⟩,
    fun s n j he hr hj hn => ?_,
    fun s w herr hop hmask hcount => accept_of_bad_count herr hop hmask rfl hcount, fun s n _ hn => ?_,
    rfl, rfl, badFieldsRaise .rbits⟩
  · rw [advance_eq_runToStop he hn]
    refine ⟨runToStop_rbits_enough hr 0x33 hj, fun h heos => ?_, fun h heos => ?_⟩
    · rw [runToStop_rbits_exhausted hr h 0x33 heos, bitsRead_all]
      rfl
    · rw [runToStop_rbits_holds hr h 0x33 heos, bitsRead_all]
      rfl
  · rw [exec, execRbits, countLegal_of_gt hn]
    rfl

end Sys2Proof.Machine
end

section
/-! PROOF. What PUSH and FIN write, RBITS of any counts reads back (45_bitstream.md R205). -/

namespace Sys2Proof.Machine

theorem afterBits_err (s : State) (n : Nat) : (afterBits s n).err = s.err := by rw [afterBits_frame]

/-- PUSH commands from an empty writer and a FIN emit the bytes of the pushed bits and their pad (R82). -/
theorem execAll_push_fin {s : State} {pushes : List (BitVec 16 × Word32)} (hidle : s.engine = .idle) (hcnt : s.wcnt = 0)
    (hacc : s.wacc = 0) (hle : ∀ q ∈ pushes, q.1.toNat ≤ 32)
    (room : roomFor s ((countSum (pushes.map Prod.fst) + 7) / 8)) :
    execAll (pushes.map (fun q => Instr.push q.1 q.2) ++ [.fin]) s =
      .next (emitBytes s (packBytes (padToByte (pushedBits pushes)))) := by
  have w := writerOk_of_empty hcnt hacc
  have hroom := roomFor_of_empty hcnt room
  have hpush := execAll_push pushes s hidle w hle (hroom.mono (by omega))
  rw [← pushedBits_length] at hroom
  have hfin := exec_fin_of_room (s := writeBits s (pushedBits pushes)) hidle (writeBits_pending s _).2
    (roomFor_writeBits (n := 0) hroom)
  rw [execAll_append hpush, execAll, hfin, flushBits_writeBits, flushBits_of_empty hcnt hacc]
  rfl

/-- RBITS commands with enough input for all of them read their bits one after the other (R82). -/
theorem execAll_rbits : ∀ (counts : List (BitVec 16)) (s : State), s.engine = .idle → ReaderOk s →
    (∀ c ∈ counts, c.toNat ≤ 32) → countSum counts ≤ (inputBits s).length →
    ∃ d, execAll (counts.map .rbits) s = .next (setData (afterBits s (countSum counts)) d) := by
  intro counts
  induction counts with
  | nil => intro s _ _ _ _; exact ⟨s.rdata, by rw [countSum_nil, afterBits_zero]; rfl⟩
  | cons c counts ih =>
    intro s hidle hr hle hin
    rw [countSum_cons] at hin ⊢
    have hc := exec_rbits_of_input hr (hle c List.mem_cons_self) hidle (by omega)
    generalize BitVec.ofNat 32 (val ((inputBits s).take c.toNat)) = d at hc
    have hrest := inputBits_setData_afterBits hr d (k := c.toNat) (by omega)
    obtain ⟨d', hd'⟩ := ih (setData (afterBits s c.toNat) d) ((afterBits_engine s c.toNat).trans hidle)
      (afterBits_ok hr c.toNat) (fun c' hc' => hle c' (List.mem_cons_of_mem c hc'))
      (by rw [hrest, List.length_drop]; omega)
    rw [afterBits_setData, afterBits_add hr] at hd'
    exact ⟨d', by rw [List.map_cons, execAll, hc]; exact hd'⟩

section LastRead
variable {u : State} {before : List (BitVec 16)} {n : BitVec 16} (hr : ReaderOk u) (hidle : u.engine = .idle)
  (hbefore : ∀ c ∈ before, c.toNat ≤ 32) (hn : n.toNat ≤ 32) (hin : countSum before ≤ (inputBits u).length)
include hr hidle hbefore hn hin

/-- RBITS commands with enough input: the last one reads the piece behind the others' bits. -/
theorem execAll_rbits_of_input (h : countSum before + n.toNat ≤ (inputBits u).length) :
    ∃ v, execAll ((before ++ [n]).map .rbits) u = .next v ∧ v.err = u.err ∧
      v.rdata = BitVec.ofNat 32 (val (((inputBits u).drop (countSum before)).take n.toNat)) ∧
      inputBits v = (inputBits u).drop (countSum before + n.toNat) := by
  obtain ⟨d, hd⟩ := execAll_rbits before u hidle hr hbefore hin
  have hrest := inputBits_setData_afterBits hr d hin
  have hlast := exec_rbits_of_input (s := setData (afterBits u (countSum before)) d) (afterBits_ok hr _) hn
    ((afterBits_engine u _).trans hidle) (by rw [hrest, List.length_drop]; omega)
  rw [hrest, afterBits_setData, afterBits_add hr] at hlast
  rw [List.map_append, execAll_append hd, List.map_singleton, execAll, hlast]
  exact ⟨_, rfl, afterBits_err u _, rfl, inputBits_setData_afterBits hr _ h⟩

/-- RBITS commands of which the last one runs past the end of the input: it raises READ_EXHAUSTED with the number of bits
behind the others' bits, and reads these. -/
theorem execAll_rbits_exhausted (h : (inputBits u).length < countSum before + n.toNat) (heos : u.ineos = true) :
    ∃ v, execAll ((before ++ [n]).map .rbits) u = .next v ∧ v.err = true ∧ v.errcode = 12 ∧ v.errop = 0x33 ∧
      v.errinfo = BitVec.ofNat 32 ((inputBits u).length - countSum before) ∧
      v.rdata = BitVec.ofNat 32 (val ((inputBits u).drop (countSum before))) := by
  obtain ⟨d, hd⟩ := execAll_rbits before u hidle hr hbefore hin
  have hrest := inputBits_setData_afterBits hr d hin
  have hlast := exec_rbits_exhausted (s := setData (afterBits u (countSum before)) d) (afterBits_ok hr _) hn
    (by rw [hrest, List.length_drop]; omega) ((afterBits_ineos u _).trans heos)
  rw [hrest, List.length_drop] at hlast
  rw [List.map_append, execAll_append hd, List.map_singleton, execAll, hlast]
  exact ⟨_, rfl, rfl, rfl, rfl, rfl, rfl⟩

end LastRead

/-- Settles O57: the emitted bytes are the pushed bits padded to a byte, and the RBITS commands read these as they would read
any input. -/
theorem writerAndReaderAgree : Obligations.WriterAndReaderAgree := by
  intro s pushes p hidle hcnt hacc hle room hp
  have hbytes : (packBytes (padToByte (pushedBits pushes))).flatMap byteBits = p :=
    (flatMap_byteBits_padToByte _).trans hp.symm
  refine ⟨_, _, execAll_push_fin hidle hcnt hacc hle room, rfl, rfl, hbytes, ?_⟩
  intro u before n hidle hmask hq hbefore hn hin
  have hr : ReaderOk u := (readerOk_iff u).2 (by rw [hmask]; rfl)
  have hinput : inputBits u = p := by rw [inputBits_of_aligned hmask, hq, hbytes]
  subst hinput
  exact ⟨execAll_rbits_of_input hr hidle hbefore hn hin, execAll_rbits_exhausted hr hidle hbefore hn hin⟩

end Sys2Proof.Machine
end

section
/-! PROOF. The exceptions (60_exceptions.md R220 to R226): a failed precondition raises SEQUENCE, words are discarded
while `ERR = 1`, only a reset leaves `ERR = 1`, and the only refusal is of a host action that is not enabled. -/

namespace Sys2Proof.Machine

/-! ### Failed preconditions (R221) -/

/-- A command that asks for a precondition takes the branch of its failure when it fails. -/
theorem ite_of_failed {s : State} {p : Precondition} (h : p.holds s = false) (raises goes : Result) :
    (if !p.holds s then raises else goes) = raises :=
  if_pos (by rw [h]; rfl)

/-- A command that asks for a precondition goes on when it holds. -/
theorem ite_of_holds {s : State} {p : Precondition} (h : p.holds s = true) (raises goes : Result) :
    (if !p.holds s then raises else goes) = goes :=
  if_neg (by rw [h]; exact Bool.false_ne_true)

/-- Settles O10: each command asks for its precondition first, and WPRE for its second when the first holds. -/
theorem sequenceErrors : Obligations.SequenceErrors := by
  intro s _
  refine ⟨fun htree => ite_of_failed (p := .tree) htree _ _, fun hdict => ?_,
    fun hpre => ite_of_failed (p := .preamble) hpre _ _, fun hdict hcnt => ?_, fun hmask => ?_⟩
  · have failed : Precondition.dictionary.holds s = false := hdict
    exact ⟨ite_of_failed failed _ _, ite_of_failed failed _ _, ite_of_failed failed _ _,
      fun _ => ite_of_failed failed _ _⟩
  · calc
      exec .wpre s = _ := ite_of_holds (p := .dictionary) hdict _ _
      _ = .next (s.raise 0x20 .sequence 4) := ite_of_failed (p := .writerAligned) (decide_eq_false hcnt) _ _
  · exact ite_of_failed (p := .readerAligned) (decide_eq_false hmask) _ _

/-! ### Words while `ERR = 1` (R224, R226) -/

/-- Settles O7: the step of an idle block accepts the issued word, and accepting it changes nothing. -/
theorem discardedWhileErr : Obligations.DiscardedWhileErr := by
  refine ⟨fun _ _ => accept_of_error, fun s w rest hidle herr hop hscript => ?_⟩
  rw [step_of_issue hidle hscript]
  exact accept_of_error herr hop

/-- A word with RESET's opcode that is not RESET's word raises again (R226). -/
theorem accept_of_bad_reset {w : CmdWord} (s : State) (hop : opField w = Opcode.reset.code) (hw : w ≠ encode .reset) :
    accept w s = .next (s.raise Opcode.reset.code .illegalOperand 0) :=
  badFieldsRaise .reset s w (.inr rfl) hop fun hmask => hw (encode_of_mask hmask).symm

/-- The one word that clears `ERR` is RESET's, and it puts the block at its reset values. -/
theorem accept_clears_err {s t : State} {w : CmdWord} (herr : s.err = true) (ha : accept w s = .next t)
    (ht : t.err = false) : w = encode .reset ∧ t = s.resetInternal := by
  by_cases hw : w = encode .reset
  · subst hw
    rw [accept_encode rfl (discarded_of_reset_opcode s (encode_fields .reset).1), exec_reset] at ha
    cases ha
    exact ⟨rfl, rfl⟩
  · have hstays : t.err = true := by
      by_cases hop : opField w = Opcode.reset.code
      · rw [accept_of_bad_reset s hop hw] at ha
        cases ha
        rfl
      · rw [accept_of_error herr hop] at ha
        cases ha
        exact herr
    rw [hstays] at ht
    cases ht

/-! ### The ways out of `ERR = 1` (R226) -/

/-- A running command never clears `ERR`: its steps do not write it, and its error sets it. -/
theorem runTask_keeps_err (op : Byte) (n : Nat) (t : Task) (s : State) (herr : s.err = true) :
    (runTask op n t s).err = true := by
  have step_err : ∀ {t : Task} {s s' : State}, s.err = true → (t.step s).state? = some s' → s'.err = true :=
    fun herr hs => (congrArg State.err (withErrors_of_step hs)).symm.trans herr
  refine runTask_induction op (fun _ s => s.err = true) (fun s => s.err = true) ?_ ?_ ?_ ?_ n t s herr
  · intro t s t' s' herr hs
    exact step_err herr (congrArg Micro.state? hs)
  · intro t s s' herr hs
    exact (State.endCommand_err s').trans (step_err herr (congrArg Micro.state? hs))
  · intro t s e info s' _ _
    exact State.raise_err s' op e info
  · exact fun _ _ herr => herr

theorem advance_keeps_err {s : State} (herr : s.err = true) : s.advance.err = true := by
  cases he : s.engine with
  | idle => rw [State.advance, he]; exact herr
  | running op t => rw [advance_of_running he]; exact runTask_keeps_err op _ t s herr

/-- Of the host's actions, Issue of RESET's word and power-on reset alone clear `ERR`, and each of them resets. -/
theorem perform_clears_err {s t : State} {a : HostAction} (herr : s.err = true) (hp : a.perform s = .next t)
    (ht : t.err = false) :
    (a = .issue (encode .reset) ∧ t = s.resetInternal) ∨ (a = .powerOnReset ∧ t = s.powerOn) := by
  have unchanged : t.err = s.err → False := fun h => by
    rw [h, herr] at ht
    cases ht
  cases a with
  | issue w =>
    obtain ⟨rfl, rfl⟩ := accept_clears_err herr hp ht
    exact .inl ⟨rfl, rfl⟩
  | feed b | endInput | reopen | read addr => cases hp; exact (unchanged rfl).elim
  | drain =>
    cases hp
    rw [drainOne_frame] at unchanged
    exact (unchanged rfl).elim
  | powerOnReset => cases hp; exact .inr ⟨rfl, rfl⟩

theorem internalAtReset_powerOn (s : State) : InternalAtReset s.powerOn := (resetValues.2.1 s).1

theorem step_of_canAdvance {s : State} (h : s.canAdvance = true) : step s = .next s.advance := if_pos h

/-- A host action that is not enabled is refused by name (log 9). -/
theorem hostTurn_of_not_enabled {s : State} {a : HostAction} {rest : List HostAction} (h : s.host.script = a :: rest)
    (hen : a.enabled s = false) : hostTurn s = .refused (.hostNotEnabled a) := by
  rw [hostTurn, h]
  exact if_neg (by rw [hen]; exact Bool.false_ne_true)

/-- The host's turn that clears `ERR` is one of its two resets. -/
theorem hostTurn_clears_err {s t : State} (herr : s.err = true) (hs : hostTurn s = .next t) (ht : t.err = false) :
    InternalAtReset t ∧
      ∃ rest, s.host.script = .issue (encode .reset) :: rest ∨ s.host.script = .powerOnReset :: rest := by
  cases hscript : s.host.script with
  | nil =>
    rw [hostTurn_of_nil hscript] at hs
    cases hs
    rw [herr] at ht
    cases ht
  | cons a rest =>
    cases hen : a.enabled s with
    | false =>
      rw [hostTurn_of_not_enabled hscript hen] at hs
      cases hs
    | true =>
      rw [hostTurn_of_enabled hscript hen] at hs
      rcases perform_clears_err (s := s.withScript rest) herr hs ht with ⟨rfl, rfl⟩ | ⟨rfl, rfl⟩
      · exact ⟨internalAtReset_resetInternal _, rest, .inl rfl⟩
      · exact ⟨internalAtReset_powerOn _, rest, .inr rfl⟩

/-- Settles O11: a command that goes on keeps `ERR`, and so does every action of the host but its two resets. -/
theorem errIsSticky : Obligations.ErrIsSticky := by
  refine ⟨fun s t herr hs ht => ?_, fun _ _ => accept_of_error, fun s w herr hop hw => ?_⟩
  · cases hc : s.canAdvance with
    | true =>
      rw [step_of_canAdvance hc] at hs
      cases hs
      rw [advance_keeps_err herr] at ht
      cases ht
    | false =>
      rw [step_of_waiting hc] at hs
      exact hostTurn_clears_err herr hs ht
  · rw [accept_of_bad_reset s hop hw, State.raise, ← herr]
    rfl

/-! ### Refusals (R71, R220) -/

/-- Every command has a meaning: none is refused. -/
theorem exec_ne_refused (i : Instr) (s : State) (r : Refusal) : exec i s ≠ .refused r := by
  intro h
  cases i with
  | nop | reset | clrw | setw sym w | ralign | fin => cases h
  | build | wtab | enc | push n v | rpre | dec limit | rbits n =>
    simp only [exec, execBuild, execWtab, execEnc, execPush, execRpre, execDec, execRbits] at h
    split at h <;> cases h
  | assign | wpre | rtab =>
    simp only [exec, execAssign, execWpre, execRtab] at h
    split at h <;> [skip; split at h] <;> cases h

theorem accept_ne_refused (w : CmdWord) (s : State) (r : Refusal) : accept w s ≠ .refused r := by
  intro h
  unfold accept at h
  split at h
  · cases h
  · split at h
    · cases h
    · cases h
    · next i _ => exact exec_ne_refused i s r h

theorem perform_ne_refused (a : HostAction) (s : State) (r : Refusal) : a.perform s ≠ .refused r := by
  intro h
  cases a with
  | issue w => exact accept_ne_refused w s r h
  | feed b | endInput | reopen | drain | read addr | powerOnReset => cases h

/-- The host's turn is refused exactly when its next action is not enabled. -/
theorem hostTurn_eq_refused {s : State} {r : Refusal} : hostTurn s = .refused r ↔
    ∃ a rest, s.host.script = a :: rest ∧ a.enabled s = false ∧ r = .hostNotEnabled a := by
  constructor
  · intro h
    cases hscript : s.host.script with
    | nil =>
      rw [hostTurn_of_nil hscript] at h
      cases h
    | cons a rest =>
      cases hen : a.enabled s with
      | true =>
        rw [hostTurn_of_enabled hscript hen] at h
        exact (perform_ne_refused a _ r h).elim
      | false =>
        rw [hostTurn_of_not_enabled hscript hen] at h
        cases h
        exact ⟨a, rest, rfl, hen, rfl⟩
  · rintro ⟨a, rest, hscript, hen, rfl⟩
    exact hostTurn_of_not_enabled hscript hen

/-- Settles O12: a running command's steps end in a next state, so a refusal is the host's turn's. -/
theorem stopsAreTheHosts : Obligations.StopsAreTheHosts := by
  refine ⟨exec_ne_refused, fun _ _ _ => eq_assign_of_fault, fun s r => ?_⟩
  cases hc : s.canAdvance with
  | true =>
    rw [step_of_canAdvance hc]
    exact iff_of_false nofun nofun
  | false =>
    rw [step_of_waiting hc, hostTurn_eq_refused]
    exact (and_iff_right rfl).symm

end Sys2Proof.Machine
end
